-- ==== Sys2Proof/Word.lean ====
section
/-! DEFINITION. The two data widths of the block (00_scope.md R12): a byte is an 8-bit unsigned value and a
word is 32 bits. Bit 0 is the least significant bit. No value is signed (R12), so BitVec's own unsigned
operations are all the arithmetic there is. -/

namespace Sys2Proof

/-- A byte (R12). -/
abbrev Byte := BitVec 8

/-- A word: one register, one bus data value or one round-key word (R12). -/
abbrev Word := BitVec 32

end Sys2Proof
end

