-- ==== Sys2Proof/Syntax.lean ====
section
/-! DEFINITION. The commands of the block: one constructor per row of spec/opcode_table.json
(30_encoding.md R102). The only operand field of any command word is RIDX, and only ARK uses it (R103). -/

namespace Sys2Proof

/-- A command of the XCR-AES interface (30_encoding.md R102). -/
inductive Instr where
  /-- NOP, OP 0x00 (R190). -/
  | nop
  /-- KEXP, OP 0x01: expand the key (R165). -/
  | kexp
  /-- ENC, OP 0x02: encrypt one block (R220). -/
  | enc
  /-- DEC, OP 0x03: decrypt one block (R221). -/
  | dec
  /-- LOAD, OP 0x10: build the state from DIN (R191). -/
  | load
  /-- STORE, OP 0x11: copy the state to DOUT (R192). -/
  | store
  /-- SB, OP 0x12: SubBytes (R193). -/
  | sb
  /-- ISB, OP 0x13: InvSubBytes (R194). -/
  | isb
  /-- SR, OP 0x14: ShiftRows (R195). -/
  | sr
  /-- ISR, OP 0x15: InvShiftRows (R196). -/
  | isr
  /-- MC, OP 0x16: MixColumns (R197). -/
  | mc
  /-- IMC, OP 0x17: InvMixColumns (R198). -/
  | imc
  /-- ARK n, OP 0x18: AddRoundKey with round key n; RIDX is n (R199). -/
  | ark (ridx : Nat)
  /-- GFMUL, OP 0x20: multiply two field elements (R140). -/
  | gfmul
  /-- SBOX, OP 0x21: S-box lookup (R141). -/
  | sbox
  /-- ISBOX, OP 0x22: inverse S-box lookup (R142). -/
  | isbox
  deriving DecidableEq, Repr

end Sys2Proof
end

