-- ==== Sys2Proof/WellFormed.lean ====
section
/-! DEFINITION. Which terms of Instr are commands: RIDX is a 4-bit unsigned index (30_encoding.md R100, R103),
so ARK's operand is 0 to 15. The other commands have no operand field. -/

namespace Sys2Proof

/-- The one check on a command: RIDX fits its four bits (R100, R103). -/
def Instr.wellFormed : Instr → Bool
  | .nop => true
  | .kexp => true
  | .enc => true
  | .dec => true
  | .load => true
  | .store => true
  | .sb => true
  | .isb => true
  | .sr => true
  | .isr => true
  | .mc => true
  | .imc => true
  | .ark ridx => decide (ridx ≤ 15)
  | .gfmul => true
  | .sbox => true
  | .isbox => true

/-- A well-formed command. -/
abbrev Instr.WellFormed (i : Instr) : Prop := i.wellFormed = true

end Sys2Proof
end

