-- ==== Sys2Proof/Decode.lean ====
section
/-! DEFINITION. The command word of 30_encoding.md: its three fields (R100), the decoder (R101 to R103, R107),
total on every 32-bit word and rejecting by name, and after it the encoder written from the same table (R102).
What the machine does with a word that does not decode is Machine/Bus.lean's matter (ILLEGAL_COMMAND). -/

namespace Sys2Proof

/-- Field OP, bits 7:0 of a command word (R100). -/
def opField (w : Word) : Byte := w.extractLsb' 0 8

/-- Field RIDX, bits 11:8, an unsigned round index (R100, R103). -/
def ridxField (w : Word) : BitVec 4 := w.extractLsb' 8 4

/-- Field RSV, bits 31:12, which must be 0 (R100). -/
def rsvField (w : Word) : BitVec 20 := w.extractLsb' 12 20

/-- Why a word is no command (R107: the three conditions of a legal word, each named where it fails). -/
inductive DecodeError where
  /-- OP is none of the 16 values of R102: 0x04 to 0x0F, 0x19 to 0x1F or 0x23 to 0xFF. -/
  | unknownOpcode
  /-- RSV is not 0. -/
  | reservedBitsSet
  /-- RIDX is not 0 and the opcode is not ARK's. -/
  | ridxNotZero
  deriving DecidableEq, Repr

/-- The opcode map of R102; `ridx` is the operand that only ARK takes. -/
def instrOfOp (op : Byte) (ridx : Nat) : Option Instr :=
  match op with
  | 0x00#8 => some .nop
  | 0x01#8 => some .kexp
  | 0x02#8 => some .enc
  | 0x03#8 => some .dec
  | 0x10#8 => some .load
  | 0x11#8 => some .store
  | 0x12#8 => some .sb
  | 0x13#8 => some .isb
  | 0x14#8 => some .sr
  | 0x15#8 => some .isr
  | 0x16#8 => some .mc
  | 0x17#8 => some .imc
  | 0x18#8 => some (.ark ridx)
  | 0x20#8 => some .gfmul
  | 0x21#8 => some .sbox
  | 0x22#8 => some .isbox
  | _ => none

/-- Only ARK uses RIDX; it must be 0 for every other opcode (R100). -/
def Instr.takesRidx : Instr → Bool
  | .ark _ => true
  | .nop => false
  | .kexp => false
  | .enc => false
  | .dec => false
  | .load => false
  | .store => false
  | .sb => false
  | .isb => false
  | .sr => false
  | .isr => false
  | .mc => false
  | .imc => false
  | .gfmul => false
  | .sbox => false
  | .isbox => false

/-- The decoder (R107): OP names a command, RSV is 0, and RIDX is 0 unless the command is ARK. -/
def decode (w : Word) : Except DecodeError Instr :=
  match instrOfOp (opField w) (ridxField w).toNat with
  | none => .error .unknownOpcode
  | some i =>
    if rsvField w ≠ 0 then .error .reservedBitsSet
    else if i.takesRidx = false ∧ ridxField w ≠ 0 then .error .ridxNotZero
    else .ok i

/-- The 16 OP values of R102. -/
def legalOps : List Byte :=
  [0x00, 0x01, 0x02, 0x03, 0x10, 0x11, 0x12, 0x13, 0x14, 0x15, 0x16, 0x17, 0x18, 0x20, 0x21, 0x22]

/-- A legal command word, in the words of R107 and independent of the decoder's text: OP is one of the 16 values, bits
31:12 are 0, and bits 11:8 are 0 unless OP is 0x18. -/
abbrev Legal (w : Word) : Prop :=
  opField w ∈ legalOps ∧ rsvField w = 0 ∧ (opField w = 0x18#8 ∨ ridxField w = 0)

/-- The OP value of a command (R102). -/
def Instr.op : Instr → Byte
  | .nop => 0x00
  | .kexp => 0x01
  | .enc => 0x02
  | .dec => 0x03
  | .load => 0x10
  | .store => 0x11
  | .sb => 0x12
  | .isb => 0x13
  | .sr => 0x14
  | .isr => 0x15
  | .mc => 0x16
  | .imc => 0x17
  | .ark _ => 0x18
  | .gfmul => 0x20
  | .sbox => 0x21
  | .isbox => 0x22

/-- The RIDX value of a command: ARK's round index, 0 for every other command (R100). -/
def Instr.ridx : Instr → Nat
  | .ark n => n
  | .nop => 0
  | .kexp => 0
  | .enc => 0
  | .dec => 0
  | .load => 0
  | .store => 0
  | .sb => 0
  | .isb => 0
  | .sr => 0
  | .isr => 0
  | .mc => 0
  | .imc => 0
  | .gfmul => 0
  | .sbox => 0
  | .isbox => 0

/-- The encoder (R102): the command word of a command; ARK n is `0x18 | n << 8`. -/
def encode (i : Instr) : Word := i.op.setWidth 32 ||| (BitVec.ofNat 32 i.ridx <<< 8)

/-- The host's window on the decoder: a command word is one 32-bit word, bit 0 its least significant bit (R100). -/
def decodeTableWord (nbits w : Nat) : Option Instr :=
  if 0 < nbits ∧ nbits ≤ 32 ∧ w < 2 ^ nbits then
    match decode (BitVec.ofNat 32 w) with
    | .ok i => some i
    | .error _ => none
  else none

end Sys2Proof
end

