-- ==== Sys2Proof/Machine/Types.lean ====
section
/-! DEFINITION. The plain data types the state is made of: the names the spec gives to encoded fields
(opcodes, phases, error codes), the state matrix, the register names of the window, bus transactions, the
host script's statements, and the turns of the three agents. Their bit encodings are functions of
Machine/Flags.lean and Machine/Ops.lean. -/

namespace Sys2Proof.Machine

/-- The contents of the hidden latch OPC: the opcode of the accepted command (10_state.md R53, 30_encoding.md R102). -/
inductive Opcode where
  | nop | kexp | enc | dec | load | store | sb | isb | sr | isr | mc | imc | ark | gfmul | sbox | isbox
  deriving DecidableEq, Repr, Inhabited

/-- STATUS.PHASE: the operation of the engine's next step (10_state.md R37). Values 10 to 15 are never produced. -/
inductive Phase where
  /-- 0: no command in progress. -/
  | idle
  /-- 1: the next step computes RK[KIDX]. -/
  | kexp
  /-- 2: the next step applies AddRoundKey with round key ROUND. -/
  | ark
  /-- 3: SubBytes (encryption). -/
  | sb
  /-- 4: ShiftRows (encryption). -/
  | sr
  /-- 5: MixColumns (encryption). -/
  | mc
  /-- 6: InvShiftRows (decryption). -/
  | isr
  /-- 7: InvSubBytes (decryption). -/
  | isb
  /-- 8: InvMixColumns (decryption). -/
  | imc
  /-- 9: the next step executes the single-step command latched in OPC. -/
  | prim
  deriving DecidableEq, Repr

/-- STATUS.ERRCODE by name (60_exceptions.md R260). Codes 8 to 15 are reserved and never raised. -/
inductive ErrCode where
  /-- 0: no error recorded. -/
  | none
  /-- 1: KEXP with KEYLEN not 16, 24 or 32. -/
  | malformedKey
  /-- 2: ENC, DEC or LOAD with DINLEN not 16. -/
  | malformedBlock
  /-- 3: allocated and never raised (41_key_schedule.md R171). -/
  | malformedWord
  /-- 4: ENC, DEC or ARK with SCHED_VALID = 0. -/
  | noSchedule
  /-- 5: ARK with RIDX above CTX.NR. -/
  | badRoundIndex
  /-- 6: an illegal command word. -/
  | illegalCommand
  /-- 7: a command issued while BUSY = 1. -/
  | busy
  deriving DecidableEq, Repr

/-- The state matrix S (10_state.md R51): `sRC` is the byte at row R, column C. -/
@[ext] structure AesState where
  s00 : Byte
  s01 : Byte
  s02 : Byte
  s03 : Byte
  s10 : Byte
  s11 : Byte
  s12 : Byte
  s13 : Byte
  s20 : Byte
  s21 : Byte
  s22 : Byte
  s23 : Byte
  s30 : Byte
  s31 : Byte
  s32 : Byte
  s33 : Byte
  deriving DecidableEq, Repr

/-- The registers of the window (20_memory.md R76). -/
inductive RegName where
  | id
  | ctrl
  | status
  | cmd
  | keylen
  | dinlen
  | ctx
  | gfop
  | gfres
  | key (k : Fin 8)
  | din (k : Fin 4)
  | dout (k : Fin 4)
  | statew (k : Fin 4)
  | rkw (i : Fin 60)
  deriving DecidableEq, Repr

/-- What the host drives on the bus ports for one transaction (10_state.md R58); `wdata` counts for a write only. -/
structure BusReq where
  /-- bus_write: true for a write. -/
  write : Bool
  /-- bus_addr: the byte offset in the window. -/
  addr : BitVec 12
  /-- bus_size: the transaction's size in bytes; 3 wires, and only the value 4 is accepted (20_memory.md R73). -/
  size : BitVec 3
  /-- bus_wdata. -/
  wdata : Word
  deriving DecidableEq, Repr

/-- What the block drives back (bus_resp and bus_rdata, 10_state.md R58): OKAY with the data of a read,
OKAY for a write, or SLVERR, whose read data is 0 (20_memory.md R70, R71, R73). -/
inductive BusAnswer where
  | okayRead (rdata : Word)
  | okayWrite
  | slverr
  deriving DecidableEq, Repr

/-- A statement of the host script language (30_encoding.md R110). `wr OFF, VAL` and `rd OFF` are the two
`access` forms of size 4 (Machine/HostAgent.lean names them); `access` also presents the transactions that the
bus refuses. Labels are numbers here. -/
inductive HostStmt where
  /-- one bus transaction; a read's value is recorded. -/
  | access (r : BusReq)
  /-- `rd OFF == VAL`: a read whose value the script expects to be VAL. -/
  | expect (off : BitVec 12) (val : Word)
  /-- `label:` names a point in the script; it is no transaction. -/
  | label (name : Nat)
  /-- `bnz OFF, MASK, label`. -/
  | bnz (off : BitVec 12) (mask : Word) (target : Nat)
  deriving DecidableEq, Repr

/-- Which agent moves next (00_scope.md R16): the engine, the host, or the external reset input, which
takes a new level. -/
inductive Turn where
  | engine
  | host
  | reset (level : Bool)
  deriving DecidableEq, Repr

end Sys2Proof.Machine
end

