-- ==== Sys2Proof/Config.lean ====
section
/-! DEFINITION. What the spec leaves open and the model takes as arguments: free values, opaque constants with no
body, so that a proof holds whatever they are. Each takes the number of the reset that draws it: the spec says
they are chosen once per reset (93_implementation_defined.md U1, U3, U17).

The other open parameter, ENGINE_STEPS_PER_ACCESS (00_scope.md R11), is not here: it is the list of turns in
State, and so is quantified over in every statement about a state. -/

namespace Sys2Proof.Config

open Sys2Proof.Machine

/-- RK_RESET_CONTENT (00_scope.md R11, 10_state.md R52): word `i` of the round-key store after reset number `n`. -/
opaque rkResetContent (n : Nat) (i : Nat) : Word

/-- The latch OPC after reset number `n` (10_state.md R53: unspecified). -/
opaque opcResetContent (n : Nat) : Opcode

/-- The latch OPA after reset number `n` (10_state.md R53: unspecified). -/
opaque opaResetContent (n : Nat) : Byte

/-- The latch OPB after reset number `n` (10_state.md R53: unspecified). -/
opaque opbResetContent (n : Nat) : Byte

end Sys2Proof.Config
end

