-- ==== Sys2Proof/Machine/State.lean ====
section
/-! DEFINITION. The machine's state as plain data, the reasons a step can stop, and the state right after reset.
The fields are listed with their rules and reset values in INVENTORY.md under '## State'. -/

namespace Sys2Proof.Machine

/-- Why a step stops with a fault. No reachable state raises one (60_exceptions.md R267: no error arises after
accept); they stand where a state that violates 10_state.md R61 would need a value that does not exist. All are
safe: the machine stops where the hardware cannot be. -/
inductive Fault where
  /-- Raised by a KEXP engine step (41_key_schedule.md R167) whose KIDX and NK name a word outside RK[0..59], or a
  round constant outside RCON[1..10]. Safe: unreachable. -/
  | keyScheduleIndex
  /-- Raised by an AddRoundKey step (42_round_transforms.md R186) whose round key lies outside RK[0..59]. Safe:
  unreachable, since ROUND is at most 14. -/
  | roundKeyIndex
  /-- Raised by an InvMixColumns phase step (43_block_cipher.md R230) at ROUND = 0, whose decrement the spec says
  never happens. Safe: unreachable. -/
  | roundUnderflow
  /-- Raised by an engine step for which the table of 43_block_cipher.md R235 has no row: BUSY = 1 with PHASE = IDLE,
  or PHASE = PRIM with OPC = KEXP, ENC or DEC. Safe: unreachable. -/
  | noEngineRow
  deriving DecidableEq, Repr

/-- Why a step is refused. -/
inductive Refusal where
  /-- Raised by exec's arm of an instruction that has no meaning yet. Safe. No arm raises it now. -/
  | notModelled (mnemonic : String)
  /-- Raised by a `bnz` of a host script that names a label the script does not define: no statement of R110 says
  what such a script does. Safe. -/
  | unknownLabel (name : Nat)
  deriving DecidableEq, Repr

/-- The block, the host and the environment. -/
structure State where
  /-- rst_n, the reset input's level (10_state.md R58): true is 1, released. -/
  rstN : Bool
  /-- CTRL.IE (R31). -/
  ie : Bool
  /-- STATUS.BUSY (R32). -/
  busy : Bool
  /-- STATUS.DONE (R33). -/
  done : Bool
  /-- STATUS.ERR (R34). -/
  err : Bool
  /-- STATUS.SCHED_VALID (R35). -/
  schedValid : Bool
  /-- STATUS.ERRCODE (R36). -/
  errcode : ErrCode
  /-- STATUS.PHASE (R37). -/
  phase : Phase
  /-- STATUS.ROUND (R38). -/
  round : BitVec 4
  /-- STATUS.DIR (R39): true is 1, decryption. -/
  dir : Bool
  /-- STATUS.KIDX (R40). -/
  kidx : BitVec 6
  /-- KEYLEN (R42). -/
  keylen : Byte
  /-- DINLEN (R43). -/
  dinlen : Byte
  /-- CTX.NK (R44). -/
  nk : BitVec 4
  /-- CTX.NR (R44). -/
  nr : BitVec 4
  /-- GFOP.GFA (R45). -/
  gfa : Byte
  /-- GFOP.GFB (R45). -/
  gfb : Byte
  /-- GFRES, bits 7:0 (R46). -/
  gfres : Byte
  /-- KEY0..KEY7 (R48). -/
  key : Vector Word 8
  /-- DIN0..DIN3 (R49). -/
  din : Vector Word 4
  /-- DOUT0..DOUT3 (R50). -/
  dout : Vector Word 4
  /-- S, the state matrix (R51). -/
  st : AesState
  /-- RK, the round-key store (R52). -/
  rk : Vector Word 60
  /-- The hidden latch OPC (R53). -/
  opc : Opcode
  /-- The hidden latch OPA (R53). -/
  opa : Byte
  /-- The hidden latch OPB (R53). -/
  opb : Byte
  /-- bus_resp and bus_rdata as the last transaction was answered (R58); none before the first [L11]. The field keeps that answer until the next
transaction, also across engine steps: DESIGN CHOICE, since R58 gives the two outputs no value while no transaction is presented [L23]. -/
  answer : Option BusAnswer
  /-- The host's script (30_encoding.md R110). -/
  script : List HostStmt
  /-- The index of the script's next statement. -/
  scriptPos : Nat
  /-- A `rd OFF == VAL` met another value: the script has failed and the host is finished (R110). -/
  scriptFailed : Bool
  /-- The values the script's reads recorded, oldest first (R110). -/
  records : List Word
  /-- Which agents move next, first one first (00_scope.md R11, R16; 70_reset_and_hazards.md R300). -/
  turns : List Turn
  /-- The model's own counter of resets; it numbers the draws of the free values of Config. -/
  resets : Nat
  deriving DecidableEq, Repr

/-- What one transition of the machine answers. -/
abbrev Result := Host.Outcome State Fault Refusal

/-- The state right after reset number `n`, with rst_n released and nothing for the host to do
(70_reset_and_hazards.md R290, R292; the reset values of 10_state.md R30 to R53). -/
def State.atReset (n : Nat) : State where
  rstN := true
  ie := false
  busy := false
  done := false
  err := false
  schedValid := false
  errcode := .none
  phase := .idle
  round := 0
  dir := false
  kidx := 0
  keylen := 16
  dinlen := 16
  nk := 0
  nr := 0
  gfa := 0
  gfb := 0
  gfres := 0
  key := #v[0, 0, 0, 0, 0, 0, 0, 0]
  din := #v[0, 0, 0, 0]
  dout := #v[0, 0, 0, 0]
  st := ⟨0, 0, 0, 0, 0, 0, 0, 0, 0, 0, 0, 0, 0, 0, 0, 0⟩
  rk := Vector.ofFn fun i => Config.rkResetContent n i.val
  opc := Config.opcResetContent n
  opa := Config.opaResetContent n
  opb := Config.opbResetContent n
  answer := none
  script := []
  scriptPos := 0
  scriptFailed := false
  records := []
  turns := []
  resets := n

/-- The machine right after its first reset. -/
def State.reset : State := State.atReset 0

end Sys2Proof.Machine
end

