-- ==== Sys2Proof/Machine/Flags.lean ====
section
/-! DEFINITION. The status register: the encodings of its fields, the word a read returns, the write-1-to-clear
write, and the interrupt line computed from them (10_state.md section 4, 20_memory.md R80, 60_exceptions.md R270). -/

namespace Sys2Proof.Machine

/-- The value of STATUS.PHASE (10_state.md R37). -/
def Phase.code : Phase → BitVec 4
  | .idle => 0
  | .kexp => 1
  | .ark => 2
  | .sb => 3
  | .sr => 4
  | .mc => 5
  | .isr => 6
  | .isb => 7
  | .imc => 8
  | .prim => 9

/-- The value of STATUS.ERRCODE (60_exceptions.md R260). -/
def ErrCode.code : ErrCode → BitVec 4
  | .none => 0
  | .malformedKey => 1
  | .malformedBlock => 2
  | .malformedWord => 3
  | .noSchedule => 4
  | .badRoundIndex => 5
  | .illegalCommand => 6
  | .busy => 7

/-- A one-bit field placed at bit `i` of a register word. -/
def flagBit (b : Bool) (i : Nat) : Word := (BitVec.ofBool b).setWidth 32 <<< i

/-- The word a read of STATUS returns (10_state.md R41). -/
def State.statusWord (s : State) : Word :=
  flagBit s.busy 0 ||| flagBit s.done 1 ||| flagBit s.err 2 ||| flagBit s.schedValid 3
    ||| (s.errcode.code.setWidth 32 <<< 4) ||| (s.phase.code.setWidth 32 <<< 8)
    ||| (s.round.setWidth 32 <<< 12) ||| flagBit s.dir 16 ||| (s.kidx.setWidth 32 <<< 24)

/-- A host write of `v` to STATUS acts on its W1C bits only: bit 1 clears DONE, bit 2 clears ERR and ERRCODE
(20_memory.md R80). There is no other return from an error (60_exceptions.md R269). -/
def State.writeStatus (v : Word) (s : State) : State :=
  { s with
    done := if v.getLsbD 1 then false else s.done
    err := if v.getLsbD 2 then false else s.err
    errcode := if v.getLsbD 2 then .none else s.errcode }

/-- The interrupt output (60_exceptions.md R270). -/
def State.irq (s : State) : Bool := s.ie && (s.done || s.err)

end Sys2Proof.Machine
end

