-- ==== Sys2Proof/Machine/Operands.lean ====
section
/-! DEFINITION. Operand forms. Bytes in words (20_memory.md R75, 00_scope.md R13), bytes in the state matrix and
blocks (10_state.md R51, R55, R56), the operands a command copies at accept (30_encoding.md R103, R105), and the
opcode it latches. -/

namespace Sys2Proof.Machine

/-- Byte `r` of a word held as a byte sequence: byte 0 is bits 31:24 and byte 3 is bits 7:0 (R75). -/
def wordByte (w : Word) (r : Fin 4) : Byte := w.extractLsb' (24 - 8 * r.val) 8

/-- The word that holds the sequence [a0, a1, a2, a3] (R13). -/
def wordOfBytes (a0 a1 a2 a3 : Byte) : Word :=
  (a0.setWidth 32 <<< 24) ||| (a1.setWidth 32 <<< 16) ||| (a2.setWidth 32 <<< 8) ||| a3.setWidth 32

/-- S[r][c] (10_state.md R51). -/
def AesState.at (s : AesState) (r c : Fin 4) : Byte :=
  match r, c with
  | 0, 0 => s.s00
  | 0, 1 => s.s01
  | 0, 2 => s.s02
  | 0, 3 => s.s03
  | 1, 0 => s.s10
  | 1, 1 => s.s11
  | 1, 2 => s.s12
  | 1, 3 => s.s13
  | 2, 0 => s.s20
  | 2, 1 => s.s21
  | 2, 2 => s.s22
  | 2, 3 => s.s23
  | 3, 0 => s.s30
  | 3, 1 => s.s31
  | 3, 2 => s.s32
  | 3, 3 => s.s33

/-- The matrix whose byte at row r, column c is `f r c`. -/
def AesState.build (f : Fin 4 → Fin 4 → Byte) : AesState where
  s00 := f 0 0
  s01 := f 0 1
  s02 := f 0 2
  s03 := f 0 3
  s10 := f 1 0
  s11 := f 1 1
  s12 := f 1 2
  s13 := f 1 3
  s20 := f 2 0
  s21 := f 2 1
  s22 := f 2 2
  s23 := f 2 3
  s30 := f 3 0
  s31 := f 3 1
  s32 := f 3 2
  s33 := f 3 3

/-- Byte j of the block held in four register words: word k holds bytes 4k to 4k+3 (10_state.md R56). -/
def blockByte (b : Vector Word 4) (j : Fin 16) : Byte :=
  wordByte (b[j.val / 4]'(by omega)) ⟨j.val % 4, by omega⟩

/-- The state of a block: S[r][c] = block[r + 4c] (10_state.md R55). -/
def stateOfBlock (b : Vector Word 4) : AesState :=
  AesState.build fun r c => blockByte b ⟨r.val + 4 * c.val, by omega⟩

/-- STATEWc: column c of the matrix as a word (10_state.md R51). -/
def columnWord (s : AesState) (c : Fin 4) : Word := wordOfBytes (s.at 0 c) (s.at 1 c) (s.at 2 c) (s.at 3 c)

/-- The state flattened into four register words (10_state.md R55, R56). -/
def blockOfState (s : AesState) : Vector Word 4 :=
  #v[columnWord s 0, columnWord s 1, columnWord s 2, columnWord s 3]

/-- KEYLEN holds a key length: 16, 24 or 32 bytes (41_key_schedule.md R160, R165). -/
def keylenOk (keylen : Byte) : Bool := keylen == 16 || keylen == 24 || keylen == 32

/-- DINLEN declares a whole block, 4·Nb = 16 bytes (60_exceptions.md R261). -/
def dinlenOk (dinlen : Byte) : Bool := dinlen == 16

/-- The key length in words, KEYLEN / 4 (41_key_schedule.md R160). -/
def nkOfKeylen (keylen : Byte) : Nat := keylen.toNat / 4

/-- The round count of a key of `nk` words, Nk + 6 (41_key_schedule.md R160). -/
def nrOfNk (nk : Nat) : Nat := nk + 6

/-- The number of words of the schedule of `nr` rounds, 4·(Nr + 1) (00_scope.md R9). -/
def scheduleWords (nr : Nat) : Nat := 4 * (nr + 1)

/-- The opcode that accept latches into OPC (30_encoding.md R105). -/
def Opcode.ofInstr : Instr → Opcode
  | .nop => .nop
  | .kexp => .kexp
  | .enc => .enc
  | .dec => .dec
  | .load => .load
  | .store => .store
  | .sb => .sb
  | .isb => .isb
  | .sr => .sr
  | .isr => .isr
  | .mc => .mc
  | .imc => .imc
  | .ark _ => .ark
  | .gfmul => .gfmul
  | .sbox => .sbox
  | .isbox => .isbox

end Sys2Proof.Machine
end

