-- ==== Sys2Proof/Machine/Ops.lean ====
section
/-! DEFINITION. The named operations over registers and the round-key store, and the command lifecycle that every
command shares: rejection (`raise CmdError`, the block's one form of taking an exception, 60_exceptions.md R264),
the return from it (the W1C write, State.writeStatus of Machine/Flags.lean, R269), issue (30_encoding.md R104),
accept (R105) and complete (R106). There is no memory but the register window (00_scope.md R14). -/

namespace Sys2Proof.Machine

/-- The identification constant of register ID (10_state.md R30). -/
def idValue : Word := 0x41455301

/-- CTX.NB, hardwired (10_state.md R44). -/
def nbValue : Word := 4

/-- The register at an offset of the window (20_memory.md R76); none for every offset that the map does not list,
reserved or misaligned. -/
def regAt (a : BitVec 12) : Option RegName :=
  let n := a.toNat
  if n % 4 ≠ 0 then none
  else if n = 0x000 then some .id
  else if n = 0x004 then some .ctrl
  else if n = 0x008 then some .status
  else if n = 0x00C then some .cmd
  else if n = 0x010 then some .keylen
  else if n = 0x014 then some .dinlen
  else if n = 0x018 then some .ctx
  else if n = 0x01C then some .gfop
  else if n = 0x020 then some .gfres
  else if h : 0x040 ≤ n ∧ n < 0x060 then some (.key ⟨(n - 0x040) / 4, by omega⟩)
  else if h : 0x060 ≤ n ∧ n < 0x070 then some (.din ⟨(n - 0x060) / 4, by omega⟩)
  else if h : 0x070 ≤ n ∧ n < 0x080 then some (.dout ⟨(n - 0x070) / 4, by omega⟩)
  else if h : 0x080 ≤ n ∧ n < 0x090 then some (.statew ⟨(n - 0x080) / 4, by omega⟩)
  else if h : 0x100 ≤ n ∧ n < 0x1F0 then some (.rkw ⟨(n - 0x100) / 4, by omega⟩)
  else none

/-- The offset of a register (20_memory.md R76). -/
def RegName.offset : RegName → BitVec 12
  | .id => 0x000
  | .ctrl => 0x004
  | .status => 0x008
  | .cmd => 0x00C
  | .keylen => 0x010
  | .dinlen => 0x014
  | .ctx => 0x018
  | .gfop => 0x01C
  | .gfres => 0x020
  | .key k => BitVec.ofNat 12 (0x040 + 4 * k.val)
  | .din k => BitVec.ofNat 12 (0x060 + 4 * k.val)
  | .dout k => BitVec.ofNat 12 (0x070 + 4 * k.val)
  | .statew k => BitVec.ofNat 12 (0x080 + 4 * k.val)
  | .rkw i => BitVec.ofNat 12 (0x100 + 4 * i.val)

/-- The 32-bit value of a register as a read sees it, reserved bits 0 (10_state.md R30 to R52, 20_memory.md R78, R79). -/
def regValue (s : State) : RegName → Word
  | .id => idValue
  | .ctrl => flagBit s.ie 0
  | .status => s.statusWord
  | .cmd => 0
  | .keylen => s.keylen.setWidth 32
  | .dinlen => s.dinlen.setWidth 32
  | .ctx => s.nk.setWidth 32 ||| (nbValue <<< 4) ||| (s.nr.setWidth 32 <<< 8)
  | .gfop => s.gfa.setWidth 32 ||| (s.gfb.setWidth 32 <<< 8)
  | .gfres => s.gfres.setWidth 32
  | .key k => s.key[k]
  | .din k => s.din[k]
  | .dout k => s.dout[k]
  | .statew k => columnWord s.st k
  | .rkw i => s.rk[i]

/-- The effect of a host write of `v` on a register other than CMD: the read-write registers store their fields, STATUS
is W1C, and a read-only register ignores the write (20_memory.md R71, R79, R80). -/
def writeReg (r : RegName) (v : Word) (s : State) : State :=
  match r with
  | .ctrl => { s with ie := v.getLsbD 0 }
  | .status => s.writeStatus v
  | .keylen => { s with keylen := v.extractLsb' 0 8 }
  | .dinlen => { s with dinlen := v.extractLsb' 0 8 }
  | .gfop => { s with gfa := v.extractLsb' 0 8, gfb := v.extractLsb' 8 8 }
  | .key k => { s with key := s.key.set k v }
  | .din k => { s with din := s.din.set k v }
  | .id => s
  | .cmd => s
  | .ctx => s
  | .gfres => s
  | .dout _ => s
  | .statew _ => s
  | .rkw _ => s

/-- RK[i], where the store has that word (10_state.md R52: words 0 to 59). -/
def rkWord? (rk : Vector Word 60) (i : Nat) : Option Word := rk[i]?

/-- RK[i - d], where that is a word of the store (41_key_schedule.md R167 reads RK[i-1] and RK[i-nk]). -/
def rkBack? (rk : Vector Word 60) (i d : Nat) : Option Word :=
  if 0 < d ∧ d ≤ i then rkWord? rk (i - d) else none

/-- Round key n, the words RK[4n] to RK[4n+3], where the store has them (10_state.md R52, 41_key_schedule.md R169). -/
def roundKey? (rk : Vector Word 60) (n : Nat) : Option (Vector Word 4) :=
  if h : 4 * n + 3 < 60 then
    some #v[rk[4 * n], rk[4 * n + 1], rk[4 * n + 2], rk[4 * n + 3]]
  else none

/-- `raise CmdError(code)` (60_exceptions.md R264): the error is recorded and nothing else changes. A later
rejection overwrites the code (R269). -/
def State.cmdError (code : ErrCode) (s : State) : State := { s with err := true, errcode := code }

/-- The part of accept that every command shares (30_encoding.md R105), with the PHASE it writes. -/
def State.accept (op : Opcode) (ph : Phase) (s : State) : State :=
  { s with done := false, busy := true, opc := op, phase := ph }

/-- `complete()` (30_encoding.md R106). OPC, OPA and OPB keep what the command's accept latched: DESIGN CHOICE, since
93_implementation_defined.md U3 leaves them any value between commands [L22]. -/
def State.complete (s : State) : State := { s with busy := false, done := true, phase := .idle }

/-- The check of the command: the first code whose condition holds, in the order written (30_encoding.md R104,
60_exceptions.md R266). -/
def firstError : List (Bool × ErrCode) → Option ErrCode
  | [] => none
  | (fails, code) :: rest => if fails then some code else firstError rest

/-- Issue of a legal command (30_encoding.md R104): BUSY comes first, then the command's own checks in their order;
the first that fails is raised, and if none fails the command is accepted. -/
def issueChecked (checks : List (Bool × ErrCode)) (acceptance : State → State) (s : State) : Result :=
  match firstError ((s.busy, .busy) :: checks) with
  | some code => .next (s.cmdError code)
  | none => .next (acceptance s)

end Sys2Proof.Machine
end

