-- ==== Sys2Proof/Machine/KeySchedule.lean ====
section
/-! DEFINITION. The key schedule expander (41_key_schedule.md): the word functions, the round constants, the expansion
as a pure function, and KEXP, whose accept latches the key and the Context and whose every engine step computes one
round-key word. -/

namespace Sys2Proof.Machine

/-- RotWord: the first byte moves to the end (R161). -/
def rotWord (w : Word) : Word := wordOfBytes (wordByte w 1) (wordByte w 2) (wordByte w 3) (wordByte w 0)

/-- SubWord: the S-box on each of the four bytes (R163). -/
def subWord (w : Word) : Word :=
  wordOfBytes (sbox (wordByte w 0)) (sbox (wordByte w 1)) (sbox (wordByte w 2)) (sbox (wordByte w 3))

/-- RCON[j], which exists for j = 1 to 10 (R162). The values are the spec's general knowledge [L15]. -/
def rcon? : Nat → Option Byte
  | 1 => some 0x01
  | 2 => some 0x02
  | 3 => some 0x04
  | 4 => some 0x08
  | 5 => some 0x10
  | 6 => some 0x20
  | 7 => some 0x40
  | 8 => some 0x80
  | 9 => some 0x1B
  | 10 => some 0x36
  | _ => none

/-- `temp` of the loop body for word i, from word i - 1 (R164): none where RCON has no entry. -/
def scheduleTemp? (nk i : Nat) (prev : Word) : Option Word :=
  if i % nk = 0 then
    match rcon? (i / nk) with
    | some c => some (subWord (rotWord prev) ^^^ wordOfBytes c 0 0 0)
    | none => none
  else if nk > 6 ∧ i % nk = 4 then some (subWord prev)
  else some prev

/-- The loop body of R164 for the word after the list `w`. -/
def nextScheduleWord? (nk : Nat) (w : List Word) : Option Word :=
  match w[w.length - 1]?, w[w.length - nk]? with
  | some prev, some back =>
    match scheduleTemp? nk w.length prev with
    | some temp => some (back ^^^ temp)
    | none => none
  | _, _ => none

/-- `n` more words of the schedule after the list `w` (R164). -/
def expandWords? (nk : Nat) : Nat → List Word → Option (List Word)
  | 0, w => some w
  | n + 1, w =>
    match nextScheduleWord? nk w with
    | some x => expandWords? nk n (w ++ [x])
    | none => none

/-- The words a byte sequence holds, four bytes each, first byte first (R164, 20_memory.md R75). -/
def wordsOfBytes : List Byte → List Word
  | a0 :: a1 :: a2 :: a3 :: rest => wordOfBytes a0 a1 a2 a3 :: wordsOfBytes rest
  | _ => []

/-- The bytes of a list of words, first byte first (20_memory.md R75). -/
def bytesOfWords : List Word → List Byte
  | [] => []
  | w :: rest => wordByte w 0 :: wordByte w 1 :: wordByte w 2 :: wordByte w 3 :: bytesOfWords rest

/-- `KeyExpansion(key)` (R164): the schedule of a key of 16, 24 or 32 bytes. -/
def keyExpansion? (key : List Byte) : Option (List Word) :=
  if key.length = 16 ∨ key.length = 24 ∨ key.length = 32 then
    let nk := key.length / 4
    expandWords? nk (scheduleWords (nrOfNk nk) - nk) (wordsOfBytes key)
  else none

/-- The store after KEXP's accept: words 0 to nk - 1 are KEY0 to KEY(nk-1), the others as before (R166). -/
def loadKeyWords (nk : Nat) (key : Vector Word 8) (rk : Vector Word 60) : Vector Word 60 :=
  Vector.ofFn fun i : Fin 60 => if h : i.val < nk ∧ i.val < 8 then key[i.val]'h.2 else rk[i]

/-- What KEXP's accept does beside the common part (R166). -/
def acceptKexp (s : State) : State :=
  let nk := nkOfKeylen s.keylen
  State.accept .kexp .kexp
    { s with
      schedValid := false
      nk := BitVec.ofNat 4 nk
      nr := BitVec.ofNat 4 (nrOfNk nk)
      rk := loadKeyWords nk s.key s.rk
      kidx := BitVec.ofNat 6 nk }

/-- KEXP, the CMD write (R165, R166): MALFORMED_KEY unless KEYLEN is 16, 24 or 32. -/
def execKexp (s : State) : Result := issueChecked [(!keylenOk s.keylen, .malformedKey)] acceptKexp s

/-- KEXP, the engine step (R167): one round-key word; the last one validates the schedule and completes. -/
def engineKexp (s : State) : Result :=
  let i := s.kidx.toNat
  let nk := s.nk.toNat
  match rkBack? s.rk i 1, rkBack? s.rk i nk with
  | some prev, some back =>
    match scheduleTemp? nk i prev with
    | some temp =>
      if h : i < 60 then
        let s1 := { s with rk := s.rk.set i (back ^^^ temp), kidx := BitVec.ofNat 6 (i + 1) }
        if i + 1 = scheduleWords s.nr.toNat then .next (State.complete { s1 with schedValid := true })
        else .next s1
      else .fault .keyScheduleIndex
    | none => .fault .keyScheduleIndex
  | _, _ => .fault .keyScheduleIndex

end Sys2Proof.Machine
end

