-- ==== Sys2Proof/Machine/Transforms.lean ====
section
/-! DEFINITION. The round transforms as pure functions on the state matrix (42_round_transforms.md section 1), and the
ten single-step commands NOP, LOAD, STORE, SB, ISB, SR, ISR, MC, IMC and ARK (section 2): each has its CMD write
(exec…) and its one engine step (engine…). -/

namespace Sys2Proof.Machine

/-- SubBytes (R180). -/
def subBytes (s : AesState) : AesState := AesState.build fun r c => sbox (s.at r c)

/-- InvSubBytes (R181). -/
def invSubBytes (s : AesState) : AesState := AesState.build fun r c => invSbox (s.at r c)

/-- ShiftRows: S'[r][c] = S[r][(c + r) mod 4] (R182); addition in Fin 4 is modulo 4. -/
def shiftRows (s : AesState) : AesState := AesState.build fun r c => s.at r (c + r)

/-- InvShiftRows: S'[r][c] = S[r][(c + 4 - r) mod 4] (R183). -/
def invShiftRows (s : AesState) : AesState := AesState.build fun r c => s.at r (c - r)

/-- One column through the MixColumns matrix, output row r (R184). The placement of the coefficients is the spec's general
knowledge [L15]. -/
def mixRow (r : Fin 4) (s0 s1 s2 s3 : Byte) : Byte :=
  match r with
  | 0 => gfmul 0x02 s0 ^^^ gfmul 0x03 s1 ^^^ s2 ^^^ s3
  | 1 => s0 ^^^ gfmul 0x02 s1 ^^^ gfmul 0x03 s2 ^^^ s3
  | 2 => s0 ^^^ s1 ^^^ gfmul 0x02 s2 ^^^ gfmul 0x03 s3
  | 3 => gfmul 0x03 s0 ^^^ s1 ^^^ s2 ^^^ gfmul 0x02 s3

/-- One column through the InvMixColumns matrix, output row r (R185). -/
def invMixRow (r : Fin 4) (s0 s1 s2 s3 : Byte) : Byte :=
  match r with
  | 0 => gfmul 0x0E s0 ^^^ gfmul 0x0B s1 ^^^ gfmul 0x0D s2 ^^^ gfmul 0x09 s3
  | 1 => gfmul 0x09 s0 ^^^ gfmul 0x0E s1 ^^^ gfmul 0x0B s2 ^^^ gfmul 0x0D s3
  | 2 => gfmul 0x0D s0 ^^^ gfmul 0x09 s1 ^^^ gfmul 0x0E s2 ^^^ gfmul 0x0B s3
  | 3 => gfmul 0x0B s0 ^^^ gfmul 0x0D s1 ^^^ gfmul 0x09 s2 ^^^ gfmul 0x0E s3

/-- MixColumns (R184). -/
def mixColumns (s : AesState) : AesState :=
  AesState.build fun r c => mixRow r (s.at 0 c) (s.at 1 c) (s.at 2 c) (s.at 3 c)

/-- InvMixColumns (R185). -/
def invMixColumns (s : AesState) : AesState :=
  AesState.build fun r c => invMixRow r (s.at 0 c) (s.at 1 c) (s.at 2 c) (s.at 3 c)

/-- AddRoundKey with the round key whose four words are `k`: byte r of word c goes to row r, column c (R186). -/
def addRoundKey (s : AesState) (k : Vector Word 4) : AesState :=
  AesState.build fun r c => s.at r c ^^^ wordByte k[c] r

/-- A state whose matrix is replaced. -/
def State.withMatrix (m : AesState) (s : State) : State := { s with st := m }

/-- NOP, the CMD write (R190): no check but BUSY. -/
def execNop (s : State) : Result := issueChecked [] (State.accept .nop .prim) s

/-- NOP, the engine step (R190). -/
def engineNop (s : State) : Result := .next s.complete

/-- LOAD's accept: S becomes the state of the block in DIN (R191). -/
def acceptLoad (s : State) : State := State.accept .load .prim (s.withMatrix (stateOfBlock s.din))

/-- LOAD, the CMD write (R191): MALFORMED_BLOCK unless DINLEN is 16. -/
def execLoad (s : State) : Result := issueChecked [(!dinlenOk s.dinlen, .malformedBlock)] acceptLoad s

/-- LOAD, the engine step (R191). -/
def engineLoad (s : State) : Result := .next s.complete

/-- STORE, the CMD write (R192): no check but BUSY. -/
def execStore (s : State) : Result := issueChecked [] (State.accept .store .prim) s

/-- STORE, the engine step (R192): all four DOUT words in one step. -/
def engineStore (s : State) : Result := .next (State.complete { s with dout := blockOfState s.st })

/-- SB, the CMD write (R193): no check but BUSY. -/
def execSb (s : State) : Result := issueChecked [] (State.accept .sb .prim) s

/-- SB, the engine step (R193). -/
def engineSb (s : State) : Result := .next (s.withMatrix (subBytes s.st)).complete

/-- ISB, the CMD write (R194): no check but BUSY. -/
def execIsb (s : State) : Result := issueChecked [] (State.accept .isb .prim) s

/-- ISB, the engine step (R194). -/
def engineIsb (s : State) : Result := .next (s.withMatrix (invSubBytes s.st)).complete

/-- SR, the CMD write (R195): no check but BUSY. -/
def execSr (s : State) : Result := issueChecked [] (State.accept .sr .prim) s

/-- SR, the engine step (R195). -/
def engineSr (s : State) : Result := .next (s.withMatrix (shiftRows s.st)).complete

/-- ISR, the CMD write (R196): no check but BUSY. -/
def execIsr (s : State) : Result := issueChecked [] (State.accept .isr .prim) s

/-- ISR, the engine step (R196). -/
def engineIsr (s : State) : Result := .next (s.withMatrix (invShiftRows s.st)).complete

/-- MC, the CMD write (R197): no check but BUSY. -/
def execMc (s : State) : Result := issueChecked [] (State.accept .mc .prim) s

/-- MC, the engine step (R197). -/
def engineMc (s : State) : Result := .next (s.withMatrix (mixColumns s.st)).complete

/-- IMC, the CMD write (R198): no check but BUSY. -/
def execImc (s : State) : Result := issueChecked [] (State.accept .imc .prim) s

/-- IMC, the engine step (R198). -/
def engineImc (s : State) : Result := .next (s.withMatrix (invMixColumns s.st)).complete

/-- ARK's accept: ROUND becomes the command's RIDX (R199). -/
def acceptArk (ridx : Nat) (s : State) : State :=
  State.accept .ark .prim { s with round := BitVec.ofNat 4 ridx }

/-- ARK n, the CMD write (R199): NO_SCHEDULE without a schedule, then BAD_ROUND_INDEX if n is above CTX.NR. -/
def execArk (ridx : Nat) (s : State) : Result :=
  issueChecked [(!s.schedValid, .noSchedule), (decide (ridx > s.nr.toNat), .badRoundIndex)] (acceptArk ridx) s

/-- ARK n, the engine step (R199): AddRoundKey with round key ROUND. -/
def engineArk (s : State) : Result :=
  match roundKey? s.rk s.round.toNat with
  | some k => .next (s.withMatrix (addRoundKey s.st k)).complete
  | none => .fault .roundKeyIndex

end Sys2Proof.Machine
end

