-- ==== Sys2Proof/Machine/Cipher.lean ====
section
/-! DEFINITION. The block orchestrator and the round-control state machine (43_block_cipher.md): Cipher and InvCipher as
pure functions (R222, R223), the CMD writes of ENC and DEC (R220, R221), and the engine steps of the seven cipher
phases (R224 to R230). -/

namespace Sys2Proof.Machine

/-- Full rounds 1 to `n` of encryption, under the round keys `w` (R222). -/
def cipherRounds (w : Nat → Vector Word 4) : Nat → AesState → AesState
  | 0, s => s
  | r + 1, s => addRoundKey (mixColumns (shiftRows (subBytes (cipherRounds w r s)))) (w (r + 1))

/-- `Cipher(block, w, Nr)` (R222): full rounds 1 to Nr - 1, and a final round without MixColumns
(90_conflicts.md C1). `w r` is round key r. -/
def cipher (block : Vector Word 4) (w : Nat → Vector Word 4) (nr : Nat) : Vector Word 4 :=
  let s := cipherRounds w (nr - 1) (addRoundKey (stateOfBlock block) (w 0))
  blockOfState (addRoundKey (shiftRows (subBytes s)) (w nr))

/-- Rounds `n` down to 1 of decryption (R223). -/
def invCipherRounds (w : Nat → Vector Word 4) : Nat → AesState → AesState
  | 0, s => s
  | r + 1, s => invCipherRounds w r (invMixColumns (addRoundKey (invSubBytes (invShiftRows s)) (w (r + 1))))

/-- `InvCipher(block, w, Nr)` (R223). -/
def invCipher (block : Vector Word 4) (w : Nat → Vector Word 4) (nr : Nat) : Vector Word 4 :=
  let s := invCipherRounds w (nr - 1) (addRoundKey (stateOfBlock block) (w nr))
  blockOfState (addRoundKey (invSubBytes (invShiftRows s)) (w 0))

/-- ENC's accept (R220). -/
def acceptEnc (s : State) : State :=
  State.accept .enc .ark { s with st := stateOfBlock s.din, round := 0, dir := false }

/-- DEC's accept (R221). -/
def acceptDec (s : State) : State :=
  State.accept .dec .ark { s with st := stateOfBlock s.din, round := s.nr, dir := true }

/-- ENC, the CMD write (R220): NO_SCHEDULE, then MALFORMED_BLOCK. -/
def execEnc (s : State) : Result :=
  issueChecked [(!s.schedValid, .noSchedule), (!dinlenOk s.dinlen, .malformedBlock)] acceptEnc s

/-- DEC, the CMD write (R221): the same checks as ENC. -/
def execDec (s : State) : Result :=
  issueChecked [(!s.schedValid, .noSchedule), (!dinlenOk s.dinlen, .malformedBlock)] acceptDec s

/-- The last step of ENC or DEC: DOUT becomes the matrix, column by column, and the command completes (R224). -/
def State.finishCipher (s : State) : State := State.complete { s with dout := blockOfState s.st }

/-- How phase ARK goes on, after the round key is added (R224). -/
def State.afterArk (s : State) : State :=
  if s.dir = false then
    if s.round = s.nr then s.finishCipher
    else { s with round := s.round + 1, phase := .sb }
  else
    if s.round = 0 then s.finishCipher
    else if s.round = s.nr then { s with round := s.nr - 1, phase := .isr }
    else { s with phase := .imc }

/-- Phase ARK (R224). -/
def phaseArk (s : State) : Result :=
  match roundKey? s.rk s.round.toNat with
  | some k => .next (s.withMatrix (addRoundKey s.st k)).afterArk
  | none => .fault .roundKeyIndex

/-- Phase SB (R225). -/
def phaseSb (s : State) : Result := .next { s with st := subBytes s.st, phase := .sr }

/-- Phase SR (R226): the final round goes straight to ARK. -/
def phaseSr (s : State) : Result :=
  .next { s with st := shiftRows s.st, phase := if s.round = s.nr then .ark else .mc }

/-- Phase MC (R227). -/
def phaseMc (s : State) : Result := .next { s with st := mixColumns s.st, phase := .ark }

/-- Phase ISR (R228). -/
def phaseIsr (s : State) : Result := .next { s with st := invShiftRows s.st, phase := .isb }

/-- Phase ISB (R229). -/
def phaseIsb (s : State) : Result := .next { s with st := invSubBytes s.st, phase := .ark }

/-- Phase IMC (R230); ROUND is at least 1 here. -/
def phaseImc (s : State) : Result :=
  if s.round = 0 then .fault .roundUnderflow
  else .next { s with st := invMixColumns s.st, round := s.round - 1, phase := .isr }

end Sys2Proof.Machine
end

