-- ==== Sys2Proof/Machine/Engine.lean ====
section
/-! DEFINITION. The engine: which rule one engine step performs (43_block_cipher.md R235), and runs of several engine
steps. -/

namespace Sys2Proof.Machine

/-- Phase PRIM: the single-step command latched in OPC (R235). -/
def primStep (s : State) : Result :=
  match s.opc with
  | .nop => engineNop s
  | .load => engineLoad s
  | .store => engineStore s
  | .sb => engineSb s
  | .isb => engineIsb s
  | .sr => engineSr s
  | .isr => engineIsr s
  | .mc => engineMc s
  | .imc => engineImc s
  | .ark => engineArk s
  | .gfmul => engineGfmul s
  | .sbox => engineSbox s
  | .isbox => engineIsbox s
  | .kexp => .fault .noEngineRow
  | .enc => .fault .noEngineRow
  | .dec => .fault .noEngineRow

/-- The rule that PHASE selects (R235). -/
def phaseStep (s : State) : Result :=
  match s.phase with
  | .idle => .fault .noEngineRow
  | .kexp => engineKexp s
  | .ark => phaseArk s
  | .sb => phaseSb s
  | .sr => phaseSr s
  | .mc => phaseMc s
  | .isr => phaseIsr s
  | .isb => phaseIsb s
  | .imc => phaseImc s
  | .prim => primStep s

/-- One turn of the engine: while BUSY = 1 it performs one engine step; while BUSY = 0 it has no step and nothing changes
(R235, 00_scope.md R16). -/
def engineStep (s : State) : Result := if s.busy then phaseStep s else .next s

/-- `n` turns of the engine with nothing in between, stopping at the first fault or refusal. -/
def engineRun : Nat → State → Result
  | 0, s => .next s
  | n + 1, s =>
    match engineStep s with
    | .next t => engineRun n t
    | .fault f => .fault f
    | .refused r => .refused r

end Sys2Proof.Machine
end

