-- ==== Sys2Proof/Machine/Dispatch.lean ====
section
/-! DEFINITION. The meaning of each command: what the write of its word to CMD does, in one transition
(30_encoding.md R104: the checks, then accept or rejection). The engine steps that carry an accepted command out are
transitions of their own (Machine/Engine.lean), as 00_scope.md R15 says. -/

namespace Sys2Proof.Machine

def exec (i : Instr) (s : State) : Host.Outcome State Fault Refusal :=
  match i with
  | .nop => Sys2Proof.Machine.execNop s
  | .kexp => Sys2Proof.Machine.execKexp s
  | .enc => Sys2Proof.Machine.execEnc s
  | .dec => Sys2Proof.Machine.execDec s
  | .load => Sys2Proof.Machine.execLoad s
  | .store => Sys2Proof.Machine.execStore s
  | .sb => Sys2Proof.Machine.execSb s
  | .isb => Sys2Proof.Machine.execIsb s
  | .sr => Sys2Proof.Machine.execSr s
  | .isr => Sys2Proof.Machine.execIsr s
  | .mc => Sys2Proof.Machine.execMc s
  | .imc => Sys2Proof.Machine.execImc s
  | .ark ridx => Sys2Proof.Machine.execArk ridx s
  | .gfmul => Sys2Proof.Machine.execGfmul s
  | .sbox => Sys2Proof.Machine.execSbox s
  | .isbox => Sys2Proof.Machine.execIsbox s

end Sys2Proof.Machine
end

