-- ==== Sys2Proof/Machine/Bus.lean ====
section
/-! DEFINITION. The host bus (20_memory.md): reads, writes, the CMD write that issues a command, and what the bus answers,
also while reset is held (70_reset_and_hazards.md R290). -/

namespace Sys2Proof.Machine

/-- Issue of the word `v` (30_encoding.md R104): BUSY is checked first, then legality, then the command's own checks,
which are exec's. -/
def issue (v : Word) (s : State) : Result :=
  if s.busy then .next (s.cmdError .busy)
  else
    match decode v with
    | .error _ => .next (s.cmdError .illegalCommand)
    | .ok i => exec i s

/-- The bus accepts a transaction of 4 bytes at a multiple of 4, and no other (R73). -/
def busAccepts (addr : BitVec 12) (size : BitVec 3) : Bool := size == 4 && addr.toNat % 4 == 0

/-- What a bus read answers (R70): the register's value, 0 for a reserved offset (R77), or SLVERR (R73). A read changes
no state (R82). -/
def busRead (s : State) (addr : BitVec 12) (size : BitVec 3) : BusAnswer :=
  if busAccepts addr size then
    match regAt addr with
    | some r => .okayRead (regValue s r)
    | none => .okayRead 0
  else .slverr

/-- The read data on bus_rdata: 0 with SLVERR (R73); an answer to a write carries none. -/
def BusAnswer.rdata : BusAnswer → Option Word
  | .okayRead v => some v
  | .okayWrite => none
  | .slverr => some 0

/-- bus_resp: 1 is SLVERR (10_state.md R58). -/
def BusAnswer.resp : BusAnswer → BitVec 1
  | .okayRead _ => 0
  | .okayWrite => 0
  | .slverr => 1

/-- The effect of an accepted bus write (R71): CMD issues a command (R81), any other register takes its write, a reserved
offset ignores it (R77). -/
def writeAt (addr : BitVec 12) (v : Word) (s : State) : Result :=
  match regAt addr with
  | some .cmd => issue v s
  | some r => .next (writeReg r v s)
  | none => .next s

/-- One bus write (R71, R73), with its answer. While reset is held an accepted write is answered OKAY and ignored (R290). -/
def busWrite (addr : BitVec 12) (size : BitVec 3) (v : Word) (s : State) : Result :=
  if busAccepts addr size then
    if s.rstN then writeAt addr v { s with answer := some .okayWrite }
    else .next { s with answer := some .okayWrite }
  else .next { s with answer := some .slverr }

end Sys2Proof.Machine
end

