-- ==== Sys2Proof/Machine/HostAgent.lean ====
section
/-! DEFINITION. The host agent and the reset input. The host runs a script of 30_encoding.md R110, one bus transaction a
turn; R111's pseudo-statements are functions that give their expansions. Reset is one transition (70_reset_and_hazards.md
R290). -/

namespace Sys2Proof.Machine

/-- `wr OFF, VAL` (R110). -/
def HostStmt.wr (off : BitVec 12) (val : Word) : HostStmt := .access ⟨true, off, 4, val⟩

/-- `rd OFF` (R110). -/
def HostStmt.rd (off : BitVec 12) : HostStmt := .access ⟨false, off, 4, 0⟩

/-- The next statement that is not a label, and its index: labels are points of the script, not transactions (R110). -/
def nextStmt : List HostStmt → Nat → Option (HostStmt × Nat)
  | [], _ => none
  | .label _ :: rest, p => nextStmt rest (p + 1)
  | .access r :: _, p => some (.access r, p)
  | .expect off val :: _, p => some (.expect off val, p)
  | .bnz off mask l :: _, p => some (.bnz off mask l, p)

/-- The index after the statement `label:` of a script, where there is one; the first, counted from the script's start, where the script
defines the label twice. DESIGN CHOICE: R110 does not say which definition a `bnz` goes to then [L20]. -/
def labelIndex (l : Nat) : List HostStmt → Nat → Option Nat
  | [], _ => none
  | .label k :: rest, p => if k = l then some (p + 1) else labelIndex l rest (p + 1)
  | .access _ :: rest, p => labelIndex l rest (p + 1)
  | .expect _ _ :: rest, p => labelIndex l rest (p + 1)
  | .bnz _ _ _ :: rest, p => labelIndex l rest (p + 1)

/-- Every label that a `bnz` of the script names is defined in it. -/
def labelsDefined (script : List HostStmt) : Bool :=
  script.all fun st =>
    match st with
    | .bnz _ _ l => (labelIndex l script 0).isSome
    | .access _ => true
    | .expect _ _ => true
    | .label _ => true

/-- The statement the host executes at its next turn. A script that has failed or ended has none. -/
def State.fetchStmt (s : State) : Option (HostStmt × Nat) :=
  if s.scriptFailed then none else nextStmt (s.script.drop s.scriptPos) s.scriptPos

/-- One read by the script: the bus answers, and the value it read is returned beside the state (R110; 0 with SLVERR, R73). -/
def State.hostRead (s : State) (addr : BitVec 12) (size : BitVec 3) : Word × State :=
  let a := busRead s addr size
  (a.rdata.getD 0, { s with answer := some a })

/-- One bus transaction of the script; the value of a read is recorded (R110). -/
def busAccess (r : BusReq) (s : State) : Result :=
  if r.write then busWrite r.addr r.size r.wdata s
  else
    let (v, s1) := s.hostRead r.addr r.size
    .next { s1 with records := s1.records ++ [v] }

/-- One host statement (R110), with the script already moved past it. -/
def hostStmt (st : HostStmt) (s : State) : Result :=
  match st with
  | .access r => busAccess r s
  | .expect off val =>
    let (v, s1) := s.hostRead off 4
    .next { s1 with records := s1.records ++ [v], scriptFailed := decide (v ≠ val) }
  | .label _ => .next s
  | .bnz off mask l =>
    let (v, s1) := s.hostRead off 4
    if v &&& mask ≠ 0 then
      match labelIndex l s.script 0 with
      | some q => .next { s1 with scriptPos := q }
      | none => .refused (.unknownLabel l)
    else .next s1

/-- One turn of the host: the script's next statement, or nothing when the script has ended or failed
(70_reset_and_hazards.md R302). -/
def hostStep (s : State) : Result :=
  match s.fetchStmt with
  | some (st, p) => hostStmt st { s with scriptPos := p + 1 }
  | none => .next s

/-- The reset input falls to 0: the block takes its reset values and a new draw of RK_RESET_CONTENT (R290, R291,
93_implementation_defined.md U17); the host and the list of turns are outside the block [L14]. What bus_resp and bus_rdata hold once
rst_n falls has no value in the spec: they keep the last transaction's answer (DESIGN CHOICE) [L21]. -/
def State.assertReset (s : State) : State :=
  { State.atReset (s.resets + 1) with
    rstN := false
    answer := s.answer
    script := s.script
    scriptPos := s.scriptPos
    scriptFailed := s.scriptFailed
    records := s.records
    turns := s.turns }

/-- The reset input takes a level (R290): falling is the reset event, rising releases the block, and a level it already
has is no event. -/
def State.driveReset (level : Bool) (s : State) : State :=
  if level then { s with rstN := true }
  else if s.rstN then s.assertReset
  else s

/-- One turn of the agent that the environment chose. -/
def agentStep (t : Turn) (s : State) : Result :=
  match t with
  | .engine => engineStep s
  | .host => hostStep s
  | .reset level => .next (s.driveReset level)

/-- Who moves when the list of turns is empty: the engine while it has a step, else the host. So no run starves the engine
(70_reset_and_hazards.md R300) [L2]. -/
def State.defaultTurn (s : State) : Turn := if s.busy then .engine else .host

/-- The turns in which `n` engine steps precede each host transaction: one value of ENGINE_STEPS_PER_ACCESS for each access
(00_scope.md R11). -/
def turnsOfSteps : List Nat → List Turn
  | [] => []
  | n :: rest => List.replicate n .engine ++ (.host :: turnsOfSteps rest)

/-- `wr` of each word of a list to the registers `reg k`, `reg (k + 1)`, … (R111, setkey and setblk). -/
def wrWords (reg : Nat → BitVec 12) : Nat → List Word → List HostStmt
  | _, [] => []
  | k, w :: rest => .wr (reg k) w :: wrWords reg (k + 1) rest

/-- `cmd M` and `cmd ARK n` (R111). -/
def scriptCmd (i : Instr) : List HostStmt := [.wr RegName.cmd.offset (encode i)]

/-- `wait`, with a label of its own (R111). -/
def scriptWait (l : Nat) : List HostStmt := [.label l, .bnz RegName.status.offset 0x1 l]

/-- `clear` (R111). -/
def scriptClear : List HostStmt := [.wr RegName.status.offset 0x6]

/-- `setkey HEX` (R111). -/
def scriptSetkey (hex : List Byte) : List HostStmt :=
  .wr RegName.keylen.offset (BitVec.ofNat 32 hex.length) ::
    wrWords (fun k => BitVec.ofNat 12 (0x040 + 4 * k)) 0 (wordsOfBytes hex)

/-- `setblk HEX` (R111). -/
def scriptSetblk (hex : List Byte) : List HostStmt :=
  wrWords (fun k => BitVec.ofNat 12 (0x060 + 4 * k)) 0 (wordsOfBytes hex)

/-- `getblk` (R111). -/
def scriptGetblk : List HostStmt :=
  [.rd (RegName.dout 0).offset, .rd (RegName.dout 1).offset, .rd (RegName.dout 2).offset, .rd (RegName.dout 3).offset]

/-- `getstate` (R111). -/
def scriptGetstate : List HostStmt :=
  [.rd (RegName.statew 0).offset, .rd (RegName.statew 1).offset, .rd (RegName.statew 2).offset,
    .rd (RegName.statew 3).offset]

/-- A script with a CMD write of `w` put in at the host's position, and the host free to run it. -/
def State.putCommand (w : Word) (s : State) : State :=
  { s with
    script := s.script.take s.scriptPos ++ (HostStmt.wr RegName.cmd.offset w :: s.script.drop s.scriptPos)
    scriptPos := min s.scriptPos s.script.length
    scriptFailed := false
    rstN := true
    turns := .host :: s.turns }

end Sys2Proof.Machine
end

