-- ==== Sys2Proof/Machine/Step.lean ====
section
/-! DEFINITION. One transition of the whole machine: the agent whose turn it is moves (00_scope.md R15, R16). -/

namespace Sys2Proof.Machine

/-- One step: the first turn of the list, or the default turn when the list is empty. -/
def step (s : State) : Host.Outcome State Fault Refusal :=
  match s.turns with
  | [] => agentStep s.defaultTurn s
  | t :: rest => agentStep t { s with turns := rest }

/-- `s` with the command word `w` as the host's next transaction and the host's turn next, so that the very next step is
the CMD write of `w`. `nbits` is 32 for every command (30_encoding.md R101). -/
def State.withFetchWord (s : State) (nbits w : Nat) : State := s.putCommand (BitVec.ofNat 32 (w % 2 ^ nbits))

end Sys2Proof.Machine
end

