-- ==== Sys2Proof/Safety.lean ====
section
/-! DEFINITION. What a good state of the machine is (10_state.md R61 and the field ranges of R36 to R40, made inductive by
saying also what each running phase has established), and the vocabulary that claims about runs are stated in. -/

namespace Sys2Proof.Machine

/-- NK and NR of one of the three variants (41_key_schedule.md R160). -/
abbrev Variant (nk nr : BitVec 4) : Prop :=
  (nk = 4 ∧ nr = 10) ∨ (nk = 6 ∧ nr = 12) ∨ (nk = 8 ∧ nr = 14)

/-- Word i of the store is what the loop body of 41_key_schedule.md R164 makes of words i - 1 and i - nk. -/
def scheduleWordOk (nk : Nat) (rk : Vector Word 60) (i : Nat) : Bool :=
  match rkBack? rk i 1, rkBack? rk i nk with
  | some prev, some back =>
    match scheduleTemp? nk i prev with
    | some temp => rkWord? rk i == some (back ^^^ temp)
    | none => false
  | _, _ => false

/-- Words nk to n - 1 of the store extend its first nk words, the key, by the schedule (41_key_schedule.md R164). -/
abbrev ScheduleUpTo (nk n : Nat) (rk : Vector Word 60) : Prop :=
  ∀ i, i < n → nk ≤ i → scheduleWordOk nk rk i = true

/-- The sequencing facts of each phase of ENC and DEC (43_block_cipher.md section 4). -/
def cipherPhaseOk (s : State) : Prop :=
  match s.phase with
  | .ark => (s.dir = false ∧ s.opc = .enc) ∨ (s.dir = true ∧ s.opc = .dec)
  | .sb => s.dir = false ∧ s.opc = .enc ∧ s.round ≠ 0
  | .sr => s.dir = false ∧ s.opc = .enc ∧ s.round ≠ 0
  | .mc => s.dir = false ∧ s.opc = .enc ∧ s.round ≠ 0 ∧ s.round.toNat < s.nr.toNat
  | .isr => s.dir = true ∧ s.opc = .dec ∧ s.round.toNat < s.nr.toNat
  | .isb => s.dir = true ∧ s.opc = .dec ∧ s.round.toNat < s.nr.toNat
  | .imc => s.dir = true ∧ s.opc = .dec ∧ s.round ≠ 0 ∧ s.round.toNat < s.nr.toNat
  | .idle => True
  | .kexp => True
  | .prim => True

/-- The phases of a cipher command (10_state.md R37). -/
def Phase.isCipher : Phase → Bool
  | .ark => true
  | .sb => true
  | .sr => true
  | .mc => true
  | .isr => true
  | .isb => true
  | .imc => true
  | .idle => false
  | .kexp => false
  | .prim => false

/-- The opcodes that phase PRIM executes (43_block_cipher.md R235). -/
def Opcode.isSingleStep : Opcode → Bool
  | .kexp => false
  | .enc => false
  | .dec => false
  | .nop => true
  | .load => true
  | .store => true
  | .sb => true
  | .isb => true
  | .sr => true
  | .isr => true
  | .mc => true
  | .imc => true
  | .ark => true
  | .gfmul => true
  | .sbox => true
  | .isbox => true

/-- The state whose block is at the reset values of its latest reset, reset still held, with the host's and the
environment's part of `s` (70_reset_and_hazards.md R290). -/
def State.heldReset (s : State) : State :=
  { State.atReset s.resets with
    rstN := false
    answer := s.answer
    script := s.script
    scriptPos := s.scriptPos
    scriptFailed := s.scriptFailed
    records := s.records
    turns := s.turns }

/-- The invariant of the machine. -/
structure Inv (s : State) : Prop where
  /-- BUSY = 0 if and only if PHASE = IDLE (R61). -/
  busy_iff : s.busy = false ↔ s.phase = .idle
  /-- ERRCODE is 0 exactly when ERR = 0 (R36). -/
  err_iff : s.err = false ↔ s.errcode = .none
  /-- Code 3 is never raised (R260). -/
  code_raised : s.errcode ≠ .malformedWord
  /-- DONE is 0 while BUSY = 1 (R299). -/
  done_idle : s.done = true → s.busy = false
  /-- CTX is as after reset or holds a variant (R44). -/
  variant : (s.nk = 0 ∧ s.nr = 0) ∨ Variant s.nk s.nr
  /-- ROUND is in 0..14 (R38). -/
  round_range : s.round.toNat ≤ 14
  /-- KIDX is in 0..60 (R40). -/
  kidx_range : s.kidx.toNat ≤ 60
  /-- A valid schedule is complete (R61). -/
  valid_schedule : s.schedValid = true →
    Variant s.nk s.nr ∧ s.kidx.toNat = scheduleWords s.nr.toNat ∧
      ScheduleUpTo s.nk.toNat (scheduleWords s.nr.toNat) s.rk
  /-- A running KEXP has expanded words 0 to KIDX - 1 and has a word left (R167). -/
  kexp_running : s.phase = .kexp →
    s.opc = .kexp ∧ s.schedValid = false ∧ Variant s.nk s.nr ∧ s.nk.toNat ≤ s.kidx.toNat ∧
      s.kidx.toNat < scheduleWords s.nr.toNat ∧ ScheduleUpTo s.nk.toNat s.kidx.toNat s.rk
  /-- A running cipher command has a schedule and a round key (R61). -/
  cipher_running : s.phase.isCipher = true →
    s.schedValid = true ∧ s.round.toNat ≤ s.nr.toNat ∧ cipherPhaseOk s
  /-- A running single-step command is one, and ARK has a round key (R61, R235). -/
  prim_running : s.phase = .prim →
    s.opc.isSingleStep = true ∧ (s.opc = .ark → s.schedValid = true ∧ s.round.toNat ≤ s.nr.toNat)
  /-- While reset is held every piece of the block's state is at its reset value (R290). -/
  held : s.rstN = false → s = s.heldReset

/-- How many engine steps the command in progress still takes (41_key_schedule.md R170, 43_block_cipher.md R232); 0 while
BUSY = 0. -/
def State.stepsLeft (s : State) : Nat :=
  let q := s.round.toNat
  let nr := s.nr.toNat
  match s.phase with
  | .idle => 0
  | .kexp => scheduleWords nr - s.kidx.toNat
  | .prim => 1
  | .ark =>
    if s.dir = false then if q = nr then 1 else 4 * (nr - q)
    else if q = nr then 4 * nr else 4 * q + 1
  | .sb => 4 * (nr - q) + 3
  | .sr => 4 * (nr - q) + 2
  | .mc => 4 * (nr - q) + 1
  | .isr => 4 * q + 3
  | .isb => 4 * q + 2
  | .imc => 4 * q

/-- A result with `f` applied to its next state. -/
def mapNext (f : State → State) : Result → Result
  | .next s => .next (f s)
  | .fault e => .fault e
  | .refused e => .refused e

/-- The error that 30_encoding.md R104 raises for the CMD write of `v`, in the words of that procedure and of R107; none where
the command is accepted. -/
def issueError (v : Word) (s : State) : Option ErrCode :=
  let op := opField v
  if s.busy = true then some .busy
  else if ¬ Legal v then some .illegalCommand
  else if op = 0x01#8 ∧ s.keylen ≠ 16 ∧ s.keylen ≠ 24 ∧ s.keylen ≠ 32 then some .malformedKey
  else if (op = 0x02#8 ∨ op = 0x03#8 ∨ op = 0x18#8) ∧ s.schedValid = false then some .noSchedule
  else if op = 0x18#8 ∧ ridxField v > s.nr then some .badRoundIndex
  else if (op = 0x02#8 ∨ op = 0x03#8 ∨ op = 0x10#8) ∧ s.dinlen ≠ 16 then some .malformedBlock
  else none

/-- What the host may rewrite while a command runs, and the error record that its rejected commands write (20_memory.md R83,
60_exceptions.md R263). -/
structure HostInputs where
  ie : Bool
  keylen : Byte
  dinlen : Byte
  gfa : Byte
  gfb : Byte
  key : Vector Word 8
  din : Vector Word 4
  err : Bool
  errcode : ErrCode
  deriving DecidableEq, Repr

/-- `s` with other contents of the host-writable registers and of the error record. -/
def State.withInputs (x : HostInputs) (s : State) : State :=
  { s with
    ie := x.ie, keylen := x.keylen, dinlen := x.dinlen, gfa := x.gfa, gfb := x.gfb, key := x.key, din := x.din,
    err := x.err, errcode := x.errcode }

/-- `s` with a single-step command accepted and its engine step still to come (30_encoding.md R105). -/
def State.primRunning (op : Opcode) (s : State) : State :=
  { s with done := false, busy := true, opc := op, phase := .prim }

/-- `s` with a command completed (30_encoding.md R106), OPC still latched. -/
def State.commandDone (op : Opcode) (s : State) : State :=
  { s with done := true, busy := false, opc := op, phase := .idle }

/-- It is the host's turn: it is the first of the list, or the list is empty and the engine has no step. `rest` is the
list after it. -/
abbrev State.HostTurn (s : State) (rest : List Turn) : Prop :=
  s.turns = .host :: rest ∨ (s.turns = [] ∧ rest = [] ∧ s.busy = false)

/-- It is the engine's turn: it is the first of the list, or the list is empty and the engine has a step. -/
abbrev State.EngineTurn (s : State) (rest : List Turn) : Prop :=
  s.turns = .engine :: rest ∨ (s.turns = [] ∧ rest = [] ∧ s.busy = true)

/-- The step from `s` to `t` was an engine step of a command in progress, taken in the engine's turn. -/
def State.EngineMoved (s t : State) : Prop :=
  s.busy = true ∧ s.EngineTurn t.turns ∧ engineStep { s with turns := t.turns } = .next t

/-- `temp` of the loop body for word `i`, from word i - 1, in the words of 41_key_schedule.md R164 and R167. -/
def LoopBodyTemp (nk i : Nat) (prev temp : Word) : Prop :=
  (i % nk = 0 →
    ∃ c, rcon? (i / nk) = some c ∧ temp = subWord (rotWord prev) ^^^ wordOfBytes c 0x00 0x00 0x00) ∧
  (i % nk ≠ 0 → nk > 6 → i % nk = 4 → temp = subWord prev) ∧
  (i % nk ≠ 0 → ¬ (nk > 6 ∧ i % nk = 4) → temp = prev)

/-- Words nk to n - 1 of `w` are each word i - nk XOR the loop body's temp (41_key_schedule.md R164). -/
def LoopBodyWords (nk n : Nat) (w : Nat → Option Word) : Prop :=
  ∀ i, nk ≤ i → i < n → ∃ prev back temp,
    w (i - 1) = some prev ∧ w (i - nk) = some back ∧ LoopBodyTemp nk i prev temp ∧ w i = some (back ^^^ temp)

/-- The product of two bytes as polynomials over GF(2), 15 bits wide, not reduced: the XOR of the shifts of `a` by the set
bits of `b` (40_gf_arith.md R130: carry-less multiplication). -/
def clmul (a b : Byte) : BitVec 16 :=
  (List.range 8).foldl (fun p i => if b.getLsbD i then p ^^^ (a.setWidth 16 <<< i) else p) 0

/-- One step of polynomial long division by x^8 + x^4 + x^3 + x + 1 (0x11B): the multiple of it that clears bit `8 + i`. -/
def polyReduceBit (p : BitVec 16) (i : Nat) : BitVec 16 := if p.getLsbD (8 + i) then p ^^^ (0x11B#16 <<< i) else p

/-- The remainder of a polynomial of degree below 15 modulo 0x11B. -/
def polyMod (p : BitVec 16) : Byte :=
  ([6, 5, 4, 3, 2, 1, 0].foldl polyReduceBit p).setWidth 8

/-- The affine map of the S-box's construction (40_gf_arith.md R135): bit i is
b[i] ^ b[i+4] ^ b[i+5] ^ b[i+6] ^ b[i+7] ^ 0x63[i], indices modulo 8. -/
def affine (b : Byte) : Byte :=
  b ^^^ b.rotateRight 4 ^^^ b.rotateRight 5 ^^^ b.rotateRight 6 ^^^ b.rotateRight 7 ^^^ 0x63

end Sys2Proof.Machine
end

