-- ==== Sys2Proof/Certificates/Slice0/Obligations.lean ====
section
/-! DEFINITION. The statements for the provers, grouped as spec/ is: encoding, issue and commands, arithmetic, transforms and
cipher, runs of a command, bus, status and interrupt, whole-machine rules, reset, invariant. Each docstring names the
rules it formalises; OBLIGATIONS.json gives its tier and basis. Free values (RK, OPC, OPA and OPB after a reset) and the list
of turns are never fixed by a statement. Where a next state is given whole, two things in it are the model's choice: the latches OPC, OPA and OPB
after a command's completion, which keep what its accept latched (DESIGN CHOICE, log entry 22); and the field `answer`, which is the last
transaction's answer and no claim about the bus outputs while no transaction is presented (DESIGN CHOICE, log entry 23). -/

open Sys2Proof Sys2Proof.Machine

/-! ### Encoding -/

/-- R102, R103: decoding inverts encoding on every well-formed command, and every word that decodes is the encoding of what it
decodes to; so no bit of a word is dropped. -/
def Obligations.DecodeInvertsEncode : Prop :=
  ∀ (w : Word) (i : Instr), decode w = .ok i ↔ (i.WellFormed ∧ encode i = w)

/-- R107: the legal words are the decodable ones; the illegal opcodes are the three ranges; issuing an illegal word while idle
records ILLEGAL_COMMAND and does nothing else. -/
def Obligations.ExactlyLegalWordsDecode : Prop :=
  (∀ w : Word, (∃ i, decode w = .ok i) ↔ Legal w) ∧
  (∀ op : Byte, op ∉ legalOps ↔
    (0x04 ≤ op.toNat ∧ op.toNat ≤ 0x0F) ∨ (0x19 ≤ op.toNat ∧ op.toNat ≤ 0x1F) ∨ 0x23 ≤ op.toNat) ∧
  (∀ (w : Word) (s : State), ¬ Legal w → s.busy = false →
    issue w s = .next { s with err := true, errcode := .illegalCommand })

/-- R102: the full command words of the table, and ARK n as 0x18 | n << 8; an OP value outside the table decodes to nothing. -/
def Obligations.TableWordsDecode : Prop :=
  decode 0x00000000 = .ok .nop ∧ decode 0x00000001 = .ok .kexp ∧ decode 0x00000002 = .ok .enc ∧
  decode 0x00000003 = .ok .dec ∧ decode 0x00000010 = .ok .load ∧ decode 0x00000011 = .ok .store ∧
  decode 0x00000012 = .ok .sb ∧ decode 0x00000013 = .ok .isb ∧ decode 0x00000014 = .ok .sr ∧
  decode 0x00000015 = .ok .isr ∧ decode 0x00000016 = .ok .mc ∧ decode 0x00000017 = .ok .imc ∧
  decode 0x00000020 = .ok .gfmul ∧ decode 0x00000021 = .ok .sbox ∧ decode 0x00000022 = .ok .isbox ∧
  (∀ n : Fin 16, decode (0x00000018#32 ||| (BitVec.ofNat 32 n.val <<< 8)) = .ok (.ark n.val)) ∧
  decode 0x00000A18 = .ok (.ark 10) ∧
  (∀ w : Word, opField w ∉ legalOps → decode w = .error .unknownOpcode)

/-! ### Issue and the commands -/

/-- R81, R104: a step in which the host writes a word to CMD is exec of the command it decodes to, in the state moved past the
script's statement; a word that does not decode is rejected; and the state that withFetchWord prepares runs its word at the
very next step. -/
def Obligations.StepRunsTheDecodedCommand : Prop :=
  (∀ (s : State) (rest : List Turn) (w : Word) (i : Instr) (p : Nat), s.HostTurn rest → s.rstN = true →
    s.fetchStmt = some (.wr 0x00C w, p) → decode w = .ok i →
    step s = exec i { s with turns := rest, scriptPos := p + 1, answer := some .okayWrite }) ∧
  (∀ (s : State) (rest : List Turn) (w : Word) (e : DecodeError) (p : Nat), s.HostTurn rest → s.rstN = true →
    s.fetchStmt = some (.wr 0x00C w, p) → decode w = .error e →
    step s = .next { s with
      turns := rest, scriptPos := p + 1, answer := some .okayWrite, err := true,
      errcode := if s.busy = true then .busy else .illegalCommand }) ∧
  (∀ (s : State) (w : Word) (i : Instr), decode w = .ok i →
    step (s.withFetchWord 32 w.toNat) =
      exec i { s.withFetchWord 32 w.toNat with
        turns := s.turns, scriptPos := min s.scriptPos s.script.length + 1, answer := some .okayWrite })

/-- R266, R264: the error of a CMD write is that of the first failing check in R104's order, whatever the word and the state;
then ERR and ERRCODE record it and nothing else changes; and where no check fails the command is accepted. -/
def Obligations.IssueReportsTheFirstFailingCheck : Prop :=
  ∀ (v : Word) (s : State),
    (∀ e, issueError v s = some e → issue v s = .next { s with err := true, errcode := e }) ∧
    (issueError v s = none →
      ∃ i t, decode v = .ok i ∧ issue v s = .next t ∧ t.busy = true ∧ t.done = false ∧ t.opc = Opcode.ofInstr i ∧
        t.err = s.err ∧ t.errcode = s.errcode)

/-- R263: a CMD write while BUSY = 1, whatever its command, is rejected with BUSY, and the command in progress runs on as if
the write had not happened, for any number of engine steps, but for ERR and ERRCODE. -/
def Obligations.BusyRejectionLeavesTheRunningCommandAlone : Prop :=
  ∀ (v : Word) (s : State), s.busy = true →
    issue v s = .next { s with err := true, errcode := .busy } ∧
    ∀ n, engineRun n { s with err := true, errcode := .busy } =
      mapNext (fun t => { t with err := true, errcode := .busy }) (engineRun n s)

/-- R190, R192 to R198: NOP, STORE, SB, ISB, SR, ISR, MC and IMC issued in any idle state are accepted, with nothing but the
lifecycle's fields changed, and their one engine step completes them with exactly their effect (OPC stays latched after it: log entry 22). -/
def Obligations.StateCommandsComplete : Prop :=
  ∀ s : State, s.busy = false →
    (exec .nop s = .next (s.primRunning .nop) ∧
      engineStep (s.primRunning .nop) = .next (s.commandDone .nop)) ∧
    (exec .store s = .next (s.primRunning .store) ∧
      engineStep (s.primRunning .store) = .next { s.commandDone .store with dout := blockOfState s.st }) ∧
    (exec .sb s = .next (s.primRunning .sb) ∧
      engineStep (s.primRunning .sb) = .next { s.commandDone .sb with st := subBytes s.st }) ∧
    (exec .isb s = .next (s.primRunning .isb) ∧
      engineStep (s.primRunning .isb) = .next { s.commandDone .isb with st := invSubBytes s.st }) ∧
    (exec .sr s = .next (s.primRunning .sr) ∧
      engineStep (s.primRunning .sr) = .next { s.commandDone .sr with st := shiftRows s.st }) ∧
    (exec .isr s = .next (s.primRunning .isr) ∧
      engineStep (s.primRunning .isr) = .next { s.commandDone .isr with st := invShiftRows s.st }) ∧
    (exec .mc s = .next (s.primRunning .mc) ∧
      engineStep (s.primRunning .mc) = .next { s.commandDone .mc with st := mixColumns s.st }) ∧
    (exec .imc s = .next (s.primRunning .imc) ∧
      engineStep (s.primRunning .imc) = .next { s.commandDone .imc with st := invMixColumns s.st })

/-- R140 to R142: GFMUL, SBOX and ISBOX issued in any idle state latch both bytes of GFOP, and their one engine step writes GFRES
from the latches and completes; nothing else changes (the latches stay after it: log entry 22). -/
def Obligations.FieldCommandsComplete : Prop :=
  ∀ s : State, s.busy = false →
    (exec .gfmul s = .next { s.primRunning .gfmul with opa := s.gfa, opb := s.gfb } ∧
      engineStep { s.primRunning .gfmul with opa := s.gfa, opb := s.gfb } =
        .next { s.commandDone .gfmul with opa := s.gfa, opb := s.gfb, gfres := gfmul s.gfa s.gfb }) ∧
    (exec .sbox s = .next { s.primRunning .sbox with opa := s.gfa, opb := s.gfb } ∧
      engineStep { s.primRunning .sbox with opa := s.gfa, opb := s.gfb } =
        .next { s.commandDone .sbox with opa := s.gfa, opb := s.gfb, gfres := sbox s.gfa }) ∧
    (exec .isbox s = .next { s.primRunning .isbox with opa := s.gfa, opb := s.gfb } ∧
      engineStep { s.primRunning .isbox with opa := s.gfa, opb := s.gfb } =
        .next { s.commandDone .isbox with opa := s.gfa, opb := s.gfb, gfres := invSbox s.gfa })

/-- R191: LOAD in an idle state makes S the state of the block in DIN at accept, so that STATEWk reads as DINk did, and completes
in one step (OPC stays latched after it: log entry 22); with DINLEN other than 16 it is rejected with MALFORMED_BLOCK and S is unchanged. -/
def Obligations.LoadBuildsTheMatrix : Prop :=
  ∀ s : State, s.busy = false →
    (s.dinlen = 16 →
      exec .load s = .next { s.primRunning .load with st := stateOfBlock s.din } ∧
      engineStep { s.primRunning .load with st := stateOfBlock s.din } =
        .next { s.commandDone .load with st := stateOfBlock s.din } ∧
      (∀ k : Fin 4, columnWord (stateOfBlock s.din) k = s.din[k])) ∧
    (s.dinlen ≠ 16 → exec .load s = .next { s with err := true, errcode := .malformedBlock })

/-- R199: ARK n in an idle state with a schedule and n at most CTX.NR (and at most 14, the last round key RK holds) writes ROUND
and in one step XORs round key n into S; without a schedule it is rejected with NO_SCHEDULE, with n above CTX.NR with
BAD_ROUND_INDEX. OPC stays latched after completion: log entry 22. -/
def Obligations.ArkAddsItsRoundKey : Prop :=
  ∀ (s : State) (n : Nat), s.busy = false →
    (s.schedValid = false → exec (.ark n) s = .next { s with err := true, errcode := .noSchedule }) ∧
    (s.schedValid = true → s.nr.toNat < n →
      exec (.ark n) s = .next { s with err := true, errcode := .badRoundIndex }) ∧
    (s.schedValid = true → n ≤ s.nr.toNat → n ≤ 14 →
      exec (.ark n) s = .next { s.primRunning .ark with round := BitVec.ofNat 4 n } ∧
      ∃ k, roundKey? s.rk n = some k ∧
        engineStep { s.primRunning .ark with round := BitVec.ofNat 4 n } =
          .next { s.commandDone .ark with round := BitVec.ofNat 4 n, st := addRoundKey s.st k })

/-- R165, R166: KEXP in an idle state is accepted exactly when KEYLEN is 16, 24 or 32; accept clears SCHED_VALID and DONE, writes
NK, NR and KIDX, copies the first NK key words into RK and leaves every other word of RK; otherwise it is rejected with
MALFORMED_KEY and a schedule that was valid stays valid. -/
def Obligations.KexpAcceptLatchesTheKey : Prop :=
  ∀ s : State, s.busy = false →
    (∀ nk : Nat, nk = 4 ∨ nk = 6 ∨ nk = 8 → s.keylen.toNat = 4 * nk →
      ∃ rk : Vector Word 60,
        exec .kexp s = .next { s with
          done := false, busy := true, opc := .kexp, phase := .kexp, schedValid := false,
          nk := BitVec.ofNat 4 nk, nr := BitVec.ofNat 4 (nk + 6), kidx := BitVec.ofNat 6 nk, rk := rk } ∧
        (∀ i : Nat, i < nk → rk[i]? = s.key[i]?) ∧
        (∀ i : Nat, nk ≤ i → rk[i]? = s.rk[i]?)) ∧
    (s.keylen ≠ 16 → s.keylen ≠ 24 → s.keylen ≠ 32 →
      exec .kexp s = .next { s with err := true, errcode := .malformedKey })

/-- R164, R167: one KEXP step computes the loop body of the expansion for i = KIDX from RK[i-1] and RK[i-nk], with temp as the rule's three
cases give it (and as scheduleTemp? computes it), writes RK[i] and KIDX only, and at i + 1 = 4 (NR + 1) also validates the schedule and
completes (the latches as they were: log entry 22). -/
def Obligations.KexpStepComputesOneWord : Prop :=
  ∀ (s : State) (prev back : Word), s.busy = true → s.phase = .kexp → Variant s.nk s.nr →
    s.nk.toNat ≤ s.kidx.toNat → s.kidx.toNat < scheduleWords s.nr.toNat →
    s.rk[s.kidx.toNat - 1]? = some prev → s.rk[s.kidx.toNat - s.nk.toNat]? = some back →
    ∃ temp, LoopBodyTemp s.nk.toNat s.kidx.toNat prev temp ∧ scheduleTemp? s.nk.toNat s.kidx.toNat prev = some temp ∧
      ∃ rk : Vector Word 60, rk[s.kidx.toNat]? = some (back ^^^ temp) ∧
        (∀ j : Nat, j ≠ s.kidx.toNat → rk[j]? = s.rk[j]?) ∧
        engineStep s =
          if s.kidx.toNat + 1 = scheduleWords s.nr.toNat then
            .next { s with rk := rk, kidx := s.kidx + 1, schedValid := true, busy := false, done := true, phase := .idle }
          else .next { s with rk := rk, kidx := s.kidx + 1 }

/-- R220, R221: ENC and DEC in an idle state with a schedule and DINLEN = 16 copy DIN into S and start in phase ARK, ENC at round 0 with
DIR 0 and DEC at round NR with DIR 1; without a schedule they are rejected with NO_SCHEDULE, else with DINLEN other than 16
with MALFORMED_BLOCK, and on error nothing but ERR and ERRCODE changes. -/
def Obligations.EncAndDecStart : Prop :=
  ∀ s : State, s.busy = false →
    (s.schedValid = true → s.dinlen = 16 →
      exec .enc s = .next { s with
        done := false, busy := true, opc := .enc, phase := .ark, st := stateOfBlock s.din, round := 0, dir := false } ∧
      exec .dec s = .next { s with
        done := false, busy := true, opc := .dec, phase := .ark, st := stateOfBlock s.din, round := s.nr, dir := true }) ∧
    (s.schedValid = false →
      exec .enc s = .next { s with err := true, errcode := .noSchedule } ∧
      exec .dec s = .next { s with err := true, errcode := .noSchedule }) ∧
    (s.schedValid = true → s.dinlen ≠ 16 →
      exec .enc s = .next { s with err := true, errcode := .malformedBlock } ∧
      exec .dec s = .next { s with err := true, errcode := .malformedBlock })

/-- R224: what a step in phase ARK does, in each of its five cases, for every state whose ROUND names a round key of the store. That
the latches stay as they were where the command completes is the model's choice (DESIGN CHOICE, log entry 22). -/
def Obligations.ArkPhaseContinuesByDirection : Prop :=
  ∀ (s : State) (k : Vector Word 4), s.busy = true → s.phase = .ark → roundKey? s.rk s.round.toNat = some k →
    (s.dir = false → s.round = s.nr →
      engineStep s = .next { s with
        st := addRoundKey s.st k, dout := blockOfState (addRoundKey s.st k), busy := false, done := true, phase := .idle }) ∧
    (s.dir = false → s.round ≠ s.nr →
      engineStep s = .next { s with st := addRoundKey s.st k, round := s.round + 1, phase := .sb }) ∧
    (s.dir = true → s.round = 0 →
      engineStep s = .next { s with
        st := addRoundKey s.st k, dout := blockOfState (addRoundKey s.st k), busy := false, done := true, phase := .idle }) ∧
    (s.dir = true → s.round ≠ 0 → s.round = s.nr →
      engineStep s = .next { s with st := addRoundKey s.st k, round := s.nr - 1, phase := .isr }) ∧
    (s.dir = true → s.round ≠ 0 → s.round ≠ s.nr →
      engineStep s = .next { s with st := addRoundKey s.st k, phase := .imc })

/-- R225 to R230: what a step in each of the other six cipher phases does; R230 at ROUND of at least 1, as it always is there: IMC is entered only
from decryption's ARK with ROUND neither 0 nor NR, and in a good state below NR. -/
def Obligations.CipherPhasesApplyTheirTransform : Prop :=
  ∀ s : State, s.busy = true →
    (s.phase = .sb → engineStep s = .next { s with st := subBytes s.st, phase := .sr }) ∧
    (s.phase = .sr → s.round = s.nr → engineStep s = .next { s with st := shiftRows s.st, phase := .ark }) ∧
    (s.phase = .sr → s.round ≠ s.nr → engineStep s = .next { s with st := shiftRows s.st, phase := .mc }) ∧
    (s.phase = .mc → engineStep s = .next { s with st := mixColumns s.st, phase := .ark }) ∧
    (s.phase = .isr → engineStep s = .next { s with st := invShiftRows s.st, phase := .isb }) ∧
    (s.phase = .isb → engineStep s = .next { s with st := invSubBytes s.st, phase := .ark }) ∧
    (s.phase = .imc → s.round ≠ 0 →
      engineStep s = .next { s with st := invMixColumns s.st, round := s.round - 1, phase := .isr }) ∧
    (∀ t, engineStep s = .next t → t.phase = .imc →
      s.phase = .ark ∧ s.dir = true ∧ t.round ≠ 0 ∧ t.round ≠ t.nr ∧ (Inv s → t.round.toNat < t.nr.toNat))

/-! ### Arithmetic -/

/-- R130: gfmul is carry-less multiplication of the two polynomials modulo x^8 + x^4 + x^3 + x + 1. -/
def Obligations.GfmulIsPolynomialProductModulo11B : Prop :=
  ∀ a b : Byte, gfmul a b = polyMod (clmul a b)

/-- R132, the laws the spec derives: gfmul is commutative, has 1 as identity and 0 as zero, distributes over XOR, and every nonzero byte
has exactly one inverse. -/
def Obligations.GfmulIsFieldMultiplication : Prop :=
  (∀ a b : Byte, gfmul a b = gfmul b a) ∧
  (∀ a : Byte, gfmul a 0x01 = a ∧ gfmul a 0x00 = 0x00) ∧
  (∀ a b c : Byte, gfmul a (b ^^^ c) = gfmul a b ^^^ gfmul a c) ∧
  (∀ a : Byte, a ≠ 0 → ∃ b, gfmul a b = 0x01 ∧ ∀ c, gfmul a c = 0x01 → c = b) ∧
  (∀ b : Byte, gfmul 0x00 b ≠ 0x01)

/-- R135, R133: the S-box ROM holds the affine map of the multiplicative inverse, with 0 taken as the inverse of 0. -/
def Obligations.SboxIsAffineOfInverse : Prop :=
  (∀ x b : Byte, gfmul x b = 0x01 → sbox x = affine b) ∧ sbox 0x00 = affine 0x00

/-- R136, which the spec derives: the two ROMs are inverse permutations, and the S-box has no fixed point. -/
def Obligations.SboxRomsAreInverse : Prop :=
  (∀ x : Byte, invSbox (sbox x) = x) ∧ (∀ y : Byte, sbox (invSbox y) = y) ∧ (∀ x : Byte, sbox x ≠ x)

/-- R13, R75, R161, R163: a word's bytes are its sequence, first byte in bits 31:24; RotWord moves each byte one place toward the first, and
SubWord applies the S-box to each. -/
def Obligations.WordFunctionsActOnBytes : Prop :=
  ∀ (a0 a1 a2 a3 : Byte) (w : Word) (r : Fin 4),
    wordByte (wordOfBytes a0 a1 a2 a3) 0 = a0 ∧ wordByte (wordOfBytes a0 a1 a2 a3) 1 = a1 ∧
    wordByte (wordOfBytes a0 a1 a2 a3) 2 = a2 ∧ wordByte (wordOfBytes a0 a1 a2 a3) 3 = a3 ∧
    wordOfBytes (wordByte w 0) (wordByte w 1) (wordByte w 2) (wordByte w 3) = w ∧
    wordByte (rotWord w) r = wordByte w ⟨(r.val + 1) % 4, by omega⟩ ∧
    wordByte (subWord w) r = sbox (wordByte w r)

/-- R162, R168: the round constants are successive powers of 2 from 1, and the expansion of a key of each variant reads RCON only at
1 to 10. -/
def Obligations.RoundConstantsArePowersOfTwo : Prop :=
  rcon? 1 = some 0x01 ∧
  (∀ (j : Nat) (c : Byte), rcon? j = some c → j < 10 → rcon? (j + 1) = some (gfmul c 0x02)) ∧
  (∀ j : Nat, (rcon? j).isSome = true ↔ 1 ≤ j ∧ j ≤ 10) ∧
  (∀ (nk nr : BitVec 4) (i : Nat), Variant nk nr → nk.toNat ≤ i → i < scheduleWords nr.toNat → i % nk.toNat = 0 →
    (rcon? (i / nk.toNat)).isSome = true)

/-! ### Transforms and the cipher -/

/-- R55, R56: byte j of a block is byte j mod 4 of word j div 4, from bits 31:24 down; the matrix of a block has block byte r + 4c at row
r, column c; flattening is the inverse both ways. -/
def Obligations.BlocksMapToTheMatrixColumnMajor : Prop :=
  (∀ (b : Vector Word 4) (r c : Fin 4),
    (stateOfBlock b).at r c = blockByte b ⟨r.val + 4 * c.val, by omega⟩ ∧
    (stateOfBlock b).at r c = (b[c] >>> (24 - 8 * r.val)).setWidth 8) ∧
  (∀ b : Vector Word 4, blockOfState (stateOfBlock b) = b) ∧
  (∀ m : AesState, stateOfBlock (blockOfState m) = m) ∧
  (∀ (m : AesState) (j : Fin 16),
    blockByte (blockOfState m) j = m.at ⟨j.val % 4, by omega⟩ ⟨j.val / 4, by omega⟩)

/-- R180 to R183, R186: the five transforms that work byte by byte; round key n is words 4n to 4n + 3 of the store, byte r of word 4n + c
going to row r, column c. -/
def Obligations.TransformsActByteByByte : Prop :=
  ∀ (m : AesState) (k : Vector Word 4) (r c : Fin 4),
    (subBytes m).at r c = sbox (m.at r c) ∧
    (invSubBytes m).at r c = invSbox (m.at r c) ∧
    (shiftRows m).at r c = m.at r ⟨(c.val + r.val) % 4, by omega⟩ ∧
    (invShiftRows m).at r c = m.at r ⟨(c.val + 4 - r.val) % 4, by omega⟩ ∧
    (addRoundKey m k).at r c = m.at r c ^^^ wordByte k[c] r ∧
    ∀ (rk : Vector Word 60) (n : Nat), roundKey? rk n = some k → rk[4 * n + c.val]? = some k[c]

/-- R184, R185: the two transforms that mix the four bytes of a column. The spec takes the placement of the coefficients from general knowledge
(GK4; log entry 15). -/
def Obligations.MixColumnsCombineEachColumn : Prop :=
  ∀ (m : AesState) (c : Fin 4),
    ((mixColumns m).at 0 c = gfmul 2 (m.at 0 c) ^^^ gfmul 3 (m.at 1 c) ^^^ m.at 2 c ^^^ m.at 3 c ∧
      (mixColumns m).at 1 c = m.at 0 c ^^^ gfmul 2 (m.at 1 c) ^^^ gfmul 3 (m.at 2 c) ^^^ m.at 3 c ∧
      (mixColumns m).at 2 c = m.at 0 c ^^^ m.at 1 c ^^^ gfmul 2 (m.at 2 c) ^^^ gfmul 3 (m.at 3 c) ∧
      (mixColumns m).at 3 c = gfmul 3 (m.at 0 c) ^^^ m.at 1 c ^^^ m.at 2 c ^^^ gfmul 2 (m.at 3 c)) ∧
    ((invMixColumns m).at 0 c =
        gfmul 14 (m.at 0 c) ^^^ gfmul 11 (m.at 1 c) ^^^ gfmul 13 (m.at 2 c) ^^^ gfmul 9 (m.at 3 c) ∧
      (invMixColumns m).at 1 c =
        gfmul 9 (m.at 0 c) ^^^ gfmul 14 (m.at 1 c) ^^^ gfmul 11 (m.at 2 c) ^^^ gfmul 13 (m.at 3 c) ∧
      (invMixColumns m).at 2 c =
        gfmul 13 (m.at 0 c) ^^^ gfmul 9 (m.at 1 c) ^^^ gfmul 14 (m.at 2 c) ^^^ gfmul 11 (m.at 3 c) ∧
      (invMixColumns m).at 3 c =
        gfmul 11 (m.at 0 c) ^^^ gfmul 13 (m.at 1 c) ^^^ gfmul 9 (m.at 2 c) ^^^ gfmul 14 (m.at 3 c))

/-- R187, the laws the spec derives: each inverse transform undoes its transform, for every matrix, on both sides for the three pairs;
AddRoundKey undoes itself; SubBytes commutes with ShiftRows, and InvSubBytes with InvShiftRows. -/
def Obligations.InverseTransformsUndo : Prop :=
  ∀ (m : AesState) (k : Vector Word 4),
    invSubBytes (subBytes m) = m ∧ subBytes (invSubBytes m) = m ∧
    invShiftRows (shiftRows m) = m ∧ shiftRows (invShiftRows m) = m ∧
    invMixColumns (mixColumns m) = m ∧ mixColumns (invMixColumns m) = m ∧
    addRoundKey (addRoundKey m k) k = m ∧
    subBytes (shiftRows m) = shiftRows (subBytes m) ∧
    invSubBytes (invShiftRows m) = invShiftRows (invSubBytes m)

/-- R223: InvCipher undoes Cipher, for every block, every sequence of round keys and every round count. -/
def Obligations.InvCipherUndoesCipher : Prop :=
  ∀ (b : Vector Word 4) (w : Nat → Vector Word 4) (nr : Nat), invCipher (cipher b w nr) w nr = b

/-! ### Runs of a command -/

/-- R231, R232, which the spec derives: ENC issued in any idle good state with a schedule and a whole block takes 4·NR engine steps, is busy
before the last one, and then DOUT and S hold Cipher of the block latched at accept; the frame is exact (OPC stays latched after completion: log
entry 22). -/
def Obligations.EncRunComputesCipher : Prop :=
  ∀ (s : State) (w : Nat → Vector Word 4), Inv s → s.busy = false → s.schedValid = true → s.dinlen = 16 →
    (∀ r, r ≤ s.nr.toNat → roundKey? s.rk r = some (w r)) →
    ∃ t, exec .enc s = .next t ∧
      (∀ n, n < 4 * s.nr.toNat → ∃ u, engineRun n t = .next u ∧ u.busy = true ∧ u.dout = s.dout) ∧
      engineRun (4 * s.nr.toNat) t = .next { s.commandDone .enc with
        round := s.nr, dir := false, dout := cipher s.din w s.nr.toNat,
        st := stateOfBlock (cipher s.din w s.nr.toNat) }

/-- R231, R232, which the spec derives: the same of DEC and InvCipher; ROUND ends at 0 and DIR at 1 (log entry 22 as there). -/
def Obligations.DecRunComputesInvCipher : Prop :=
  ∀ (s : State) (w : Nat → Vector Word 4), Inv s → s.busy = false → s.schedValid = true → s.dinlen = 16 →
    (∀ r, r ≤ s.nr.toNat → roundKey? s.rk r = some (w r)) →
    ∃ t, exec .dec s = .next t ∧
      (∀ n, n < 4 * s.nr.toNat → ∃ u, engineRun n t = .next u ∧ u.busy = true ∧ u.dout = s.dout) ∧
      engineRun (4 * s.nr.toNat) t = .next { s.commandDone .dec with
        round := 0, dir := true, dout := invCipher s.din w s.nr.toNat,
        st := stateOfBlock (invCipher s.din w s.nr.toNat) }

/-- R164: KeyExpansion of a key of 4 nk bytes has 4 (nr + 1) words; the first nk are the key's, four bytes each, and every other is the loop body's. -/
def Obligations.KeyExpansionFollowsItsLoop : Prop :=
  ∀ (nk : Nat) (key : List Byte), nk = 4 ∨ nk = 6 ∨ nk = 8 → key.length = 4 * nk →
    ∃ w, keyExpansion? key = some w ∧ w.length = 4 * (nk + 7) ∧
      (∀ (i : Nat) (b0 b1 b2 b3 : Byte), i < nk →
        key[4 * i]? = some b0 → key[4 * i + 1]? = some b1 → key[4 * i + 2]? = some b2 → key[4 * i + 3]? = some b3 →
        w[i]? = some (wordOfBytes b0 b1 b2 b3)) ∧
      LoopBodyWords nk (4 * (nk + 7)) (fun i => w[i]?)

/-- R60, R167, R170: KEXP issued in any idle state with a key of nk words takes 4 (nr + 1) - nk engine steps, has no valid schedule before
the last one, and then RK holds KeyExpansion of the key latched at accept, which is the key's words and then the loop body's, the words
above it unchanged; the frame is exact (OPC stays latched after completion: log entry 22). -/
def Obligations.KexpRunComputesKeyExpansion : Prop :=
  ∀ (s : State) (nk : Nat), s.busy = false → nk = 4 ∨ nk = 6 ∨ nk = 8 → s.keylen.toNat = 4 * nk →
    ∃ t, exec .kexp s = .next t ∧
      (∀ n, n < 4 * (nk + 7) - nk → ∃ u, engineRun n t = .next u ∧ u.busy = true ∧ u.schedValid = false) ∧
      ∃ rk : Vector Word 60,
        engineRun (4 * (nk + 7) - nk) t = .next { s.commandDone .kexp with
          schedValid := true, nk := BitVec.ofNat 4 nk, nr := BitVec.ofNat 4 (nk + 6),
          kidx := BitVec.ofNat 6 (4 * (nk + 7)), rk := rk } ∧
        keyExpansion? (bytesOfWords (s.key.toList.take nk)) = some (rk.toList.take (4 * (nk + 7))) ∧
        (∀ i : Nat, i < nk → rk[i]? = s.key[i]?) ∧ LoopBodyWords nk (4 * (nk + 7)) (fun i => rk[i]?) ∧
        ∀ i : Nat, 4 * (nk + 7) ≤ i → rk[i]? = s.rk[i]?

/-- R61: in every good state with a valid schedule, the schedule in RK is the expansion of its own first NK words, which are the key, and each
later word of it is the loop body's. -/
def Obligations.ValidScheduleIsAKeyExpansion : Prop :=
  ∀ s : State, Inv s → s.schedValid = true →
    keyExpansion? (bytesOfWords (s.rk.toList.take s.nk.toNat)) =
      some (s.rk.toList.take (scheduleWords s.nr.toNat)) ∧
    LoopBodyWords s.nk.toNat (scheduleWords s.nr.toNat) (fun i => s.rk[i]?)

/-- R170, R232, R300: from every good state in which a command is in progress, the engine alone completes it after exactly the steps that
remain, and no sooner, with no fault. -/
def Obligations.EveryRunningCommandCompletes : Prop :=
  ∀ s : State, Inv s → s.busy = true →
    s.stepsLeft ≤ 56 ∧
    (∀ n, n < s.stepsLeft → ∃ t, engineRun n s = .next t ∧ t.busy = true) ∧
    ∃ t, engineRun s.stepsLeft s = .next t ∧ t.busy = false ∧ t.done = true

/-- R105, R83: an engine step neither reads nor writes the host's input registers, CTRL.IE, ERR or ERRCODE: with any other contents of
these it does the same to everything else. -/
def Obligations.EngineIgnoresHostInputs : Prop :=
  ∀ (s : State) (x : HostInputs) (n : Nat), engineRun n (s.withInputs x) = mapNext (State.withInputs x) (engineRun n s)

/-- R52, R234: no engine step of a command other than KEXP depends on the words of RK above the schedule, which may hold anything: they
reach no result and stay as they were. -/
def Obligations.StaleRoundKeyWordsReachNoResult : Prop :=
  ∀ (s : State) (rk : Vector Word 60), Inv s → s.phase ≠ .kexp →
    (∀ i : Nat, i < scheduleWords s.nr.toNat → rk[i]? = s.rk[i]?) →
    engineStep { s with rk := rk } = mapNext (fun t => { t with rk := rk }) (engineStep s) ∧
    ∀ t, engineStep s = .next t → t.rk = s.rk

/-- R111, R300: under any order of engine and host turns without a reset, a `wait` that the host has reached ends, with BUSY = 0, from every
good state. -/
def Obligations.WaitEndsUnderEveryInterleaving : Prop :=
  ∀ (s : State) (l p q : Nat), Inv s → s.scriptFailed = false →
    nextStmt (s.script.drop s.scriptPos) s.scriptPos = some (.bnz 0x008 0x1 l, p) →
    labelIndex l s.script 0 = some q →
    nextStmt (s.script.drop q) q = some (.bnz 0x008 0x1 l, p) →
    (∀ level, .reset level ∉ s.turns) →
    ∃ n t, core.run n s = .next t ∧ t.scriptPos = p + 1 ∧ t.busy = false ∧ t.script = s.script

/-! ### The bus -/

/-- R73, R268: a transaction of another size than 4 or at another offset than a multiple of 4 answers SLVERR with read data 0 and changes
nothing, reset held or not; every other transaction answers OKAY. SLVERR while reset is held is the model's reading of R290 beside R73 (DEDUCED,
log entry 7), and SLVERR for sizes that are no transaction size, 0, 3, 5, 6 and 7, its reading of R268 (DEDUCED, log entry 12). -/
def Obligations.OnlyAlignedWordAccessesAreAccepted : Prop :=
  ∀ (s : State) (a : BitVec 12) (n : BitVec 3) (v : Word),
    ((n ≠ 4 ∨ a.toNat % 4 ≠ 0) →
      busRead s a n = .slverr ∧ (busRead s a n).rdata = some 0 ∧ (busRead s a n).resp = 1 ∧
      busWrite a n v s = .next { s with answer := some .slverr }) ∧
    (n = 4 → a.toNat % 4 = 0 →
      (busRead s a n).resp = 0 ∧ ∃ t, busWrite a n v s = .next t ∧ t.answer = some .okayWrite)

/-- R77: the aligned reserved offsets are the three gaps of the map; they read 0 with OKAY and ignore writes with OKAY. -/
def Obligations.ReservedOffsetsReadZeroAndIgnoreWrites : Prop :=
  ∀ (s : State) (a : BitVec 12) (v : Word), a.toNat % 4 = 0 →
    (regAt a = none ↔
      (0x024 ≤ a.toNat ∧ a.toNat ≤ 0x03F) ∨ (0x090 ≤ a.toNat ∧ a.toNat ≤ 0x0FF) ∨ 0x1F0 ≤ a.toNat) ∧
    (regAt a = none →
      busRead s a 4 = .okayRead 0 ∧ busWrite a 4 v s = .next { s with answer := some .okayWrite })

/-- R76: the map gives every register its offset and lists no register twice. -/
def Obligations.RegisterMapIsOneToOne : Prop :=
  ∀ (a : BitVec 12) (r : RegName), regAt a = some r ↔ r.offset = a

/-- R70 with R30, R31, R42 to R46, R48 to R52: what a read of each register returns, in every state: STATUS is StatusWordHasItsLayout's, CMD
ReadOnlyRegistersIgnoreWrites'. -/
def Obligations.RegistersReadTheirFields : Prop :=
  ∀ s : State,
    busRead s 0x000 4 = .okayRead 0x41455301 ∧
    busRead s 0x004 4 = .okayRead ((BitVec.ofBool s.ie).setWidth 32) ∧
    busRead s 0x010 4 = .okayRead (s.keylen.setWidth 32) ∧
    busRead s 0x014 4 = .okayRead (s.dinlen.setWidth 32) ∧
    busRead s 0x018 4 = .okayRead (s.nk.setWidth 32 ||| 4 <<< 4 ||| (s.nr.setWidth 32 <<< 8)) ∧
    busRead s 0x01C 4 = .okayRead (s.gfa.setWidth 32 ||| (s.gfb.setWidth 32 <<< 8)) ∧
    busRead s 0x020 4 = .okayRead (s.gfres.setWidth 32) ∧
    (∀ k : Fin 8, busRead s (BitVec.ofNat 12 (0x040 + 4 * k.val)) 4 = .okayRead s.key[k]) ∧
    (∀ k : Fin 4, busRead s (BitVec.ofNat 12 (0x060 + 4 * k.val)) 4 = .okayRead s.din[k]) ∧
    (∀ k : Fin 4, busRead s (BitVec.ofNat 12 (0x070 + 4 * k.val)) 4 = .okayRead s.dout[k]) ∧
    (∀ c : Fin 4, busRead s (BitVec.ofNat 12 (0x080 + 4 * c.val)) 4 = .okayRead
      (((s.st.at 0 c).setWidth 32 <<< 24) ||| ((s.st.at 1 c).setWidth 32 <<< 16) ||| ((s.st.at 2 c).setWidth 32 <<< 8) |||
        (s.st.at 3 c).setWidth 32)) ∧
    (∀ i : Fin 60, busRead s (BitVec.ofNat 12 (0x100 + 4 * i.val)) 4 = .okayRead s.rk[i])

/-- R79: a write to a read-only register is ignored and answered OKAY, and CMD reads as 0. -/
def Obligations.ReadOnlyRegistersIgnoreWrites : Prop :=
  ∀ (s : State) (v : Word),
    (∀ r : RegName,
      (r = .id ∨ r = .ctx ∨ r = .gfres ∨ (∃ k, r = .dout k) ∨ (∃ k, r = .statew k) ∨ ∃ i, r = .rkw i) →
      busWrite r.offset 4 v s = .next { s with answer := some .okayWrite }) ∧
    busRead s RegName.cmd.offset 4 = .okayRead 0

/-- R71, R31, R42, R43, R45, R48, R49, R78, R83: a write of `v` to a read-write register changes exactly that register's field and the bus answer,
the hidden latches and everything else as before; and then that register reads as `v` with its reserved bits 0 and every other register reads as
before. -/
def Obligations.WrittenRegistersReadBackMasked : Prop :=
  ∀ (s : State) (v : Word), s.rstN = true →
    busWrite 0x004 4 v s = .next { s with answer := some .okayWrite, ie := v.getLsbD 0 } ∧
    busWrite 0x010 4 v s = .next { s with answer := some .okayWrite, keylen := v.extractLsb' 0 8 } ∧
    busWrite 0x014 4 v s = .next { s with answer := some .okayWrite, dinlen := v.extractLsb' 0 8 } ∧
    busWrite 0x01C 4 v s =
      .next { s with answer := some .okayWrite, gfa := v.extractLsb' 0 8, gfb := v.extractLsb' 8 8 } ∧
    (∀ k : Fin 8, busWrite (BitVec.ofNat 12 (0x040 + 4 * k.val)) 4 v s =
      .next { s with answer := some .okayWrite, key := s.key.set k.val v }) ∧
    (∀ k : Fin 4, busWrite (BitVec.ofNat 12 (0x060 + 4 * k.val)) 4 v s =
      .next { s with answer := some .okayWrite, din := s.din.set k.val v }) ∧
    ∀ (r : RegName) (mask : Word),
    ((r = .ctrl ∧ mask = 0x1) ∨ (r = .keylen ∧ mask = 0xFF) ∨ (r = .dinlen ∧ mask = 0xFF) ∨ (r = .gfop ∧ mask = 0xFFFF) ∨
      ((∃ k, r = .key k) ∧ mask = 0xFFFFFFFF) ∨ ((∃ k, r = .din k) ∧ mask = 0xFFFFFFFF)) →
    ∃ t, busWrite r.offset 4 v s = .next t ∧
      busRead t r.offset 4 = .okayRead (v &&& mask) ∧
      ∀ r' : RegName, r' ≠ r → busRead t r'.offset 4 = busRead s r'.offset 4

/-- R82: a script's read leaves the whole block as it was; a write to any register other than CMD is idempotent. That the value read is appended to
the host's records, 0 with SLVERR, is the model's choice (DESIGN CHOICE, log entry 19). -/
def Obligations.ReadsHaveNoSideEffectsAndWritesAreIdempotent : Prop :=
  (∀ (s : State) (a : BitVec 12) (n : BitVec 3), ∃ v,
    hostStmt (.access ⟨false, a, n, 0⟩) s =
      .next { s with answer := some (busRead s a n), records := s.records ++ [v] } ∧
    (busRead s a n).rdata = some v) ∧
  (∀ (s t : State) (r : RegName) (v : Word), r ≠ .cmd → busWrite r.offset 4 v s = .next t →
    busWrite r.offset 4 v t = .next t)

/-- R110: what a turn of the host does for a write (`wr`, and the write transactions of other sizes that the bus refuses), a read, an expected read and a `bnz`, for a `bnz` to a label the script lacks, and when the
script has no statement left. Which definition a label defined twice goes to (labelIndex: the first) is the model's choice, log entry 20. -/
def Obligations.ScriptStatementsActAsWritten : Prop :=
  ∀ (s : State) (rest : List Turn) (off : BitVec 12) (v : Word) (p : Nat), s.HostTurn rest →
    (busRead s off 4).rdata = some v →
    (∀ val, s.fetchStmt = some (.wr off val, p) →
      step s = busWrite off 4 val { s with turns := rest, scriptPos := p + 1 }) ∧
    (∀ n val, s.fetchStmt = some (.access ⟨true, off, n, val⟩, p) →
      step s = busWrite off n val { s with turns := rest, scriptPos := p + 1 }) ∧
    (s.fetchStmt = some (.rd off, p) →
      step s = .next { s with
        turns := rest, scriptPos := p + 1, answer := some (busRead s off 4), records := s.records ++ [v] }) ∧
    (∀ val, s.fetchStmt = some (.expect off val, p) →
      step s = .next { s with
        turns := rest, scriptPos := p + 1, answer := some (busRead s off 4), records := s.records ++ [v],
        scriptFailed := decide (v ≠ val) }) ∧
    (∀ mask l, s.fetchStmt = some (.bnz off mask l, p) → v &&& mask = 0 →
      step s = .next { s with turns := rest, scriptPos := p + 1, answer := some (busRead s off 4) }) ∧
    (∀ mask l q, s.fetchStmt = some (.bnz off mask l, p) → v &&& mask ≠ 0 → labelIndex l s.script 0 = some q →
      step s = .next { s with turns := rest, scriptPos := q, answer := some (busRead s off 4) }) ∧
    (∀ mask l, s.fetchStmt = some (.bnz off mask l, p) → v &&& mask ≠ 0 → labelIndex l s.script 0 = none →
      step s = .refused (.unknownLabel l)) ∧
    (s.fetchStmt = none → step s = .next { s with turns := rest })

/-! ### Status and interrupt -/

/-- R41: a read of STATUS returns the word with its fields where R41 puts them, field by field, PHASE and ERRCODE by the
numbers of R37 and R260, reserved bits 0; it is 0 after reset; and a write ignores what it carries in the reserved bits, 23:17 and 31:30. -/
def Obligations.StatusWordHasItsLayout : Prop :=
  (∀ s : State, busRead s 0x008 4 = .okayRead s.statusWord ∧
    s.statusWord.extractLsb' 0 1 = BitVec.ofBool s.busy ∧ s.statusWord.extractLsb' 1 1 = BitVec.ofBool s.done ∧
    s.statusWord.extractLsb' 2 1 = BitVec.ofBool s.err ∧ s.statusWord.extractLsb' 3 1 = BitVec.ofBool s.schedValid ∧
    s.statusWord.extractLsb' 4 4 = s.errcode.code ∧ s.statusWord.extractLsb' 8 4 = s.phase.code ∧
    s.statusWord.extractLsb' 12 4 = s.round ∧ s.statusWord.extractLsb' 16 1 = BitVec.ofBool s.dir ∧
    s.statusWord.extractLsb' 17 7 = 0 ∧ s.statusWord.extractLsb' 24 6 = s.kidx ∧
    s.statusWord.extractLsb' 30 2 = 0) ∧
  (Phase.idle.code = 0 ∧ Phase.kexp.code = 1 ∧ Phase.ark.code = 2 ∧ Phase.sb.code = 3 ∧ Phase.sr.code = 4 ∧
    Phase.mc.code = 5 ∧ Phase.isr.code = 6 ∧ Phase.isb.code = 7 ∧ Phase.imc.code = 8 ∧ Phase.prim.code = 9) ∧
  (ErrCode.none.code = 0 ∧ ErrCode.malformedKey.code = 1 ∧ ErrCode.malformedBlock.code = 2 ∧
    ErrCode.malformedWord.code = 3 ∧ ErrCode.noSchedule.code = 4 ∧ ErrCode.badRoundIndex.code = 5 ∧
    ErrCode.illegalCommand.code = 6 ∧ ErrCode.busy.code = 7) ∧
  State.reset.statusWord = 0 ∧
  (∀ (s : State) (v : Word), busWrite 0x008 4 v s = busWrite 0x008 4 (v &&& 0x3F01FFFF) s)

/-- R80: a write of STATUS clears DONE where bit 1 is 1, ERR and ERRCODE where bit 2 is 1, and does nothing else, busy or not. -/
def Obligations.StatusWriteClearsDoneAndErr : Prop :=
  ∀ (s : State) (v : Word), s.rstN = true →
    busWrite 0x008 4 v s = .next { s with
      answer := some .okayWrite
      done := if v.getLsbD 1 = true then false else s.done
      err := if v.getLsbD 2 = true then false else s.err
      errcode := if v.getLsbD 2 = true then .none else s.errcode }

/-- R270: irq is IE and (DONE or ERR) in every state; IE = 0 masks it; the W1C write of both bits lowers it; setting IE raises it at once where
DONE or ERR is 1; commands and engine steps record DONE and ERR alike whatever IE is; an accepted command clears its DONE source. -/
def Obligations.InterruptLineFollowsDoneAndErr : Prop :=
  (∀ s : State, s.irq = true ↔ s.ie = true ∧ (s.done = true ∨ s.err = true)) ∧
  (∀ s : State, (writeReg .status 0x6 s).irq = false) ∧
  (∀ s : State, (s.done = true ∨ s.err = true) → (writeReg .ctrl 0x1 s).irq = true) ∧
  (∀ (s : State) (v : Word) (b : Bool),
    issue v { s with ie := b } = mapNext (fun t => { t with ie := b }) (issue v s) ∧
    engineStep { s with ie := b } = mapNext (fun t => { t with ie := b }) (engineStep s)) ∧
  (∀ (s t : State) (i : Instr), s.busy = false → exec i s = .next t → t.busy = true → t.done = false) ∧
  State.reset.irq = false

/-! ### Whole-machine rules -/

/-- R35: SCHED_VALID is 0 after reset, is cleared by KEXP's accept and set by its completion, and no other step of the machine changes it but
reset; while it is 1 in a good state, RK holds a complete schedule. -/
def Obligations.SchedValidChangesOnlyByKexp : Prop :=
  State.reset.schedValid = false ∧
  (∀ s t : State, step s = .next t → t.schedValid ≠ s.schedValid →
    (s.busy = false ∧ t.busy = true ∧ t.opc = .kexp ∧ t.phase = .kexp ∧ t.schedValid = false) ∨
    (s.EngineMoved t ∧ s.phase = .kexp ∧ t.busy = false ∧ t.done = true ∧ t.schedValid = true) ∨
    (s.rstN = true ∧ t.rstN = false ∧ t.schedValid = false)) ∧
  (∀ s t : State, exec .kexp s = .next t → s.busy = false → t.busy = true → t.schedValid = false) ∧
  (∀ s t : State, engineStep s = .next t → s.busy = true → s.phase = .kexp → t.busy = false → t.schedValid = true) ∧
  (∀ s : State, Inv s → s.schedValid = true → ScheduleUpTo s.nk.toNat (scheduleWords s.nr.toNat) s.rk)

/-- R39, R40: DIR changes only at the accept of ENC, which writes 0, and of DEC, which writes 1; KIDX only at the accept of KEXP, which writes
NK, and at its steps, which add 1; or at reset, which writes 0. -/
def Obligations.DirAndKidxChangeOnlyByTheirCommands : Prop :=
  (∀ s t : State, step s = .next t → t.dir ≠ s.dir →
    (s.busy = false ∧ t.busy = true ∧ ((t.opc = .enc ∧ t.dir = false) ∨ (t.opc = .dec ∧ t.dir = true))) ∨
    (s.rstN = true ∧ t.rstN = false ∧ t.dir = false)) ∧
  (∀ s t : State, Inv s → step s = .next t → t.kidx ≠ s.kidx →
    (s.busy = false ∧ t.busy = true ∧ t.opc = .kexp ∧ t.kidx.toNat = t.nk.toNat) ∨
    (s.EngineMoved t ∧ s.phase = .kexp ∧ t.kidx.toNat = s.kidx.toNat + 1) ∨
    (s.rstN = true ∧ t.rstN = false ∧ t.kidx = 0))

/-- R52, R44, R60: a step that changes a word of RK, or NK or NR, is KEXP's accept or one of its engine steps, or reset; accept changes no word at or
above 4 (NR + 1); an engine step changes only word KIDX, which is below 4 (NR + 1), adds 1 to KIDX, and changes neither NK nor NR. So no host write
changes the schedule but the CMD write of KEXP. -/
def Obligations.OnlyKexpWritesTheSchedule : Prop :=
  ∀ s t : State, Inv s → step s = .next t → (t.rk ≠ s.rk ∨ t.nk ≠ s.nk ∨ t.nr ≠ s.nr) →
    (s.busy = false ∧ t.busy = true ∧ t.opc = .kexp ∧ ∀ i : Nat, scheduleWords t.nr.toNat ≤ i → t.rk[i]? = s.rk[i]?) ∨
    (s.EngineMoved t ∧ s.phase = .kexp ∧ s.kidx.toNat < scheduleWords s.nr.toNat ∧ t.kidx.toNat = s.kidx.toNat + 1 ∧
      t.nk = s.nk ∧ t.nr = s.nr ∧ ∀ i : Nat, i ≠ s.kidx.toNat → t.rk[i]? = s.rk[i]?) ∨
    (s.rstN = true ∧ t.rstN = false)

/-- R50, R46, R51, R57: DOUT changes only at the completion of ENC, DEC or STORE, when it is the flattened S; GFRES only at that of GFMUL, SBOX
or ISBOX; S only at the accept of ENC, DEC or LOAD, when it is the matrix of DIN, and at transform steps, which are the engine steps of the cipher
phases and of SB, ISB, SR, ISR, MC, IMC and ARK; or at reset. No other host write reaches them. -/
def Obligations.ResultsChangeOnlyByTheirCommands : Prop :=
  ∀ s t : State, Inv s → step s = .next t →
    (t.dout ≠ s.dout →
      (s.EngineMoved t ∧ t.busy = false ∧ t.done = true ∧ (s.opc = .enc ∨ s.opc = .dec ∨ s.opc = .store) ∧
        t.dout = blockOfState t.st) ∨ (s.rstN = true ∧ t.rstN = false)) ∧
    (t.gfres ≠ s.gfres →
      (s.EngineMoved t ∧ t.busy = false ∧ t.done = true ∧ (s.opc = .gfmul ∨ s.opc = .sbox ∨ s.opc = .isbox)) ∨
        (s.rstN = true ∧ t.rstN = false)) ∧
    (t.st ≠ s.st →
      (s.EngineMoved t ∧ (s.phase.isCipher = true ∨
        (s.phase = .prim ∧ s.opc ∈ [Opcode.sb, .isb, .sr, .isr, .mc, .imc, .ark]))) ∨
      (s.busy = false ∧ t.busy = true ∧ (t.opc = .enc ∨ t.opc = .dec ∨ t.opc = .load) ∧ t.st = stateOfBlock s.din) ∨
      (s.rstN = true ∧ t.rstN = false))

/-! ### Reset -/

/-- R291, R290: asserting rst_n in any state, a command in progress or not, gives every piece of the block's state its reset value in one step, RK a
new draw of RK_RESET_CONTENT (log entry 3), and leaves the host's script, position, failure and records as they were, which is the model's choice (DESIGN
CHOICE, log entry 14). -/
def Obligations.ResetAbandonsTheCommandInProgress : Prop :=
  ∀ (s : State) (rest : List Turn), s.turns = .reset false :: rest → s.rstN = true →
    ∃ t, step s = .next t ∧
      t.rstN = false ∧ t.busy = false ∧ t.phase = .idle ∧ t.done = false ∧ t.err = false ∧ t.errcode = .none ∧
      t.schedValid = false ∧ t.ie = false ∧ t.irq = false ∧ t.round = 0 ∧ t.dir = false ∧ t.kidx = 0 ∧
      t.keylen = 16 ∧ t.dinlen = 16 ∧ t.nk = 0 ∧ t.nr = 0 ∧ t.gfa = 0 ∧ t.gfb = 0 ∧ t.gfres = 0 ∧
      (∀ k : Fin 8, t.key[k] = 0) ∧ (∀ k : Fin 4, t.din[k] = 0 ∧ t.dout[k] = 0) ∧ (∀ r c : Fin 4, t.st.at r c = 0) ∧
      (∀ i : Fin 60, t.rk[i] = Config.rkResetContent (s.resets + 1) i.val) ∧
      t.script = s.script ∧ t.scriptPos = s.scriptPos ∧ t.scriptFailed = s.scriptFailed ∧ t.records = s.records ∧
      t.turns = rest

/-- R290: while reset is held, every step that does not release it leaves the block's whole state at its reset values, those of the same reset: RK
is drawn once per reset (U1, log entry 14) and stays; a read still answers OKAY
with the register's reset value and a write answers OKAY and is ignored; and releasing it leaves the block idle, with irq 0 and no schedule. -/
def Obligations.HeldResetKeepsResetValues : Prop :=
  ∀ s : State, Inv s → s.rstN = false →
    (∀ t, step s = .next t → t.rstN = false → t = t.heldReset ∧ t.resets = s.resets ∧ t.rk = s.rk) ∧
    (∀ r : RegName, busRead s r.offset 4 = .okayRead (regValue (State.atReset s.resets) r)) ∧
    (∀ (a : BitVec 12) (v : Word), a.toNat % 4 = 0 → busWrite a 4 v s = .next { s with answer := some .okayWrite }) ∧
    (∀ rest, s.turns = .reset true :: rest →
      step s = .next { s with rstN := true, turns := rest } ∧
      s.busy = false ∧ s.phase = .idle ∧ s.done = false ∧ s.err = false ∧ s.schedValid = false ∧ s.ie = false ∧
      ({ s with rstN := true, turns := rest } : State).irq = false)

/-- R292, R293: the registers right after reset, as a read sees them: ID, CTX and the two length registers at their constants, RK at the free
value, every other register 0; and the block executes nothing of itself. -/
def Obligations.ResetRegistersReadTheirResetValues : Prop :=
  (∀ r : RegName, busRead State.reset r.offset 4 = .okayRead
    (match r with
      | .id => 0x41455301
      | .keylen => 0x10
      | .dinlen => 0x10
      | .ctx => 0x40
      | .rkw i => Config.rkResetContent 0 i.val
      | .ctrl => 0
      | .status => 0
      | .cmd => 0
      | .gfop => 0
      | .gfres => 0
      | .key _ => 0
      | .din _ => 0
      | .dout _ => 0
      | .statew _ => 0)) ∧
  step State.reset = .next State.reset

/-! ### The invariant -/

/-- R61, made inductive: every step from a good state leads to a good state. -/
def Obligations.EveryStepKeepsTheInvariant : Prop :=
  ∀ s t : State, Inv s → step s = .next t → Inv t

/-- R61: the state after reset is good. -/
def Obligations.ResetMeetsTheInvariant : Prop :=
  ∀ n : Nat, Inv (State.atReset n)

/-- R267: from a good state whose script defines its labels the machine always steps: no engine step of an accepted command fails, and no host
transaction stops the block. -/
def Obligations.GoodStatesAlwaysStep : Prop :=
  ∀ s : State, Inv s → labelsDefined s.script = true → ∃ t, step s = .next t
end

