-- ==== Sys2Proof/Laws/State.lean ====
section
/-! SUPPORT. One lemma per field for each named update of the state, true by unfolding, so that no proof opens a record update. -/

namespace Sys2Proof.Machine

/-! ### State.cmdError -/

@[simp] theorem State.cmdError_rstN (s : State) (code : ErrCode) : (s.cmdError code).rstN = s.rstN := rfl
@[simp] theorem State.cmdError_ie (s : State) (code : ErrCode) : (s.cmdError code).ie = s.ie := rfl
@[simp] theorem State.cmdError_busy (s : State) (code : ErrCode) : (s.cmdError code).busy = s.busy := rfl
@[simp] theorem State.cmdError_done (s : State) (code : ErrCode) : (s.cmdError code).done = s.done := rfl
@[simp] theorem State.cmdError_err (s : State) (code : ErrCode) : (s.cmdError code).err = true := rfl
@[simp] theorem State.cmdError_schedValid (s : State) (code : ErrCode) : (s.cmdError code).schedValid = s.schedValid := rfl
@[simp] theorem State.cmdError_errcode (s : State) (code : ErrCode) : (s.cmdError code).errcode = code := rfl
@[simp] theorem State.cmdError_phase (s : State) (code : ErrCode) : (s.cmdError code).phase = s.phase := rfl
@[simp] theorem State.cmdError_round (s : State) (code : ErrCode) : (s.cmdError code).round = s.round := rfl
@[simp] theorem State.cmdError_dir (s : State) (code : ErrCode) : (s.cmdError code).dir = s.dir := rfl
@[simp] theorem State.cmdError_kidx (s : State) (code : ErrCode) : (s.cmdError code).kidx = s.kidx := rfl
@[simp] theorem State.cmdError_keylen (s : State) (code : ErrCode) : (s.cmdError code).keylen = s.keylen := rfl
@[simp] theorem State.cmdError_dinlen (s : State) (code : ErrCode) : (s.cmdError code).dinlen = s.dinlen := rfl
@[simp] theorem State.cmdError_nk (s : State) (code : ErrCode) : (s.cmdError code).nk = s.nk := rfl
@[simp] theorem State.cmdError_nr (s : State) (code : ErrCode) : (s.cmdError code).nr = s.nr := rfl
@[simp] theorem State.cmdError_gfa (s : State) (code : ErrCode) : (s.cmdError code).gfa = s.gfa := rfl
@[simp] theorem State.cmdError_gfb (s : State) (code : ErrCode) : (s.cmdError code).gfb = s.gfb := rfl
@[simp] theorem State.cmdError_gfres (s : State) (code : ErrCode) : (s.cmdError code).gfres = s.gfres := rfl
@[simp] theorem State.cmdError_key (s : State) (code : ErrCode) : (s.cmdError code).key = s.key := rfl
@[simp] theorem State.cmdError_din (s : State) (code : ErrCode) : (s.cmdError code).din = s.din := rfl
@[simp] theorem State.cmdError_dout (s : State) (code : ErrCode) : (s.cmdError code).dout = s.dout := rfl
@[simp] theorem State.cmdError_st (s : State) (code : ErrCode) : (s.cmdError code).st = s.st := rfl
@[simp] theorem State.cmdError_rk (s : State) (code : ErrCode) : (s.cmdError code).rk = s.rk := rfl
@[simp] theorem State.cmdError_opc (s : State) (code : ErrCode) : (s.cmdError code).opc = s.opc := rfl
@[simp] theorem State.cmdError_opa (s : State) (code : ErrCode) : (s.cmdError code).opa = s.opa := rfl
@[simp] theorem State.cmdError_opb (s : State) (code : ErrCode) : (s.cmdError code).opb = s.opb := rfl
@[simp] theorem State.cmdError_answer (s : State) (code : ErrCode) : (s.cmdError code).answer = s.answer := rfl
@[simp] theorem State.cmdError_script (s : State) (code : ErrCode) : (s.cmdError code).script = s.script := rfl
@[simp] theorem State.cmdError_scriptPos (s : State) (code : ErrCode) : (s.cmdError code).scriptPos = s.scriptPos := rfl
@[simp] theorem State.cmdError_scriptFailed (s : State) (code : ErrCode) : (s.cmdError code).scriptFailed = s.scriptFailed := rfl
@[simp] theorem State.cmdError_records (s : State) (code : ErrCode) : (s.cmdError code).records = s.records := rfl
@[simp] theorem State.cmdError_turns (s : State) (code : ErrCode) : (s.cmdError code).turns = s.turns := rfl
@[simp] theorem State.cmdError_resets (s : State) (code : ErrCode) : (s.cmdError code).resets = s.resets := rfl

/-! ### State.accept -/

@[simp] theorem State.accept_rstN (s : State) (op : Opcode) (ph : Phase) : (s.accept op ph).rstN = s.rstN := rfl
@[simp] theorem State.accept_ie (s : State) (op : Opcode) (ph : Phase) : (s.accept op ph).ie = s.ie := rfl
@[simp] theorem State.accept_busy (s : State) (op : Opcode) (ph : Phase) : (s.accept op ph).busy = true := rfl
@[simp] theorem State.accept_done (s : State) (op : Opcode) (ph : Phase) : (s.accept op ph).done = false := rfl
@[simp] theorem State.accept_err (s : State) (op : Opcode) (ph : Phase) : (s.accept op ph).err = s.err := rfl
@[simp] theorem State.accept_schedValid (s : State) (op : Opcode) (ph : Phase) : (s.accept op ph).schedValid = s.schedValid := rfl
@[simp] theorem State.accept_errcode (s : State) (op : Opcode) (ph : Phase) : (s.accept op ph).errcode = s.errcode := rfl
@[simp] theorem State.accept_phase (s : State) (op : Opcode) (ph : Phase) : (s.accept op ph).phase = ph := rfl
@[simp] theorem State.accept_round (s : State) (op : Opcode) (ph : Phase) : (s.accept op ph).round = s.round := rfl
@[simp] theorem State.accept_dir (s : State) (op : Opcode) (ph : Phase) : (s.accept op ph).dir = s.dir := rfl
@[simp] theorem State.accept_kidx (s : State) (op : Opcode) (ph : Phase) : (s.accept op ph).kidx = s.kidx := rfl
@[simp] theorem State.accept_keylen (s : State) (op : Opcode) (ph : Phase) : (s.accept op ph).keylen = s.keylen := rfl
@[simp] theorem State.accept_dinlen (s : State) (op : Opcode) (ph : Phase) : (s.accept op ph).dinlen = s.dinlen := rfl
@[simp] theorem State.accept_nk (s : State) (op : Opcode) (ph : Phase) : (s.accept op ph).nk = s.nk := rfl
@[simp] theorem State.accept_nr (s : State) (op : Opcode) (ph : Phase) : (s.accept op ph).nr = s.nr := rfl
@[simp] theorem State.accept_gfa (s : State) (op : Opcode) (ph : Phase) : (s.accept op ph).gfa = s.gfa := rfl
@[simp] theorem State.accept_gfb (s : State) (op : Opcode) (ph : Phase) : (s.accept op ph).gfb = s.gfb := rfl
@[simp] theorem State.accept_gfres (s : State) (op : Opcode) (ph : Phase) : (s.accept op ph).gfres = s.gfres := rfl
@[simp] theorem State.accept_key (s : State) (op : Opcode) (ph : Phase) : (s.accept op ph).key = s.key := rfl
@[simp] theorem State.accept_din (s : State) (op : Opcode) (ph : Phase) : (s.accept op ph).din = s.din := rfl
@[simp] theorem State.accept_dout (s : State) (op : Opcode) (ph : Phase) : (s.accept op ph).dout = s.dout := rfl
@[simp] theorem State.accept_st (s : State) (op : Opcode) (ph : Phase) : (s.accept op ph).st = s.st := rfl
@[simp] theorem State.accept_rk (s : State) (op : Opcode) (ph : Phase) : (s.accept op ph).rk = s.rk := rfl
@[simp] theorem State.accept_opc (s : State) (op : Opcode) (ph : Phase) : (s.accept op ph).opc = op := rfl
@[simp] theorem State.accept_opa (s : State) (op : Opcode) (ph : Phase) : (s.accept op ph).opa = s.opa := rfl
@[simp] theorem State.accept_opb (s : State) (op : Opcode) (ph : Phase) : (s.accept op ph).opb = s.opb := rfl
@[simp] theorem State.accept_answer (s : State) (op : Opcode) (ph : Phase) : (s.accept op ph).answer = s.answer := rfl
@[simp] theorem State.accept_script (s : State) (op : Opcode) (ph : Phase) : (s.accept op ph).script = s.script := rfl
@[simp] theorem State.accept_scriptPos (s : State) (op : Opcode) (ph : Phase) : (s.accept op ph).scriptPos = s.scriptPos := rfl
@[simp] theorem State.accept_scriptFailed (s : State) (op : Opcode) (ph : Phase) : (s.accept op ph).scriptFailed = s.scriptFailed := rfl
@[simp] theorem State.accept_records (s : State) (op : Opcode) (ph : Phase) : (s.accept op ph).records = s.records := rfl
@[simp] theorem State.accept_turns (s : State) (op : Opcode) (ph : Phase) : (s.accept op ph).turns = s.turns := rfl
@[simp] theorem State.accept_resets (s : State) (op : Opcode) (ph : Phase) : (s.accept op ph).resets = s.resets := rfl

/-! ### State.complete -/

@[simp] theorem State.complete_rstN (s : State) : s.complete.rstN = s.rstN := rfl
@[simp] theorem State.complete_ie (s : State) : s.complete.ie = s.ie := rfl
@[simp] theorem State.complete_busy (s : State) : s.complete.busy = false := rfl
@[simp] theorem State.complete_done (s : State) : s.complete.done = true := rfl
@[simp] theorem State.complete_err (s : State) : s.complete.err = s.err := rfl
@[simp] theorem State.complete_schedValid (s : State) : s.complete.schedValid = s.schedValid := rfl
@[simp] theorem State.complete_errcode (s : State) : s.complete.errcode = s.errcode := rfl
@[simp] theorem State.complete_phase (s : State) : s.complete.phase = .idle := rfl
@[simp] theorem State.complete_round (s : State) : s.complete.round = s.round := rfl
@[simp] theorem State.complete_dir (s : State) : s.complete.dir = s.dir := rfl
@[simp] theorem State.complete_kidx (s : State) : s.complete.kidx = s.kidx := rfl
@[simp] theorem State.complete_keylen (s : State) : s.complete.keylen = s.keylen := rfl
@[simp] theorem State.complete_dinlen (s : State) : s.complete.dinlen = s.dinlen := rfl
@[simp] theorem State.complete_nk (s : State) : s.complete.nk = s.nk := rfl
@[simp] theorem State.complete_nr (s : State) : s.complete.nr = s.nr := rfl
@[simp] theorem State.complete_gfa (s : State) : s.complete.gfa = s.gfa := rfl
@[simp] theorem State.complete_gfb (s : State) : s.complete.gfb = s.gfb := rfl
@[simp] theorem State.complete_gfres (s : State) : s.complete.gfres = s.gfres := rfl
@[simp] theorem State.complete_key (s : State) : s.complete.key = s.key := rfl
@[simp] theorem State.complete_din (s : State) : s.complete.din = s.din := rfl
@[simp] theorem State.complete_dout (s : State) : s.complete.dout = s.dout := rfl
@[simp] theorem State.complete_st (s : State) : s.complete.st = s.st := rfl
@[simp] theorem State.complete_rk (s : State) : s.complete.rk = s.rk := rfl
@[simp] theorem State.complete_opc (s : State) : s.complete.opc = s.opc := rfl
@[simp] theorem State.complete_opa (s : State) : s.complete.opa = s.opa := rfl
@[simp] theorem State.complete_opb (s : State) : s.complete.opb = s.opb := rfl
@[simp] theorem State.complete_answer (s : State) : s.complete.answer = s.answer := rfl
@[simp] theorem State.complete_script (s : State) : s.complete.script = s.script := rfl
@[simp] theorem State.complete_scriptPos (s : State) : s.complete.scriptPos = s.scriptPos := rfl
@[simp] theorem State.complete_scriptFailed (s : State) : s.complete.scriptFailed = s.scriptFailed := rfl
@[simp] theorem State.complete_records (s : State) : s.complete.records = s.records := rfl
@[simp] theorem State.complete_turns (s : State) : s.complete.turns = s.turns := rfl
@[simp] theorem State.complete_resets (s : State) : s.complete.resets = s.resets := rfl

/-! ### State.withMatrix -/

@[simp] theorem State.withMatrix_rstN (s : State) (m : AesState) : (s.withMatrix m).rstN = s.rstN := rfl
@[simp] theorem State.withMatrix_ie (s : State) (m : AesState) : (s.withMatrix m).ie = s.ie := rfl
@[simp] theorem State.withMatrix_busy (s : State) (m : AesState) : (s.withMatrix m).busy = s.busy := rfl
@[simp] theorem State.withMatrix_done (s : State) (m : AesState) : (s.withMatrix m).done = s.done := rfl
@[simp] theorem State.withMatrix_err (s : State) (m : AesState) : (s.withMatrix m).err = s.err := rfl
@[simp] theorem State.withMatrix_schedValid (s : State) (m : AesState) : (s.withMatrix m).schedValid = s.schedValid := rfl
@[simp] theorem State.withMatrix_errcode (s : State) (m : AesState) : (s.withMatrix m).errcode = s.errcode := rfl
@[simp] theorem State.withMatrix_phase (s : State) (m : AesState) : (s.withMatrix m).phase = s.phase := rfl
@[simp] theorem State.withMatrix_round (s : State) (m : AesState) : (s.withMatrix m).round = s.round := rfl
@[simp] theorem State.withMatrix_dir (s : State) (m : AesState) : (s.withMatrix m).dir = s.dir := rfl
@[simp] theorem State.withMatrix_kidx (s : State) (m : AesState) : (s.withMatrix m).kidx = s.kidx := rfl
@[simp] theorem State.withMatrix_keylen (s : State) (m : AesState) : (s.withMatrix m).keylen = s.keylen := rfl
@[simp] theorem State.withMatrix_dinlen (s : State) (m : AesState) : (s.withMatrix m).dinlen = s.dinlen := rfl
@[simp] theorem State.withMatrix_nk (s : State) (m : AesState) : (s.withMatrix m).nk = s.nk := rfl
@[simp] theorem State.withMatrix_nr (s : State) (m : AesState) : (s.withMatrix m).nr = s.nr := rfl
@[simp] theorem State.withMatrix_gfa (s : State) (m : AesState) : (s.withMatrix m).gfa = s.gfa := rfl
@[simp] theorem State.withMatrix_gfb (s : State) (m : AesState) : (s.withMatrix m).gfb = s.gfb := rfl
@[simp] theorem State.withMatrix_gfres (s : State) (m : AesState) : (s.withMatrix m).gfres = s.gfres := rfl
@[simp] theorem State.withMatrix_key (s : State) (m : AesState) : (s.withMatrix m).key = s.key := rfl
@[simp] theorem State.withMatrix_din (s : State) (m : AesState) : (s.withMatrix m).din = s.din := rfl
@[simp] theorem State.withMatrix_dout (s : State) (m : AesState) : (s.withMatrix m).dout = s.dout := rfl
@[simp] theorem State.withMatrix_st (s : State) (m : AesState) : (s.withMatrix m).st = m := rfl
@[simp] theorem State.withMatrix_rk (s : State) (m : AesState) : (s.withMatrix m).rk = s.rk := rfl
@[simp] theorem State.withMatrix_opc (s : State) (m : AesState) : (s.withMatrix m).opc = s.opc := rfl
@[simp] theorem State.withMatrix_opa (s : State) (m : AesState) : (s.withMatrix m).opa = s.opa := rfl
@[simp] theorem State.withMatrix_opb (s : State) (m : AesState) : (s.withMatrix m).opb = s.opb := rfl
@[simp] theorem State.withMatrix_answer (s : State) (m : AesState) : (s.withMatrix m).answer = s.answer := rfl
@[simp] theorem State.withMatrix_script (s : State) (m : AesState) : (s.withMatrix m).script = s.script := rfl
@[simp] theorem State.withMatrix_scriptPos (s : State) (m : AesState) : (s.withMatrix m).scriptPos = s.scriptPos := rfl
@[simp] theorem State.withMatrix_scriptFailed (s : State) (m : AesState) : (s.withMatrix m).scriptFailed = s.scriptFailed := rfl
@[simp] theorem State.withMatrix_records (s : State) (m : AesState) : (s.withMatrix m).records = s.records := rfl
@[simp] theorem State.withMatrix_turns (s : State) (m : AesState) : (s.withMatrix m).turns = s.turns := rfl
@[simp] theorem State.withMatrix_resets (s : State) (m : AesState) : (s.withMatrix m).resets = s.resets := rfl

/-! ### State.latchGfop -/

@[simp] theorem State.latchGfop_rstN (s : State) : s.latchGfop.rstN = s.rstN := rfl
@[simp] theorem State.latchGfop_ie (s : State) : s.latchGfop.ie = s.ie := rfl
@[simp] theorem State.latchGfop_busy (s : State) : s.latchGfop.busy = s.busy := rfl
@[simp] theorem State.latchGfop_done (s : State) : s.latchGfop.done = s.done := rfl
@[simp] theorem State.latchGfop_err (s : State) : s.latchGfop.err = s.err := rfl
@[simp] theorem State.latchGfop_schedValid (s : State) : s.latchGfop.schedValid = s.schedValid := rfl
@[simp] theorem State.latchGfop_errcode (s : State) : s.latchGfop.errcode = s.errcode := rfl
@[simp] theorem State.latchGfop_phase (s : State) : s.latchGfop.phase = s.phase := rfl
@[simp] theorem State.latchGfop_round (s : State) : s.latchGfop.round = s.round := rfl
@[simp] theorem State.latchGfop_dir (s : State) : s.latchGfop.dir = s.dir := rfl
@[simp] theorem State.latchGfop_kidx (s : State) : s.latchGfop.kidx = s.kidx := rfl
@[simp] theorem State.latchGfop_keylen (s : State) : s.latchGfop.keylen = s.keylen := rfl
@[simp] theorem State.latchGfop_dinlen (s : State) : s.latchGfop.dinlen = s.dinlen := rfl
@[simp] theorem State.latchGfop_nk (s : State) : s.latchGfop.nk = s.nk := rfl
@[simp] theorem State.latchGfop_nr (s : State) : s.latchGfop.nr = s.nr := rfl
@[simp] theorem State.latchGfop_gfa (s : State) : s.latchGfop.gfa = s.gfa := rfl
@[simp] theorem State.latchGfop_gfb (s : State) : s.latchGfop.gfb = s.gfb := rfl
@[simp] theorem State.latchGfop_gfres (s : State) : s.latchGfop.gfres = s.gfres := rfl
@[simp] theorem State.latchGfop_key (s : State) : s.latchGfop.key = s.key := rfl
@[simp] theorem State.latchGfop_din (s : State) : s.latchGfop.din = s.din := rfl
@[simp] theorem State.latchGfop_dout (s : State) : s.latchGfop.dout = s.dout := rfl
@[simp] theorem State.latchGfop_st (s : State) : s.latchGfop.st = s.st := rfl
@[simp] theorem State.latchGfop_rk (s : State) : s.latchGfop.rk = s.rk := rfl
@[simp] theorem State.latchGfop_opc (s : State) : s.latchGfop.opc = s.opc := rfl
@[simp] theorem State.latchGfop_opa (s : State) : s.latchGfop.opa = s.gfa := rfl
@[simp] theorem State.latchGfop_opb (s : State) : s.latchGfop.opb = s.gfb := rfl
@[simp] theorem State.latchGfop_answer (s : State) : s.latchGfop.answer = s.answer := rfl
@[simp] theorem State.latchGfop_script (s : State) : s.latchGfop.script = s.script := rfl
@[simp] theorem State.latchGfop_scriptPos (s : State) : s.latchGfop.scriptPos = s.scriptPos := rfl
@[simp] theorem State.latchGfop_scriptFailed (s : State) : s.latchGfop.scriptFailed = s.scriptFailed := rfl
@[simp] theorem State.latchGfop_records (s : State) : s.latchGfop.records = s.records := rfl
@[simp] theorem State.latchGfop_turns (s : State) : s.latchGfop.turns = s.turns := rfl
@[simp] theorem State.latchGfop_resets (s : State) : s.latchGfop.resets = s.resets := rfl

/-! ### State.writeStatus -/

@[simp] theorem State.writeStatus_rstN (s : State) (v : Word) : (s.writeStatus v).rstN = s.rstN := rfl
@[simp] theorem State.writeStatus_ie (s : State) (v : Word) : (s.writeStatus v).ie = s.ie := rfl
@[simp] theorem State.writeStatus_busy (s : State) (v : Word) : (s.writeStatus v).busy = s.busy := rfl
@[simp] theorem State.writeStatus_done (s : State) (v : Word) : (s.writeStatus v).done = if v.getLsbD 1 then false else s.done := rfl
@[simp] theorem State.writeStatus_err (s : State) (v : Word) : (s.writeStatus v).err = if v.getLsbD 2 then false else s.err := rfl
@[simp] theorem State.writeStatus_schedValid (s : State) (v : Word) : (s.writeStatus v).schedValid = s.schedValid := rfl
@[simp] theorem State.writeStatus_errcode (s : State) (v : Word) :
    (s.writeStatus v).errcode = if v.getLsbD 2 then .none else s.errcode := rfl
@[simp] theorem State.writeStatus_phase (s : State) (v : Word) : (s.writeStatus v).phase = s.phase := rfl
@[simp] theorem State.writeStatus_round (s : State) (v : Word) : (s.writeStatus v).round = s.round := rfl
@[simp] theorem State.writeStatus_dir (s : State) (v : Word) : (s.writeStatus v).dir = s.dir := rfl
@[simp] theorem State.writeStatus_kidx (s : State) (v : Word) : (s.writeStatus v).kidx = s.kidx := rfl
@[simp] theorem State.writeStatus_keylen (s : State) (v : Word) : (s.writeStatus v).keylen = s.keylen := rfl
@[simp] theorem State.writeStatus_dinlen (s : State) (v : Word) : (s.writeStatus v).dinlen = s.dinlen := rfl
@[simp] theorem State.writeStatus_nk (s : State) (v : Word) : (s.writeStatus v).nk = s.nk := rfl
@[simp] theorem State.writeStatus_nr (s : State) (v : Word) : (s.writeStatus v).nr = s.nr := rfl
@[simp] theorem State.writeStatus_gfa (s : State) (v : Word) : (s.writeStatus v).gfa = s.gfa := rfl
@[simp] theorem State.writeStatus_gfb (s : State) (v : Word) : (s.writeStatus v).gfb = s.gfb := rfl
@[simp] theorem State.writeStatus_gfres (s : State) (v : Word) : (s.writeStatus v).gfres = s.gfres := rfl
@[simp] theorem State.writeStatus_key (s : State) (v : Word) : (s.writeStatus v).key = s.key := rfl
@[simp] theorem State.writeStatus_din (s : State) (v : Word) : (s.writeStatus v).din = s.din := rfl
@[simp] theorem State.writeStatus_dout (s : State) (v : Word) : (s.writeStatus v).dout = s.dout := rfl
@[simp] theorem State.writeStatus_st (s : State) (v : Word) : (s.writeStatus v).st = s.st := rfl
@[simp] theorem State.writeStatus_rk (s : State) (v : Word) : (s.writeStatus v).rk = s.rk := rfl
@[simp] theorem State.writeStatus_opc (s : State) (v : Word) : (s.writeStatus v).opc = s.opc := rfl
@[simp] theorem State.writeStatus_opa (s : State) (v : Word) : (s.writeStatus v).opa = s.opa := rfl
@[simp] theorem State.writeStatus_opb (s : State) (v : Word) : (s.writeStatus v).opb = s.opb := rfl
@[simp] theorem State.writeStatus_answer (s : State) (v : Word) : (s.writeStatus v).answer = s.answer := rfl
@[simp] theorem State.writeStatus_script (s : State) (v : Word) : (s.writeStatus v).script = s.script := rfl
@[simp] theorem State.writeStatus_scriptPos (s : State) (v : Word) : (s.writeStatus v).scriptPos = s.scriptPos := rfl
@[simp] theorem State.writeStatus_scriptFailed (s : State) (v : Word) : (s.writeStatus v).scriptFailed = s.scriptFailed := rfl
@[simp] theorem State.writeStatus_records (s : State) (v : Word) : (s.writeStatus v).records = s.records := rfl
@[simp] theorem State.writeStatus_turns (s : State) (v : Word) : (s.writeStatus v).turns = s.turns := rfl
@[simp] theorem State.writeStatus_resets (s : State) (v : Word) : (s.writeStatus v).resets = s.resets := rfl

end Sys2Proof.Machine
end

