-- ==== Sys2Proof/Laws/Bytes.lean ====
section
/-! SUPPORT. The byte views: bytes of a word and a word of bytes are inverse (20_memory.md R75), and `AesState.at` reads what
`AesState.build` put there. -/

namespace Sys2Proof.Machine

@[simp] theorem AesState.at_build (f : Fin 4 → Fin 4 → Byte) (r c : Fin 4) : (AesState.build f).at r c = f r c := by
  fin_cases r <;> fin_cases c <;> rfl

theorem AesState.build_at (m : AesState) : AesState.build m.at = m := rfl

/-- Two matrices with the same bytes are the same. -/
theorem AesState.eq_of_at {m m' : AesState} (h : ∀ r c, m.at r c = m'.at r c) : m = m' := by
  rw [← AesState.build_at m, ← AesState.build_at m']
  congr 1
  funext r c
  exact h r c

/-- A bit of a byte of a word. -/
theorem getLsbD_wordByte (w : Word) (r : Fin 4) (i : Nat) :
    (wordByte w r).getLsbD i = (decide (i < 8) && w.getLsbD (24 - 8 * r.val + i)) := by
  simp [wordByte]

/-- A bit of a word made of bytes. -/
theorem getLsbD_wordOfBytes (a0 a1 a2 a3 : Byte) (i : Nat) :
    (wordOfBytes a0 a1 a2 a3).getLsbD i =
      if i < 8 then a3.getLsbD i
      else if i < 16 then a2.getLsbD (i - 8)
      else if i < 24 then a1.getLsbD (i - 16)
      else decide (i < 32) && a0.getLsbD (i - 24) := by
  simp only [wordOfBytes, BitVec.getLsbD_or, BitVec.getLsbD_shiftLeft, BitVec.getLsbD_setWidth]
  rcases Nat.lt_or_ge i 8 with h | h
  · simp [h, show i < 16 by omega, show i < 24 by omega, show i < 32 by omega]
  rcases Nat.lt_or_ge i 16 with h2 | h2
  · simp [h2, show ¬ i < 8 by omega, show i < 24 by omega, show i < 32 by omega, BitVec.getLsbD_of_ge a3 i h]
    omega
  rcases Nat.lt_or_ge i 24 with h3 | h3
  · simp [h3, show ¬ i < 8 by omega, show ¬ i < 16 by omega, show i < 32 by omega, BitVec.getLsbD_of_ge a3 i h,
      BitVec.getLsbD_of_ge a2 (i - 8) (by omega)]
    omega
  · simp [show ¬ i < 8 by omega, show ¬ i < 16 by omega, show ¬ i < 24 by omega, BitVec.getLsbD_of_ge a3 i h,
      BitVec.getLsbD_of_ge a2 (i - 8) (by omega), BitVec.getLsbD_of_ge a1 (i - 16) (by omega)]
    rcases Nat.lt_or_ge i 32 with h4 | h4
    · simp [h4]; omega
    · simp [show ¬ i < 32 by omega]

end Sys2Proof.Machine
end

