-- ==== Sys2Proof/Laws/Ops.lean ====
section
/-! SUPPORT. What each shared operation can do, said once: issue, the commands' CMD writes, the round-key store, and the bus. -/

namespace Sys2Proof.Machine

/-! ### Issue -/

theorem issueChecked_busy {checks : List (Bool × ErrCode)} {acc : State → State} {s : State} (h : s.busy = true) :
    issueChecked checks acc s = .next (s.cmdError .busy) := by
  simp [issueChecked, firstError, h]

theorem issueChecked_error {checks : List (Bool × ErrCode)} {acc : State → State} {s : State} {e : ErrCode}
    (h : s.busy = false) (he : firstError checks = some e) :
    issueChecked checks acc s = .next (s.cmdError e) := by
  simp [issueChecked, firstError, h, he]

theorem issueChecked_ok {checks : List (Bool × ErrCode)} {acc : State → State} {s : State}
    (h : s.busy = false) (he : firstError checks = none) : issueChecked checks acc s = .next (acc s) := by
  simp [issueChecked, firstError, h, he]

/-- Everything issue of a command can do: a rejection, or, when idle and with every check passed, the acceptance. -/
theorem issueChecked_cases {checks : List (Bool × ErrCode)} {acc : State → State} {s t : State}
    (h : issueChecked checks acc s = .next t) :
    (s.busy = true ∧ t = s.cmdError .busy) ∨
    (s.busy = false ∧ ∃ e, firstError checks = some e ∧ t = s.cmdError e) ∨
    (s.busy = false ∧ firstError checks = none ∧ t = acc s) := by
  cases hb : s.busy with
  | true =>
    rw [issueChecked_busy hb] at h
    exact .inl ⟨rfl, by injection h with h; exact h.symm⟩
  | false =>
    cases he : firstError checks with
    | some e =>
      rw [issueChecked_error hb he] at h
      exact .inr (.inl ⟨rfl, e, rfl, by injection h with h; exact h.symm⟩)
    | none =>
      rw [issueChecked_ok hb he] at h
      exact .inr (.inr ⟨rfl, rfl, by injection h with h; exact h.symm⟩)

theorem issueChecked_next (checks : List (Bool × ErrCode)) (acc : State → State) (s : State) :
    ∃ t, issueChecked checks acc s = .next t := by
  unfold issueChecked
  split <;> exact ⟨_, rfl⟩

/-- The checks a command makes after BUSY and legality, in order (30_encoding.md R104). -/
def commandChecks (i : Instr) (s : State) : List (Bool × ErrCode) :=
  match i with
  | .kexp => [(!keylenOk s.keylen, .malformedKey)]
  | .enc => [(!s.schedValid, .noSchedule), (!dinlenOk s.dinlen, .malformedBlock)]
  | .dec => [(!s.schedValid, .noSchedule), (!dinlenOk s.dinlen, .malformedBlock)]
  | .load => [(!dinlenOk s.dinlen, .malformedBlock)]
  | .ark n => [(!s.schedValid, .noSchedule), (decide (n > s.nr.toNat), .badRoundIndex)]
  | .nop => []
  | .store => []
  | .sb => []
  | .isb => []
  | .sr => []
  | .isr => []
  | .mc => []
  | .imc => []
  | .gfmul => []
  | .sbox => []
  | .isbox => []

/-- What a command's accept does (30_encoding.md R105). -/
def commandAccept (i : Instr) : State → State :=
  match i with
  | .kexp => acceptKexp
  | .enc => acceptEnc
  | .dec => acceptDec
  | .load => acceptLoad
  | .ark n => acceptArk n
  | .nop => State.accept .nop .prim
  | .store => State.accept .store .prim
  | .sb => State.accept .sb .prim
  | .isb => State.accept .isb .prim
  | .sr => State.accept .sr .prim
  | .isr => State.accept .isr .prim
  | .mc => State.accept .mc .prim
  | .imc => State.accept .imc .prim
  | .gfmul => fun s => s.latchGfop.accept .gfmul .prim
  | .sbox => fun s => s.latchGfop.accept .sbox .prim
  | .isbox => fun s => s.latchGfop.accept .isbox .prim

/-- Every command's CMD write is the one issue procedure with its checks and its acceptance. -/
theorem exec_eq_issueChecked (i : Instr) (s : State) :
    exec i s = issueChecked (commandChecks i s) (commandAccept i) s := by
  cases i <;> rfl

/-- Every acceptance makes the engine busy with the command's opcode and clears DONE, and touches neither the error record nor
the host's side. -/
theorem commandAccept_lifecycle (i : Instr) (s : State) :
    (commandAccept i s).busy = true ∧ (commandAccept i s).done = false ∧
    (commandAccept i s).opc = Opcode.ofInstr i ∧ (commandAccept i s).err = s.err ∧
    (commandAccept i s).errcode = s.errcode ∧ (commandAccept i s).rstN = s.rstN ∧
    (commandAccept i s).answer = s.answer ∧ (commandAccept i s).script = s.script ∧
    (commandAccept i s).scriptPos = s.scriptPos ∧ (commandAccept i s).turns = s.turns := by
  cases i <;> simp [commandAccept, acceptKexp, acceptEnc, acceptDec, acceptLoad, acceptArk, Opcode.ofInstr]

/-- The checks raise only the codes of 60_exceptions.md R260 that a legal command can earn. -/
theorem firstError_commandChecks_ne {i : Instr} {s : State} {e : ErrCode}
    (h : firstError (commandChecks i s) = some e) : e ≠ .none ∧ e ≠ .malformedWord := by
  cases i <;> simp only [commandChecks, firstError] at h <;> (repeat' split at h) <;> simp_all <;> subst h <;> simp

/-- A CMD write of a legal command always answers a next state. -/
theorem exec_next (i : Instr) (s : State) : ∃ t, exec i s = .next t := by
  rw [exec_eq_issueChecked]
  exact issueChecked_next _ _ _

/-- Everything the CMD write of a word can do: a rejection with a code that is neither NONE nor MALFORMED_WORD, or the acceptance
of the command it decodes to, whose checks all passed. -/
theorem issue_cases {v : Word} {s t : State} (h : issue v s = .next t) :
    (∃ e, e ≠ .none ∧ e ≠ .malformedWord ∧ t = s.cmdError e) ∨
    (∃ i, decode v = .ok i ∧ s.busy = false ∧ firstError (commandChecks i s) = none ∧ t = commandAccept i s) := by
  unfold issue at h
  split at h
  · injection h with h
    exact .inl ⟨_, by simp, by simp, h.symm⟩
  · split at h
    · injection h with h
      exact .inl ⟨_, by simp, by simp, h.symm⟩
    · rename_i i hi
      rw [exec_eq_issueChecked] at h
      rcases issueChecked_cases h with ⟨-, rfl⟩ | ⟨-, e, he, rfl⟩ | ⟨hb, he, rfl⟩
      · exact .inl ⟨_, by simp, by simp, rfl⟩
      · exact .inl ⟨_, (firstError_commandChecks_ne he).1, (firstError_commandChecks_ne he).2, rfl⟩
      · exact .inr ⟨i, hi, hb, he, rfl⟩

theorem issue_next (v : Word) (s : State) : ∃ t, issue v s = .next t := by
  unfold issue
  split
  · exact ⟨_, rfl⟩
  · split
    · exact ⟨_, rfl⟩
    · exact exec_next _ _

/-! ### The round-key store -/

theorem rkBack?_eq_some {rk : Vector Word 60} {i d : Nat} {w : Word} :
    rkBack? rk i d = some w ↔ 0 < d ∧ d ≤ i ∧ rk[i - d]? = some w := by
  unfold rkBack? rkWord?
  split
  · rename_i h; simp [h.1, h.2]
  · rename_i h; simp only [not_and] at h; simp; intro h1 h2; exact absurd h2 (h h1)

theorem rkBack?_isSome {rk : Vector Word 60} {i d : Nat} (h0 : 0 < d) (h1 : d ≤ i) (h2 : i ≤ 60) :
    ∃ w, rkBack? rk i d = some w := by
  refine ⟨rk[i - d], ?_⟩
  rw [rkBack?_eq_some]
  exact ⟨h0, h1, by simp [show i - d < 60 by omega]⟩

theorem roundKey?_isSome {rk : Vector Word 60} {n : Nat} (h : n ≤ 14) : ∃ k, roundKey? rk n = some k := by
  unfold roundKey?
  rw [dif_pos (by omega)]
  exact ⟨_, rfl⟩

/-- Two stores that agree on the words of a round key have the same round key. -/
theorem roundKey?_congr {rk rk' : Vector Word 60} {n : Nat} (h : ∀ j, j < 4 * n + 4 → rk[j]? = rk'[j]?) :
    roundKey? rk n = roundKey? rk' n := by
  unfold roundKey?
  split
  · rename_i hn
    have e : ∀ j (hj : j < 60), j < 4 * n + 4 → rk[j] = rk'[j] := by
      intro j hj hj2
      have := h j hj2
      simpa [hj] using this
    rw [e (4 * n) (by omega) (by omega), e (4 * n + 1) (by omega) (by omega), e (4 * n + 2) (by omega) (by omega),
      e (4 * n + 3) (by omega) (by omega)]
  · rfl

end Sys2Proof.Machine
end

