-- ==== Sys2Proof/Laws/Field.lean ====
section
/-! SUPPORT. The multiplier's loop is linear over XOR in each operand and in its accumulator (40_gf_arith.md R130). -/

namespace Sys2Proof.Machine

/-- The accumulator only adds: a loop started from `p` is `p` XOR the loop started from 0. -/
theorem gfLoop_acc (n : Nat) : ∀ a b p : Byte, gfLoop n a b p = p ^^^ gfLoop n a b 0 := by
  induction n with
  | zero => intro a b p; simp [gfLoop]
  | succ n ih =>
    intro a b p
    simp only [gfLoop]
    rw [ih _ _ (if b.getLsbD 0 = true then p ^^^ a else p), ih _ _ (if b.getLsbD 0 = true then 0 ^^^ a else 0)]
    split <;> simp [BitVec.xor_assoc]

/-- A double XOR cancels across a sum of two. -/
theorem xor_cross (x y z : Byte) : (z ^^^ x) ^^^ (z ^^^ y) = x ^^^ y := by
  rw [show (z ^^^ x) ^^^ (z ^^^ y) = (z ^^^ z) ^^^ (x ^^^ y) by ac_rfl]
  simp

theorem gfShift_xor (a b : Byte) : gfShift (a ^^^ b) = gfShift a ^^^ gfShift b := by
  have hs : (a ^^^ b) <<< 1 = (a <<< 1) ^^^ (b <<< 1) := by
    apply BitVec.eq_of_getLsbD_eq
    intro i hi
    cases i with
    | zero => simp
    | succ i => simp [hi]
  unfold gfShift
  rw [hs, BitVec.getLsbD_xor]
  cases a.getLsbD 7 <;> cases b.getLsbD 7 <;> simp
  · ac_rfl
  · ac_rfl
  · rw [show a <<< 1 ^^^ 27#8 ^^^ (b <<< 1 ^^^ 27#8) = (27#8 ^^^ a <<< 1) ^^^ (27#8 ^^^ b <<< 1) by ac_rfl, xor_cross]

theorem gfLoop_xor_right (n : Nat) : ∀ a b c : Byte, gfLoop n a (b ^^^ c) 0 = gfLoop n a b 0 ^^^ gfLoop n a c 0 := by
  induction n with
  | zero => intro a b c; simp [gfLoop]
  | succ n ih =>
    intro a b c
    have hs : (b ^^^ c) >>> 1 = (b >>> 1) ^^^ (c >>> 1) := by
      apply BitVec.eq_of_getLsbD_eq
      intro i hi
      simp
    simp only [gfLoop]
    rw [gfLoop_acc n _ _ (if (b ^^^ c).getLsbD 0 = true then 0 ^^^ a else 0),
      gfLoop_acc n _ (b >>> 1) (if b.getLsbD 0 = true then 0 ^^^ a else 0),
      gfLoop_acc n _ (c >>> 1) (if c.getLsbD 0 = true then 0 ^^^ a else 0), hs, ih, BitVec.getLsbD_xor]
    cases b.getLsbD 0 <;> cases c.getLsbD 0 <;> simp
    · ac_rfl
    · ac_rfl
    · rw [xor_cross]

theorem gfLoop_xor_left (n : Nat) : ∀ a b c : Byte, gfLoop n (a ^^^ b) c 0 = gfLoop n a c 0 ^^^ gfLoop n b c 0 := by
  induction n with
  | zero => intro a b c; simp [gfLoop]
  | succ n ih =>
    intro a b c
    simp only [gfLoop]
    rw [gfLoop_acc n _ _ (if c.getLsbD 0 = true then 0 ^^^ (a ^^^ b) else 0),
      gfLoop_acc n (gfShift a) _ (if c.getLsbD 0 = true then 0 ^^^ a else 0),
      gfLoop_acc n (gfShift b) _ (if c.getLsbD 0 = true then 0 ^^^ b else 0), gfShift_xor, ih]
    split <;> simp
    ac_rfl

end Sys2Proof.Machine
end

