-- ==== Sys2Proof/Laws/Invariant.lean ====
section
/-! SUPPORT. The invariant, transition by transition: what each shared operation does to it, and the inversion of a KEXP step. The statement
that every step of the machine keeps it is an obligation; these are its parts. -/

namespace Sys2Proof.Machine

theorem Variant.bounds {nk nr : BitVec 4} (h : Variant nk nr) :
    4 ≤ nk.toNat ∧ nk.toNat ≤ 8 ∧ nr.toNat = nk.toNat + 6 ∧ nr.toNat ≤ 14 := by
  rcases h with ⟨rfl, rfl⟩ | ⟨rfl, rfl⟩ | ⟨rfl, rfl⟩ <;> decide

/-- The host's and the environment's fields do not matter to the invariant. -/
theorem Inv.env {s : State} (h : Inv s) (a : Option BusAnswer) (sc : List HostStmt) (p : Nat) (f : Bool)
    (r : List Word) (u : List Turn) :
    Inv { s with answer := a, script := sc, scriptPos := p, scriptFailed := f, records := r, turns := u } := by
  exact { h with
    cipher_running := h.cipher_running
    held := fun hr => by
      have := h.held hr
      generalize s.answer = a1 at this
      rw [this]
      rfl }

/-- A schedule word depends only on the words up to it. -/
theorem scheduleWordOk_congr {nk : Nat} {rk rk' : Vector Word 60} {i : Nat} (h : ∀ j, j ≤ i → rk[j]? = rk'[j]?) :
    scheduleWordOk nk rk i = scheduleWordOk nk rk' i := by
  have hb : ∀ d, rkBack? rk i d = rkBack? rk' i d := by
    intro d; unfold rkBack? rkWord?; rw [h (i - d) (by omega)]
  unfold scheduleWordOk
  rw [hb 1, hb nk]
  simp only [rkWord?, h i (le_refl _)]

theorem scheduleUpTo_congr {nk n : Nat} {rk rk' : Vector Word 60} (h : ∀ j, j < n → rk[j]? = rk'[j]?)
    (hs : ScheduleUpTo nk n rk) : ScheduleUpTo nk n rk' := by
  intro i hi hk
  rw [← scheduleWordOk_congr (rk := rk) (fun j hj => h j (by omega))]
  exact hs i hi hk

/-- Everything a KEXP step that answers a next state did (41_key_schedule.md R167). -/
theorem engineKexp_cases {s t : State} (h : engineKexp s = .next t) :
    ∃ prev back temp, ∃ hi : s.kidx.toNat < 60,
      rkBack? s.rk s.kidx.toNat 1 = some prev ∧ rkBack? s.rk s.kidx.toNat s.nk.toNat = some back ∧
      scheduleTemp? s.nk.toNat s.kidx.toNat prev = some temp ∧
      ((s.kidx.toNat + 1 = scheduleWords s.nr.toNat ∧
        t = State.complete { s with
          rk := s.rk.set s.kidx.toNat (back ^^^ temp), kidx := BitVec.ofNat 6 (s.kidx.toNat + 1), schedValid := true }) ∨
       (s.kidx.toNat + 1 ≠ scheduleWords s.nr.toNat ∧
        t = { s with rk := s.rk.set s.kidx.toNat (back ^^^ temp), kidx := BitVec.ofNat 6 (s.kidx.toNat + 1) })) := by
  unfold engineKexp at h
  simp only at h
  split at h
  · rename_i prev back h1 h2
    split at h
    · rename_i temp h3
      split at h
      · rename_i hi
        refine ⟨prev, back, temp, hi, h1, h2, h3, ?_⟩
        split at h
        · rename_i he; injection h with h; exact .inl ⟨he, h.symm⟩
        · rename_i he; injection h with h; exact .inr ⟨he, h.symm⟩
      · cases h
    · cases h
  · cases h

/-- One more word by the loop body extends the schedule by one word. -/
theorem scheduleUpTo_set {nk i : Nat} {rk : Vector Word 60} {prev back temp : Word} (hi : i < 60)
    (h1 : rkBack? rk i 1 = some prev) (h2 : rkBack? rk i nk = some back)
    (h3 : scheduleTemp? nk i prev = some temp) (hs : ScheduleUpTo nk i rk) :
    ScheduleUpTo nk (i + 1) (rk.set i (back ^^^ temp)) := by
  have hne : ∀ j, j ≠ i → (rk.set i (back ^^^ temp))[j]? = rk[j]? := by
    intro j hj; rw [Vector.getElem?_set]; simp [Ne.symm hj]
  intro j hj hk
  rcases Nat.lt_or_ge j i with hlt | hge
  · rw [scheduleWordOk_congr (rk' := rk) (fun l hl => hne l (by omega))]
    exact hs j hlt hk
  · obtain rfl : j = i := by omega
    have hb : ∀ d w, rkBack? rk j d = some w → rkBack? (rk.set j (back ^^^ temp)) j d = some w := by
      intro d w hw
      rw [rkBack?_eq_some] at hw ⊢
      exact ⟨hw.1, hw.2.1, by rw [hne _ (by omega)]; exact hw.2.2⟩
    unfold scheduleWordOk
    rw [hb 1 _ h1, hb nk _ h2]
    simp only [h3, rkWord?]
    simp [hi]

theorem engineKexp_inv {s t : State} (h : Inv s) (hb : s.busy = true) (hp : s.phase = .kexp) (he : engineKexp s = .next t) : Inv t := by
  obtain ⟨prev, back, temp, hi, h1, h2, h3, ht⟩ := engineKexp_cases he
  obtain ⟨ho, hv, hvar, hle, hlt, hsch⟩ := h.kexp_running hp
  have hsch' := scheduleUpTo_set hi h1 h2 h3 hsch
  have hk : (BitVec.ofNat 6 (s.kidx.toNat + 1)).toNat = s.kidx.toNat + 1 := by simp; omega
  have hr : s.rstN = true := by
    by_contra hc
    have := h.held (by simpa using hc)
    rw [this] at hb; exact absurd hb (by simp [State.heldReset, State.atReset])
  have hvb := hvar.bounds
  have h64 : scheduleWords s.nr.toNat ≤ 60 := by unfold scheduleWords; omega
  rcases ht with ⟨hlast, rfl⟩ | ⟨hlast, rfl⟩
  · constructor
    · simp [State.complete]
    · exact h.err_iff
    · exact h.code_raised
    · simp [State.complete]
    · exact .inr hvar
    · exact h.round_range
    · simp only [State.complete, hk]; omega
    · intro _
      refine ⟨hvar, ?_, ?_⟩
      · simp only [State.complete, hk]; exact hlast
      · simp only [State.complete]; rw [← hlast]; exact hsch'
    · simp [State.complete]
    · simp [State.complete, Phase.isCipher]
    · simp [State.complete]
    · intro hf; exact absurd hf (by simp [State.complete, hr])
  · constructor
    · simp [hb, hp]
    · exact h.err_iff
    · exact h.code_raised
    · exact h.done_idle
    · exact .inr hvar
    · exact h.round_range
    · simp only [hk]; omega
    · intro hf; exact absurd hf (by simp [hv])
    · intro _
      refine ⟨ho, hv, hvar, ?_, ?_, ?_⟩
      · simp only [hk]; omega
      · simp only [hk]; omega
      · simp only [hk]; exact hsch'
    · simp [hp, Phase.isCipher]
    · simp [hp]
    · intro hf; exact absurd hf (by simp [hr])

/-- Completion of a command that wrote S, DOUT or GFRES keeps the invariant. -/
theorem finish_inv {s : State} (h : Inv s) (hr : s.rstN = true) (m : AesState) (d : Vector Word 4) (g : Byte) :
    Inv (State.complete { s with st := m, dout := d, gfres := g }) := by
  constructor <;> simp [State.complete, Phase.isCipher]
  · exact h.err_iff
  · exact h.code_raised
  · exact h.variant
  · exact h.round_range
  · exact h.kidx_range
  · exact h.valid_schedule
  · simp [hr]

/-- A busy block is not held in reset. -/
theorem busy_rstN {s : State} (h : Inv s) (hb : s.busy = true) : s.rstN = true := by
  by_contra hc
  have := h.held (by simpa using hc)
  rw [this] at hb; exact absurd hb (by simp [State.heldReset, State.atReset])

theorem prim_inv {s t : State} (h : Inv s) (hb : s.busy = true) (he : primStep s = .next t) : Inv t := by
  have hr := busy_rstN h hb
  unfold primStep at he
  split at he <;> first | cases he; done | skip
  all_goals first
    | (simp only [engineNop, engineLoad, engineStore, engineSb, engineIsb, engineSr, engineIsr, engineMc, engineImc, engineGfmul, engineSbox, engineIsbox] at he
       injection he with he; subst he; exact finish_inv h hr _ _ _)
    | skip
  unfold engineArk at he
  split at he
  · injection he with he; subst he; exact finish_inv h hr _ _ _
  · cases he

/-- A move between phases of a cipher command keeps the invariant, if the new phase's sequencing facts hold. -/
theorem move_inv {s : State} (h : Inv s) (hb : s.busy = true) (hc : s.phase.isCipher = true) (m : AesState) (r : BitVec 4) (p : Phase)
    (hpc : p.isCipher = true) (hrr : r.toNat ≤ s.nr.toNat) (hok : cipherPhaseOk { s with round := r, phase := p }) :
    Inv { s with st := m, round := r, phase := p } := by
  have hr := busy_rstN h hb
  obtain ⟨hv, -, -⟩ := h.cipher_running hc
  have hvs := h.valid_schedule hv
  have := hvs.1.bounds
  have hpi : p ≠ .idle := by rintro rfl; simp [Phase.isCipher] at hpc
  have hpk : p ≠ .kexp := by rintro rfl; simp [Phase.isCipher] at hpc
  have hpp : p ≠ .prim := by rintro rfl; simp [Phase.isCipher] at hpc
  constructor
  · simp [hb, hpi]
  · exact h.err_iff
  · exact h.code_raised
  · exact h.done_idle
  · exact h.variant
  · simp; omega
  · exact h.kidx_range
  · exact h.valid_schedule
  · intro hp; exact absurd hp hpk
  · intro _; exact ⟨hv, hrr, hok⟩
  · intro hp; exact absurd hp hpp
  · intro hp; simp [hr] at hp

theorem phaseArk_inv {s t : State} (h : Inv s) (hb : s.busy = true) (hp : s.phase = .ark) (he : phaseArk s = .next t) : Inv t := by
  have hr := busy_rstN h hb
  have hc : s.phase.isCipher = true := by rw [hp]; rfl
  obtain ⟨hv, hle, hok⟩ := h.cipher_running hc
  have hb4 := (h.valid_schedule hv).1.bounds
  unfold cipherPhaseOk at hok; simp only [hp] at hok
  unfold phaseArk at he
  split at he
  · rename_i k hk
    injection he with he; subst he
    unfold State.afterArk State.withMatrix State.finishCipher
    simp only
    split
    · rename_i hd
      have hopc : s.opc = .enc := by rcases hok with ⟨-, ho⟩ | ⟨hd2, -⟩; exact ho; simp [hd] at hd2
      split
      · exact finish_inv h hr _ _ _
      · rename_i hne
        have hne' : s.round.toNat ≠ s.nr.toNat := fun e => hne (BitVec.eq_of_toNat_eq e)
        have e1 : (s.round + 1).toNat = s.round.toNat + 1 := by rw [BitVec.toNat_add]; simp; omega
        refine move_inv h hb hc _ _ .sb rfl (by omega) ?_
        refine ⟨hd, hopc, ?_⟩
        intro e; have := congrArg BitVec.toNat (show s.round + 1 = 0 from e); rw [e1] at this; simp at this
    · rename_i hd
      have hd' : s.dir = true := by simpa using hd
      have hopc : s.opc = .dec := by rcases hok with ⟨hd2, -⟩ | ⟨-, ho⟩; simp [hd'] at hd2; exact ho
      split
      · exact finish_inv h hr _ _ _
      · rename_i h0
        have h0' : s.round.toNat ≠ 0 := fun e => h0 (BitVec.eq_of_toNat_eq (by simpa using e))
        split
        · rename_i hn
          have e1 : (s.nr - 1).toNat = s.nr.toNat - 1 := by rw [BitVec.toNat_sub]; simp; omega
          exact move_inv h hb hc _ _ .isr rfl (by omega) ⟨hd', hopc, by simp only [e1]; omega⟩
        · rename_i hn
          have hn' : s.round.toNat ≠ s.nr.toNat := fun e => hn (BitVec.eq_of_toNat_eq e)
          exact move_inv h hb hc _ _ .imc rfl hle ⟨hd', hopc, h0, by simp only; omega⟩
  · cases he

theorem engineStep_inv {s t : State} (h : Inv s) (he : engineStep s = .next t) : Inv t := by
  unfold engineStep at he
  split at he
  · rename_i hb
    unfold phaseStep at he
    split at he
    · cases he
    · rename_i hp; exact engineKexp_inv h hb hp he
    · rename_i hp; exact phaseArk_inv h hb hp he
    all_goals (rename_i hp)
    case h_10 => exact prim_inv h hb he
    all_goals
      have hc : s.phase.isCipher = true := by rw [hp]; rfl
      obtain ⟨hv, hle, hok⟩ := h.cipher_running hc
      have hb4 := (h.valid_schedule hv).1.bounds
      unfold cipherPhaseOk at hok; simp only [hp] at hok
    · injection he with he; subst he
      exact move_inv h hb hc _ s.round .sr rfl hle hok
    · injection he with he; subst he
      by_cases hn : s.round = s.nr
      · simp only [hn, if_true]
        have := move_inv h hb hc (shiftRows s.st) s.round .ark rfl hle (.inl ⟨hok.1, hok.2.1⟩)
        rw [hn] at this; exact this
      · simp only [hn, if_false]
        have hn' : s.round.toNat ≠ s.nr.toNat := fun e => hn (BitVec.eq_of_toNat_eq e)
        exact move_inv h hb hc (shiftRows s.st) s.round .mc rfl hle ⟨hok.1, hok.2.1, hok.2.2, by simp only; omega⟩
    · injection he with he; subst he
      exact move_inv h hb hc _ s.round .ark rfl hle (.inl ⟨hok.1, hok.2.1⟩)
    · injection he with he; subst he
      exact move_inv h hb hc _ s.round .isb rfl hle hok
    · injection he with he; subst he
      exact move_inv h hb hc _ s.round .ark rfl hle (.inr ⟨hok.1, hok.2.1⟩)
    · unfold phaseImc at he
      split at he
      · cases he
      · rename_i h0
        injection he with he; subst he
        have h0' : s.round.toNat ≠ 0 := fun e => h0 (BitVec.eq_of_toNat_eq (by simpa using e))
        have e1 : (s.round - 1).toNat = s.round.toNat - 1 := by rw [BitVec.toNat_sub]; simp; omega
        exact move_inv h hb hc _ _ .isr rfl (by omega) ⟨hok.1, hok.2.1, by simp only [e1]; omega⟩
  · injection he with he; subst he; exact h

theorem cmdError_inv {s : State} (h : Inv s) (hr : s.rstN = true) {e : ErrCode} (h1 : e ≠ .none) (h2 : e ≠ .malformedWord) : Inv (s.cmdError e) := by
  constructor
  · exact h.busy_iff
  · simp [h1]
  · simpa using h2
  · exact h.done_idle
  · exact h.variant
  · exact h.round_range
  · exact h.kidx_range
  · exact h.valid_schedule
  · exact h.kexp_running
  · exact h.cipher_running
  · exact h.prim_running
  · intro hf; simp [hr] at hf

theorem prim_accept_inv {s : State} (h : Inv s) (hr : s.rstN = true) (op : Opcode) (hop : op.isSingleStep = true) (m : AesState) (a b : Byte) (r : BitVec 4)
   (hrr : r.toNat ≤ 14) (hark : op = .ark → s.schedValid = true ∧ r.toNat ≤ s.nr.toNat) :
   Inv (State.accept op .prim { s with st := m, opa := a, opb := b, round := r }) := by
  constructor
  · simp
  · exact h.err_iff
  · exact h.code_raised
  · simp
  · exact h.variant
  · exact hrr
  · exact h.kidx_range
  · exact h.valid_schedule
  · simp
  · simp [Phase.isCipher]
  · intro _; exact ⟨hop, hark⟩
  · intro hf; simp [hr] at hf

theorem cipher_accept_inv {s : State} (h : Inv s) (hr : s.rstN = true) (hv : s.schedValid = true) (op : Opcode) (m : AesState) (r : BitVec 4) (d : Bool)
   (hrr : r.toNat ≤ s.nr.toNat) (hark : (d = false ∧ op = .enc) ∨ (d = true ∧ op = .dec)) :
   Inv (State.accept op .ark { s with st := m, round := r, dir := d }) := by
  have := (h.valid_schedule hv).1.bounds
  constructor
  · simp
  · exact h.err_iff
  · exact h.code_raised
  · simp
  · exact h.variant
  · simp; omega
  · exact h.kidx_range
  · exact h.valid_schedule
  · simp
  · intro _; exact ⟨hv, hrr, hark⟩
  · simp
  · intro hf; simp [hr] at hf

theorem kexp_accept_inv {s : State} (h : Inv s) (hr : s.rstN = true) (hk : keylenOk s.keylen = true) : Inv (acceptKexp s) := by
  have hc : s.keylen = 16 ∨ s.keylen = 24 ∨ s.keylen = 32 := by
    simp [keylenOk] at hk; tauto
  have hvar : Variant (BitVec.ofNat 4 (nkOfKeylen s.keylen)) (BitVec.ofNat 4 (nrOfNk (nkOfKeylen s.keylen))) := by
    rcases hc with e | e | e <;> rw [e] <;> decide
  have hkk : (BitVec.ofNat 6 (nkOfKeylen s.keylen)).toNat = (BitVec.ofNat 4 (nkOfKeylen s.keylen)).toNat := by
    rcases hc with e | e | e <;> rw [e] <;> decide
  have := hvar.bounds
  constructor
  · simp [acceptKexp]
  · exact h.err_iff
  · exact h.code_raised
  · simp [acceptKexp]
  · exact .inr hvar
  · exact h.round_range
  · simp only [acceptKexp, State.accept, hkk]; omega
  · simp [acceptKexp]
  · intro _
    refine ⟨rfl, rfl, hvar, ?_, ?_, ?_⟩
    · simp only [acceptKexp, State.accept, hkk]; exact le_refl _
    · simp only [acceptKexp, State.accept, hkk, scheduleWords]; omega
    · simp only [acceptKexp, State.accept, hkk]; intro i h1 h2; omega
  · simp [acceptKexp, Phase.isCipher]
  · simp [acceptKexp]
  · intro hf; simp [acceptKexp, hr] at hf

theorem firstError_none {l : List (Bool × ErrCode)} (h : firstError l = none) : ∀ x ∈ l, x.1 = false := by
  induction l with
  | nil => simp
  | cons a l ih =>
    rcases a with ⟨b, c⟩
    simp only [firstError] at h
    cases b <;> simp_all

theorem accept_inv {s : State} (h : Inv s) (hr : s.rstN = true) (i : Instr) (hc : firstError (commandChecks i s) = none) :
    Inv (commandAccept i s) := by
  have hall := firstError_none hc
  have r14 := h.round_range
  cases i with
  | kexp => exact kexp_accept_inv h hr (by simpa [commandChecks] using hall)
  | enc => exact cipher_accept_inv h hr (by simp [commandChecks] at hall; exact hall.1) .enc _ 0 false (by simp) (.inl ⟨rfl, rfl⟩)
  | dec => exact cipher_accept_inv h hr (by simp [commandChecks] at hall; exact hall.1) .dec _ s.nr true (le_refl _) (.inr ⟨rfl, rfl⟩)
  | ark n =>
    simp [commandChecks] at hall
    have := (h.valid_schedule hall.1).1.bounds
    exact prim_accept_inv h hr .ark rfl s.st s.opa s.opb _ (by simp; omega) (fun _ => ⟨hall.1, by simp; omega⟩)
  | load => exact prim_accept_inv h hr .load rfl _ s.opa s.opb s.round r14 (by simp)
  | nop => exact prim_accept_inv h hr .nop rfl s.st s.opa s.opb s.round r14 (by simp)
  | store => exact prim_accept_inv h hr .store rfl s.st s.opa s.opb s.round r14 (by simp)
  | sb => exact prim_accept_inv h hr .sb rfl s.st s.opa s.opb s.round r14 (by simp)
  | isb => exact prim_accept_inv h hr .isb rfl s.st s.opa s.opb s.round r14 (by simp)
  | sr => exact prim_accept_inv h hr .sr rfl s.st s.opa s.opb s.round r14 (by simp)
  | isr => exact prim_accept_inv h hr .isr rfl s.st s.opa s.opb s.round r14 (by simp)
  | mc => exact prim_accept_inv h hr .mc rfl s.st s.opa s.opb s.round r14 (by simp)
  | imc => exact prim_accept_inv h hr .imc rfl s.st s.opa s.opb s.round r14 (by simp)
  | gfmul => exact prim_accept_inv h hr .gfmul rfl s.st s.gfa s.gfb s.round r14 (by simp)
  | sbox => exact prim_accept_inv h hr .sbox rfl s.st s.gfa s.gfb s.round r14 (by simp)
  | isbox => exact prim_accept_inv h hr .isbox rfl s.st s.gfa s.gfb s.round r14 (by simp)

theorem issue_inv {s t : State} (h : Inv s) (hr : s.rstN = true) {v : Word} (hi : issue v s = .next t) : Inv t := by
  rcases issue_cases hi with ⟨e, h1, h2, rfl⟩ | ⟨i, -, -, hc, rfl⟩
  · exact cmdError_inv h hr h1 h2
  · exact accept_inv h hr i hc

theorem writeReg_inv {s : State} (h : Inv s) (hr : s.rstN = true) (r : RegName) (v : Word) : Inv (writeReg r v s) := by
  cases r <;> first | exact h | skip
  case status =>
    constructor
    · exact h.busy_iff
    · simp only [writeReg, State.writeStatus_err, State.writeStatus_errcode]; split <;> simp [h.err_iff]
    · simp only [writeReg, State.writeStatus_errcode]; split <;> simp [h.code_raised]
    · simp only [writeReg, State.writeStatus_done, State.writeStatus_busy]; split
      · simp
      · exact h.done_idle
    · exact h.variant
    · exact h.round_range
    · exact h.kidx_range
    · exact h.valid_schedule
    · exact h.kexp_running
    · exact h.cipher_running
    · exact h.prim_running
    · intro hf; simp [writeReg, hr] at hf
  all_goals exact { h with
    cipher_running := h.cipher_running
    held := fun hf => by simp [writeReg, hr] at hf }

theorem hostRead_inv {s : State} (h : Inv s) (a n) : Inv (s.hostRead a n).2 := h.env _ _ _ _ _ _

theorem busWrite_inv {s t : State} (h : Inv s) {a n v} (hw : busWrite a n v s = .next t) : Inv t := by
  unfold busWrite at hw
  split at hw
  · split at hw
    · rename_i hr
      have h1 := h.env (some .okayWrite) s.script s.scriptPos s.scriptFailed s.records s.turns
      unfold writeAt at hw
      split at hw
      · exact issue_inv h1 hr hw
      · injection hw with hw; subst hw; exact writeReg_inv h1 hr _ _
      · injection hw with hw; subst hw; exact h1
    · injection hw with hw; subst hw; exact h.env _ _ _ _ _ _
  · injection hw with hw; subst hw; exact h.env _ _ _ _ _ _

theorem hostStmt_inv {s t : State} (h : Inv s) {st} (hw : hostStmt st s = .next t) : Inv t := by
  unfold hostStmt at hw
  split at hw
  · unfold busAccess at hw
    split at hw
    · exact busWrite_inv h hw
    · injection hw with hw; subst hw; exact h.env _ _ _ _ _ _
  · injection hw with hw; subst hw; exact h.env _ _ _ _ _ _
  · injection hw with hw; subst hw; exact h
  · simp only at hw
    split at hw
    · split at hw
      · injection hw with hw; subst hw; exact h.env _ _ _ _ _ _
      · cases hw
    · injection hw with hw; subst hw; exact h.env _ _ _ _ _ _

theorem assertReset_inv (s : State) : Inv s.assertReset := by
  constructor <;> simp [State.assertReset, State.atReset, Phase.isCipher, State.heldReset]

theorem driveReset_inv {s : State} (h : Inv s) (l : Bool) : Inv (s.driveReset l) := by
  unfold State.driveReset
  split
  · exact { h with cipher_running := h.cipher_running, held := fun hf => by simp at hf }
  · split
    · exact assertReset_inv s
    · exact h

end Sys2Proof.Machine
end

