-- ==== Sys2Proof/Laws/Engine.lean ====
section
/-! SUPPORT. Progress: from a good state the engine steps and comes one step nearer to completion; the bus and the host always
answer. -/

namespace Sys2Proof.Machine

/-- A schedule word below 4(Nr+1) of a variant always has its `temp`: RCON has every entry it asks for (R168). -/
theorem scheduleTemp_isSome {nk i : Nat} (prev : Word) (h : (nk = 4 ∧ i < 44) ∨ (nk = 6 ∧ i < 52) ∨ (nk = 8 ∧ i < 60)) (hi : nk ≤ i) : ∃ t, scheduleTemp? nk i prev = some t := by
  unfold scheduleTemp?
  split
  · have h1 : 1 ≤ i / nk ∧ i / nk ≤ 10 := by
      rcases h with ⟨rfl, h⟩ | ⟨rfl, h⟩ | ⟨rfl, h⟩ <;> omega
    have : ∀ j, 1 ≤ j → j ≤ 10 → (rcon? j).isSome := by intro j h1 h2; interval_cases j <;> rfl
    obtain ⟨c, hc⟩ := Option.isSome_iff_exists.1 (this _ h1.1 h1.2)
    rw [hc]; exact ⟨_, rfl⟩
  · split <;> exact ⟨_, rfl⟩

/-- The schedule's `temp` is the loop body's, in the rule's own three cases (R164). -/
theorem scheduleTemp?_eq_some {nk i : Nat} {prev temp : Word} :
    scheduleTemp? nk i prev = some temp ↔ LoopBodyTemp nk i prev temp := by
  unfold scheduleTemp? LoopBodyTemp
  by_cases h : i % nk = 0
  · cases hc : rcon? (i / nk) with
    | none => simp [h]
    | some c => simp [h, eq_comm]
  · by_cases h2 : nk > 6 ∧ i % nk = 4
    · simp [h2, eq_comm]
    · simp only [h, if_false, false_implies, true_and, ne_eq, not_false_eq_true, true_implies, h2]
      constructor
      · intro e; injection e with e; exact ⟨fun a b => absurd ⟨a, b⟩ h2, e.symm⟩
      · rintro ⟨-, e⟩; rw [e]

/-- The words below 4(NR+1), variant by variant. -/
theorem Variant.range {nk nr : BitVec 4} (h : Variant nk nr) {i : Nat} (hi : i < scheduleWords nr.toNat) :
   (nk.toNat = 4 ∧ i < 44) ∨ (nk.toNat = 6 ∧ i < 52) ∨ (nk.toNat = 8 ∧ i < 60) := by
  rcases h with ⟨rfl, rfl⟩ | ⟨rfl, rfl⟩ | ⟨rfl, rfl⟩ <;> simp [scheduleWords] at hi ⊢ <;> omega

/-- A KEXP step with a word left to compute never faults. -/
theorem engineKexp_next {s : State} (hvar : Variant s.nk s.nr) (h1 : s.nk.toNat ≤ s.kidx.toNat) (h2 : s.kidx.toNat < scheduleWords s.nr.toNat) :
    ∃ t, engineKexp s = .next t := by
  have hb := hvar.bounds
  have h60 : s.kidx.toNat < 60 := by unfold scheduleWords at h2; omega
  obtain ⟨p, hp⟩ := rkBack?_isSome (rk := s.rk) (i := s.kidx.toNat) (d := 1) (by omega) (by omega) (by omega)
  obtain ⟨b, hbk⟩ := rkBack?_isSome (rk := s.rk) (i := s.kidx.toNat) (d := s.nk.toNat) (by omega) (by omega) (by omega)
  obtain ⟨t, ht⟩ := scheduleTemp_isSome p (hvar.range h2) h1
  unfold engineKexp
  simp only [hp, hbk, ht, h60, dif_pos]
  split <;> exact ⟨_, rfl⟩

/-- From a good state the engine always steps. -/
theorem engineStep_next {s : State} (h : Inv s) : ∃ t, engineStep s = .next t := by
  unfold engineStep
  split
  · rename_i hb
    have hni : s.phase ≠ .idle := fun hp => by have := h.busy_iff.2 hp; simp [hb] at this
    unfold phaseStep
    split
    · contradiction
    · rename_i hp
      obtain ⟨-, -, hv, h1, h2, -⟩ := h.kexp_running hp
      exact engineKexp_next hv h1 h2
    · rename_i hp
      obtain ⟨k, hk⟩ := roundKey?_isSome (rk := s.rk) (n := s.round.toNat) h.round_range
      unfold phaseArk; rw [hk]; exact ⟨_, rfl⟩
    case h_9 =>
      rename_i hp
      obtain ⟨-, -, hok⟩ := h.cipher_running (by rw [hp]; rfl)
      unfold cipherPhaseOk at hok; simp only [hp] at hok
      unfold phaseImc; rw [if_neg hok.2.2.1]; exact ⟨_, rfl⟩
    case h_10 =>
      rename_i hp
      obtain ⟨hs, -⟩ := h.prim_running hp
      unfold primStep
      split <;> rename_i ho <;> rw [ho] at hs <;> first | (exact ⟨_, rfl⟩) | (simp [Opcode.isSingleStep] at hs)
      obtain ⟨k, hk⟩ := roundKey?_isSome (rk := s.rk) (n := s.round.toNat) h.round_range
      unfold engineArk; rw [hk]; exact ⟨_, rfl⟩
    all_goals exact ⟨_, rfl⟩
  · exact ⟨_, rfl⟩

/-- A bus write always answers a next state. -/
theorem busWrite_next (a n v) (s : State) : ∃ t, busWrite a n v s = .next t := by
  unfold busWrite
  split
  · split
    · unfold writeAt
      split
      · exact issue_next _ _
      · exact ⟨_, rfl⟩
      · exact ⟨_, rfl⟩
    · exact ⟨_, rfl⟩
  · exact ⟨_, rfl⟩

/-- The statement the host fetches is one of the script. -/
theorem nextStmt_mem : ∀ (l : List HostStmt) (p : Nat) (st : HostStmt) (q : Nat), nextStmt l p = some (st, q) → st ∈ l := by
  intro l
  induction l with
  | nil => intro p st q h; simp [nextStmt] at h
  | cons a l ih =>
    intro p st q h
    cases a <;> simp only [nextStmt, Option.some.injEq, Prod.mk.injEq] at h
    case label => exact List.mem_cons_of_mem _ (ih _ _ _ h)
    all_goals (rw [← h.1]; simp)

/-- With every label defined, the host always steps. -/
theorem hostStep_next {s : State} (hl : labelsDefined s.script = true) : ∃ t, hostStep s = .next t := by
  unfold hostStep
  split
  · rename_i st p hf
    have hmem : st ∈ s.script := by
      unfold State.fetchStmt at hf
      split at hf
      · cases hf
      · exact List.mem_of_mem_drop (nextStmt_mem _ _ _ _ hf)
    unfold hostStmt
    split
    · unfold busAccess; split
      · exact busWrite_next _ _ _ _
      · exact ⟨_, rfl⟩
    · exact ⟨_, rfl⟩
    · exact ⟨_, rfl⟩
    · simp only
      split
      · unfold labelsDefined at hl
        have := List.all_eq_true.1 hl _ hmem
        simp only at this
        obtain ⟨q, hq⟩ := Option.isSome_iff_exists.1 this
        rw [hq]; exact ⟨_, rfl⟩
      · exact ⟨_, rfl⟩
  · exact ⟨_, rfl⟩

/-- An engine step of a running command either completes it, with one step left before, or takes one step off those left. -/
theorem stepsLeft_step {s t : State} (h : Inv s) (hb : s.busy = true) (he : engineStep s = .next t) :
    (t.busy = false ∧ t.done = true ∧ s.stepsLeft = 1) ∨ (t.busy = true ∧ s.stepsLeft = t.stepsLeft + 1 ∧ 0 < t.stepsLeft) := by
  unfold engineStep at he
  rw [if_pos hb] at he
  unfold phaseStep at he
  split at he
  · cases he
  · rename_i hp
    obtain ⟨prev, back, temp, hi, -, -, -, ht⟩ := engineKexp_cases he
    obtain ⟨-, -, hv, h1, h2, -⟩ := h.kexp_running hp
    have hb4 := hv.bounds
    have hk : (BitVec.ofNat 6 (s.kidx.toNat + 1)).toNat = s.kidx.toNat + 1 := by simp; omega
    rcases ht with ⟨hl, rfl⟩ | ⟨hl, rfl⟩
    · left; refine ⟨rfl, rfl, ?_⟩; simp only [State.stepsLeft, hp]; omega
    · right; refine ⟨hb, ?_, ?_⟩ <;> simp only [State.stepsLeft, hp, hk] <;> omega
  · rename_i hp
    obtain ⟨hv, hle, hok⟩ := h.cipher_running (by rw [hp]; rfl)
    have hb4 := (h.valid_schedule hv).1.bounds
    unfold cipherPhaseOk at hok; simp only [hp] at hok
    unfold phaseArk at he
    split at he
    · injection he with he; subst he
      unfold State.afterArk State.withMatrix State.finishCipher
      simp only
      split
      · rename_i hd
        split
        · rename_i hn; left; refine ⟨rfl, rfl, ?_⟩; simp [State.stepsLeft, hp, hd, hn]
        · rename_i hne
          have hne' : s.round.toNat ≠ s.nr.toNat := fun e => hne (BitVec.eq_of_toNat_eq e)
          have e1 : (s.round + 1).toNat = s.round.toNat + 1 := by rw [BitVec.toNat_add]; simp; omega
          right; refine ⟨hb, ?_, ?_⟩
          · simp only [State.stepsLeft, hp, hd, e1, if_true]; rw [if_neg hne']; omega
          · simp only [State.stepsLeft]; omega
      · rename_i hd
        split
        · rename_i h0; left; refine ⟨rfl, rfl, ?_⟩
          simp only [State.stepsLeft, hp]; rw [if_neg hd, if_neg (by simp [h0]; omega)]; simp [h0]
        · rename_i h0
          have h0' : s.round.toNat ≠ 0 := fun e => h0 (BitVec.eq_of_toNat_eq (by simpa using e))
          split
          · rename_i hn
            have e1 : (s.nr - 1).toNat = s.nr.toNat - 1 := by rw [BitVec.toNat_sub]; simp; omega
            right; refine ⟨hb, ?_, ?_⟩
            · simp only [State.stepsLeft, hp, e1]; rw [if_neg hd, if_pos (by rw [hn])]; omega
            · simp only [State.stepsLeft]; omega
          · rename_i hn
            have hn' : s.round.toNat ≠ s.nr.toNat := fun e => hn (BitVec.eq_of_toNat_eq e)
            right; refine ⟨hb, ?_, ?_⟩
            · simp only [State.stepsLeft, hp]; rw [if_neg hd, if_neg hn']
            · simp only [State.stepsLeft]; omega
    · cases he
  case h_10 =>
    rename_i hp
    left
    have hs1 : s.stepsLeft = 1 := by simp [State.stepsLeft, hp]
    unfold primStep at he
    split at he <;> first | cases he; done | skip
    all_goals first
      | (simp only [engineNop, engineLoad, engineStore, engineSb, engineIsb, engineSr, engineIsr, engineMc, engineImc, engineGfmul, engineSbox, engineIsbox] at he
         injection he with he; subst he; exact ⟨rfl, rfl, hs1⟩)
      | skip
    unfold engineArk at he
    split at he
    · injection he with he; subst he; exact ⟨rfl, rfl, hs1⟩
    · cases he
  all_goals
    rename_i hp
    obtain ⟨hv, hle, hok⟩ := h.cipher_running (by rw [hp]; rfl)
    have hb4 := (h.valid_schedule hv).1.bounds
    unfold cipherPhaseOk at hok; simp only [hp] at hok
    right
  · injection he with he; subst he; refine ⟨hb, ?_, ?_⟩ <;> simp only [State.stepsLeft, hp] <;> omega
  · injection he with he; subst he; refine ⟨hb, ?_, ?_⟩ <;> simp only [State.stepsLeft, hp] <;> split <;> rename_i hn <;> split at hn <;> simp_all
  · injection he with he; subst he; refine ⟨hb, ?_, ?_⟩ <;> simp only [State.stepsLeft, hp] <;> simp only [hok.1, if_true] <;> rw [if_neg (by omega)] <;> omega
  · injection he with he; subst he; refine ⟨hb, ?_, ?_⟩ <;> simp only [State.stepsLeft, hp] <;> omega
  · injection he with he; subst he; refine ⟨hb, ?_, ?_⟩ <;> simp only [State.stepsLeft, hp] <;> rw [if_neg (by simp [hok.1]), if_neg (by omega)] <;> omega
  · unfold phaseImc at he; rw [if_neg hok.2.2.1] at he
    injection he with he; subst he
    have h0' : s.round.toNat ≠ 0 := fun e => hok.2.2.1 (BitVec.eq_of_toNat_eq (by simpa using e))
    have e1 : (s.round - 1).toNat = s.round.toNat - 1 := by rw [BitVec.toNat_sub]; simp; omega
    refine ⟨hb, ?_, ?_⟩ <;> simp only [State.stepsLeft, hp, e1] <;> omega
end Sys2Proof.Machine
end

