-- ==== Sys2Proof/Laws/Bus.lean ====
section
/-! SUPPORT. The bus by register: where each register is, and what an accepted read or write of it does. -/

namespace Sys2Proof.Machine

/-- The map gives every register its offset (20_memory.md R76). -/
theorem regAt_offset (r : RegName) : regAt r.offset = some r := by
  cases r with
  | key k => revert k; decide
  | din k => revert k; decide
  | dout k => revert k; decide
  | statew k => revert k; decide
  | rkw k => revert k; decide
  | _ => rfl

/-- Every register is at a multiple of 4. -/
theorem busAccepts_offset (r : RegName) : busAccepts r.offset 4 = true := by
  cases r with
    | key k => revert k; decide
    | din k => revert k; decide
    | dout k => revert k; decide
    | statew k => revert k; decide
    | rkw k => revert k; decide
    | _ => rfl

/-- What a write of any register but CMD does. -/
theorem busWrite_reg {s : State} {r : RegName} {v : Word} (hr : r ≠ .cmd) :
    busWrite r.offset 4 v s = .next (if s.rstN then writeReg r v { s with answer := some .okayWrite }
      else { s with answer := some .okayWrite }) := by
  unfold busWrite writeAt
  rw [busAccepts_offset, regAt_offset]
  cases hs : s.rstN <;> cases r <;> simp_all

/-- What a read of a register answers. -/
theorem busRead_reg (s : State) (r : RegName) : busRead s r.offset 4 = .okayRead (regValue s r) := by
  unfold busRead; rw [busAccepts_offset, regAt_offset]; rfl

end Sys2Proof.Machine
end

