-- ==== Sys2Proof/Laws/PerInstr.lean ====
section
/-! SUPPORT. The per-instruction family EncodeIsLegal: the word that encodes a well-formed command is legal
(30_encoding.md R107). -/

namespace Sys2Proof.Laws.EncodeIsLegal

open Sys2Proof

/-- The encoding of a well-formed command satisfies R107's three conditions. -/
def Statement (i : Instr) : Prop := i.WellFormed → Legal (encode i)

theorem nop : Statement .nop := fun _ => by decide
theorem kexp : Statement .kexp := fun _ => by decide
theorem enc : Statement .enc := fun _ => by decide
theorem dec : Statement .dec := fun _ => by decide
theorem load : Statement .load := fun _ => by decide
theorem store : Statement .store := fun _ => by decide
theorem sb : Statement .sb := fun _ => by decide
theorem isb : Statement .isb := fun _ => by decide
theorem sr : Statement .sr := fun _ => by decide
theorem isr : Statement .isr := fun _ => by decide
theorem mc : Statement .mc := fun _ => by decide
theorem imc : Statement .imc := fun _ => by decide
theorem gfmul : Statement .gfmul := fun _ => by decide
theorem sbox : Statement .sbox := fun _ => by decide
theorem isbox : Statement .isbox := fun _ => by decide

theorem ark (ridx : Nat) : Statement (.ark ridx) := by
  intro h
  have hle : ridx ≤ 15 := by simpa [Instr.WellFormed, Instr.wellFormed] using h
  have all : ∀ n : Fin 16, Legal (encode (.ark n.val)) := by decide
  exact all ⟨ridx, by omega⟩

end Sys2Proof.Laws.EncodeIsLegal
end

