-- ==== Sys2Proof/Laws/Step.lean ====
section
/-! SUPPORT. Everything one step of the machine can do, said once, and its special case when it is the host's turn. -/

namespace Sys2Proof.Machine

/-- A word that decodes is issued by exec of its command. -/
theorem issue_of_decode {v : Word} {i : Instr} (s : State) (h : decode v = .ok i) : issue v s = exec i s := by
  unfold issue
  rw [h]
  split
  · rename_i hb; rw [exec_eq_issueChecked, issueChecked_busy hb]
  · rfl

/-- When it is the host's turn, the host moves. -/
theorem step_of_hostTurn {s : State} {rest : List Turn} (h : s.HostTurn rest) :
    step s = hostStep { s with turns := rest } := by
  rcases h with h | ⟨h1, h2, h3⟩
  · unfold step; rw [h]; rfl
  · have e : ({ s with turns := rest } : State) = s := by rw [h2, ← h1]
    rw [e]; unfold step; rw [h1]; simp only [State.defaultTurn, h3]; rfl


/-- What a bus write can do: issue a command, write another register, or nothing but answer. -/
theorem busWrite_cases {s t : State} {a : BitVec 12} {n : BitVec 3} {v : Word} (h : busWrite a n v s = .next t) :
    (s.rstN = true ∧ issue v { s with answer := some .okayWrite } = .next t) ∨
    (∃ r, s.rstN = true ∧ t = writeReg r v { s with answer := some .okayWrite }) ∨
    (∃ x, t = { s with answer := some x }) := by
  unfold busWrite at h
  split at h
  · split at h
    · rename_i hr
      unfold writeAt at h
      split at h
      · exact .inl ⟨hr, h⟩
      · rename_i r _ _; injection h with h; exact .inr (.inl ⟨r, hr, h.symm⟩)
      · injection h with h; exact .inr (.inr ⟨_, h.symm⟩)
    · injection h with h; exact .inr (.inr ⟨_, h.symm⟩)
  · injection h with h; exact .inr (.inr ⟨_, h.symm⟩)

/-- What a host statement can do. -/
theorem hostStmt_cases {s t : State} {st : HostStmt} (h : hostStmt st s = .next t) :
    (∃ v, s.rstN = true ∧ issue v { s with answer := some .okayWrite } = .next t) ∨
    (∃ r v, s.rstN = true ∧ t = writeReg r v { s with answer := some .okayWrite }) ∨
    (∃ a p f r, t = { s with answer := a, scriptPos := p, scriptFailed := f, records := r }) := by
  unfold hostStmt at h
  split at h
  · unfold busAccess at h
    split at h
    · rcases busWrite_cases h with ⟨hr, hi⟩ | ⟨r, hr, ht⟩ | ⟨x, ht⟩
      · exact .inl ⟨_, hr, hi⟩
      · exact .inr (.inl ⟨r, _, hr, ht⟩)
      · exact .inr (.inr ⟨_, _, _, _, ht⟩)
    · injection h with h; exact .inr (.inr ⟨_, _, _, _, h.symm⟩)
  · injection h with h; exact .inr (.inr ⟨_, _, _, _, h.symm⟩)
  · injection h with h; exact .inr (.inr ⟨_, _, _, _, h.symm⟩)
  · simp only at h
    split at h
    · split at h
      · injection h with h; exact .inr (.inr ⟨_, _, _, _, h.symm⟩)
      · cases h
    · injection h with h; exact .inr (.inr ⟨_, _, _, _, h.symm⟩)

/-- When it is the engine's turn, the engine moves. -/
theorem step_of_engineTurn {s : State} {rest : List Turn} (h : s.EngineTurn rest) :
    step s = engineStep { s with turns := rest } := by
  rcases h with h | ⟨h1, h2, h3⟩
  · unfold step; rw [h]; rfl
  · have e : ({ s with turns := rest } : State) = s := by rw [h2, ← h1]
    rw [e]; unfold step; rw [h1]; simp only [State.defaultTurn, h3]; rfl

/-- Whose turn it is, in every state. -/
theorem turn_cases (s : State) :
    ∃ rest, s.EngineTurn rest ∨ s.HostTurn rest ∨ ∃ l, s.turns = .reset l :: rest := by
  cases ht : s.turns with
  | nil =>
    refine ⟨[], ?_⟩
    cases hb : s.busy
    · exact .inr (.inl (.inr ⟨ht, rfl, hb⟩))
    · exact .inl (.inr ⟨ht, rfl, hb⟩)
  | cons u rest =>
    refine ⟨rest, ?_⟩
    cases u with
    | engine => exact .inl (.inl ht)
    | host => exact .inr (.inl (.inl ht))
    | reset l => exact .inr (.inr ⟨l, rfl⟩)

/-- Everything one step can do: an engine step; a rejected or an accepted command; a write of another register; a turn that touches only the
host's side; or a level of the reset input. -/
theorem step_cases {s t : State} (h : step s = .next t) :
    ∃ rest : List Turn,
      (s.EngineTurn rest ∧ engineStep { s with turns := rest } = .next t) ∨
      (∃ p e, s.rstN = true ∧ e ≠ .none ∧ e ≠ .malformedWord ∧
        t = State.cmdError e { s with turns := rest, scriptPos := p, answer := some .okayWrite }) ∨
      (∃ p i, s.rstN = true ∧ s.busy = false ∧ firstError (commandChecks i s) = none ∧
        t = commandAccept i { s with turns := rest, scriptPos := p, answer := some .okayWrite }) ∨
      (∃ p r v, s.rstN = true ∧ t = writeReg r v { s with turns := rest, scriptPos := p, answer := some .okayWrite }) ∨
      (∃ a p f r, t = { s with turns := rest, answer := a, scriptPos := p, scriptFailed := f, records := r }) ∨
      (∃ l, t = State.driveReset l { s with turns := rest }) := by
  obtain ⟨rest, hu | hu | ⟨l, hl⟩⟩ := turn_cases s <;> refine ⟨rest, ?_⟩
  · rw [step_of_engineTurn hu] at h
    exact .inl ⟨hu, h⟩
  · rw [step_of_hostTurn hu] at h
    right
    unfold hostStep at h
    split at h
    · rcases hostStmt_cases h with ⟨v, hr, hi⟩ | ⟨r, v, hr, ht⟩ | ⟨a, p, f, r, ht⟩
      · rcases issue_cases hi with ⟨e, h1, h2, ht⟩ | ⟨i, -, hb, hc, ht⟩
        · exact .inl ⟨_, e, hr, h1, h2, ht⟩
        · exact .inr (.inl ⟨_, i, hr, hb, by cases i <;> exact hc, ht⟩)
      · exact .inr (.inr (.inl ⟨_, r, v, hr, ht⟩))
      · exact .inr (.inr (.inr (.inl ⟨a, p, f, r, ht⟩)))
    · injection h with h
      exact .inr (.inr (.inr (.inl ⟨s.answer, s.scriptPos, s.scriptFailed, s.records, h.symm⟩)))
  · unfold step at h
    rw [hl] at h
    injection h with h
    exact .inr (.inr (.inr (.inr (.inr ⟨l, h.symm⟩))))

/-! ### Frames -/

/-- What an engine step leaves alone, and when it changes the schedule, DOUT, GFRES and S. -/
theorem engineStep_frame {s t : State} (he : engineStep s = .next t) :
   t.dir = s.dir ∧ t.rstN = s.rstN ∧ t.nk = s.nk ∧ t.nr = s.nr ∧ t.opc = s.opc ∧ t.resets = s.resets ∧
   ((t.kidx = s.kidx ∧ t.rk = s.rk ∧ t.schedValid = s.schedValid) ∨ (s.busy = true ∧ s.phase = .kexp)) ∧
   (t.dout = s.dout ∨ (s.busy = true ∧ (s.phase = .ark ∨ (s.phase = .prim ∧ s.opc = .store)) ∧ t.busy = false ∧ t.done = true ∧ t.dout = blockOfState t.st)) ∧
   (t.gfres = s.gfres ∨ (s.busy = true ∧ s.phase = .prim ∧ t.busy = false ∧ t.done = true ∧ (s.opc = .gfmul ∨ s.opc = .sbox ∨ s.opc = .isbox))) ∧
   (t.st = s.st ∨ (s.busy = true ∧ (s.phase.isCipher = true ∨
     (s.phase = .prim ∧ s.opc ∈ [Opcode.sb, .isb, .sr, .isr, .mc, .imc, .ark])))) ∧
   t.turns = s.turns := by
  unfold engineStep at he
  split at he
  · rename_i hb
    unfold phaseStep at he
    split at he
    · cases he
    · rename_i hp
      obtain ⟨prev, back, temp, hi, -, -, -, ht⟩ := engineKexp_cases he
      rcases ht with ⟨-, rfl⟩ | ⟨-, rfl⟩ <;> simp [State.complete, hb, hp]
    · rename_i hp
      unfold phaseArk at he
      split at he
      · injection he with he; subst he
        unfold State.afterArk State.withMatrix State.finishCipher
        simp only
        split <;> split <;> (try split) <;> simp [State.complete, hb, hp, Phase.isCipher]
      · cases he
    case h_10 =>
      rename_i hp
      unfold primStep at he
      split at he <;> rename_i ho <;> first | cases he; done | skip
      all_goals first
       | (simp only [engineNop, engineLoad, engineStore, engineSb, engineIsb, engineSr, engineIsr, engineMc, engineImc, engineGfmul, engineSbox, engineIsbox] at he
          injection he with he; subst he; simp [State.complete, hb, hp, ho])
       | skip
      unfold engineArk at he
      split at he
      · injection he with he; subst he; simp [State.complete, hb, hp, ho]
      · cases he
    case h_9 => 
      unfold phaseImc at he; split at he
      · cases he
      · rename_i hp _; injection he with he; subst he; simp [hb, hp, Phase.isCipher]
    all_goals (rename_i hp; injection he with he; subst he; simp [hb, hp, Phase.isCipher])
  · injection he with he; subst he; simp

/-- An engine step taken in the engine's turn is an engine move. -/
theorem engineMoved_of_turn {s t : State} {rest : List Turn} (hu : s.EngineTurn rest)
    (h : engineStep { s with turns := rest } = .next t) (hb : s.busy = true) : s.EngineMoved t := by
  have ht : t.turns = rest := (engineStep_frame h).2.2.2.2.2.2.2.2.2.2
  refine ⟨hb, ?_, ?_⟩ <;> rw [ht] <;> assumption

/-- What a KEXP engine step writes. -/
theorem engineStep_kexp_cases {s t : State} (hp : s.phase = .kexp) (hb : s.busy = true) (he : engineStep s = .next t) :
  ∃ w, ∃ hi : s.kidx.toNat < 60, t.rk = s.rk.set s.kidx.toNat w ∧ t.kidx = BitVec.ofNat 6 (s.kidx.toNat + 1) ∧ ((t.busy = false ∧ t.done = true ∧ t.schedValid = true) ∨ (t.busy = true ∧ t.schedValid = s.schedValid)) := by
  unfold engineStep at he
  rw [if_pos hb] at he; unfold phaseStep at he; rw [hp] at he
  obtain ⟨prev, back, temp, hi, -, -, -, ht⟩ := engineKexp_cases he
  rcases ht with ⟨-, rfl⟩ | ⟨-, rfl⟩
  · exact ⟨_, hi, rfl, rfl, .inl ⟨rfl, rfl, rfl⟩⟩
  · exact ⟨_, hi, rfl, rfl, .inr ⟨hb, rfl⟩⟩

/-- What an acceptance leaves alone. -/
theorem commandAccept_frame (i : Instr) (s : State) :
   (commandAccept i s).busy = true ∧ (commandAccept i s).dout = s.dout ∧ (commandAccept i s).gfres = s.gfres ∧ (commandAccept i s).rstN = s.rstN ∧
   ((commandAccept i s).st = s.st ∨ i = .enc ∨ i = .dec ∨ i = .load) ∧
   ((commandAccept i s).dir = s.dir ∨ (i = .enc ∧ (commandAccept i s).dir = false) ∨ (i = .dec ∧ (commandAccept i s).dir = true)) ∧
   ((i ≠ .kexp ∧ (commandAccept i s).kidx = s.kidx ∧ (commandAccept i s).rk = s.rk ∧ (commandAccept i s).nk = s.nk ∧ (commandAccept i s).nr = s.nr ∧ (commandAccept i s).schedValid = s.schedValid) ∨ i = .kexp) := by
  cases i <;> simp [commandAccept, acceptKexp, acceptEnc, acceptDec, acceptLoad, acceptArk, State.accept, State.withMatrix, State.latchGfop]

/-- What a register write leaves alone. -/
theorem writeReg_frame (r : RegName) (v) (s : State) : ∀ t, t = writeReg r v s → t.dir = s.dir ∧ t.kidx = s.kidx ∧ t.rk = s.rk ∧ t.nk = s.nk ∧ t.nr = s.nr ∧ t.schedValid = s.schedValid ∧ t.dout = s.dout ∧ t.gfres = s.gfres ∧ t.st = s.st := by
  rintro t rfl
  cases r <;> simp [writeReg, State.writeStatus]

/-- A level of the reset input is the reset event or changes that level only. -/
theorem driveReset_cases (l) (s : State) : (s.rstN = true ∧ (s.driveReset l).rstN = false ∧ (s.driveReset l).schedValid = false ∧ (s.driveReset l).dir = false ∧ (s.driveReset l).kidx = 0) ∨ (∃ b, s.driveReset l = {s with rstN := b}) := by
  unfold State.driveReset
  split
  · exact .inr ⟨_, rfl⟩
  · split
    · left; simp_all [State.assertReset, State.atReset]
    · exact .inr ⟨s.rstN, rfl⟩

end Sys2Proof.Machine
end

