-- ==== Sys2Proof/Tests/Slice0.lean ====
section
/-! SUPPORT. The model's own tests. Expected values come from the encoding table of 30_encoding.md and the vectors of
95_test_vectors.md (sections named at each group), never from the model. After them, for every obligation with hypotheses, a
theorem witness_… that shows a state and operands meeting them, clause by clause at the ends of their ranges. -/

namespace Sys2Proof.Tests

open Sys2Proof Sys2Proof.Machine

/-! ### Helpers -/

/-- A field of the next state, where there is one. -/
def view {α : Type} (f : State → α) : Result → Option α
  | .next s => some (f s)
  | .fault _ => none
  | .refused _ => none

/-- A field of the state after a second transition. -/
def andThen (r : Result) (f : State → Result) : Result :=
  match r with
  | .next s => f s
  | .fault e => .fault e
  | .refused e => .refused e

/-- A CMD write through the bus (20_memory.md R81). -/
def cmdWrite (w : Word) (s : State) : Result := busWrite 0x00C 4 w s

/-- The schedule of the all-zero 16-byte key (95_test_vectors.md 2.3, V3). -/
def zeroKeyWords : List Word :=
  [0x00000000, 0x00000000, 0x00000000, 0x00000000, 0x62636363, 0x62636363, 0x62636363, 0x62636363] ++
  [0x9b9898c9, 0xf9fbfbaa, 0x9b9898c9, 0xf9fbfbaa, 0x90973450, 0x696ccffa, 0xf2f45733, 0x0b0fac99] ++
  [0xee06da7b, 0x876a1581, 0x759e42b2, 0x7e91ee2b, 0x7f2e2b88, 0xf8443e09, 0x8dda7cbb, 0xf34b9290] ++
  [0xec614b85, 0x1425758c, 0x99ff0937, 0x6ab49ba7, 0x21751787, 0x3550620b, 0xacaf6b3c, 0xc61bf09b] ++
  [0x0ef90333, 0x3ba96138, 0x97060a04, 0x511dfa9f, 0xb1d4d8e2, 0x8a7db9da, 0x1d7bb3de, 0x4c664941] ++
  [0xb4ef5bcb, 0x3e92e211, 0x23e951cf, 0x6f8f188e]

/-- The round-key store that holds it; its other words are 0. -/
def zeroKeyRk : Vector Word 60 := Vector.ofFn fun i => zeroKeyWords.getD i.val 0

/-- The state after reset and a KEXP of the zero key. -/
def zeroKey : State :=
  { State.reset with done := true, schedValid := true, kidx := 44, nk := 4, nr := 10, rk := zeroKeyRk }

/-- The zero key's KEXP, ENC and DEC just accepted. -/
def kexpRunning : State := acceptKexp zeroKey
def encRunning : State := acceptEnc zeroKey
def decRunning : State := acceptDec zeroKey

/-- The last step of the zero key's KEXP still to come. -/
def kexpLast : State := { kexpRunning with kidx := 43 }

/-- The block 00 01 … 0f in S (95_test_vectors.md 2.4). -/
def countingState : AesState := stateOfBlock #v[0x00010203, 0x04050607, 0x08090a0b, 0x0c0d0e0f]

/-- Round key 1 of the V1 key (95_test_vectors.md 2.3). -/
def v1RoundKey1 : Vector Word 4 := #v[0xd6aa74fd, 0xd2af72fa, 0xdaa678f1, 0xd6ab76fe]

/-- A host with a script, at its start. -/
def withScript (script : List HostStmt) (s : State) : State := { s with script := script }

/-! ### Well-formedness (30_encoding.md R100, R103) -/

theorem test_ark_16_is_ill_formed : ¬ (Instr.ark 16).WellFormed := by decide
theorem test_ark_15_is_well_formed : (Instr.ark 15).WellFormed := by decide

/-! ### Decoding (30_encoding.md R102): RSV, RIDX and OP written out bit by bit -/

theorem test_decode_nop : decode 0b00000000000000000000000000000000#32 = .ok .nop := by decide
theorem test_decode_kexp : decode 0b00000000000000000000000000000001#32 = .ok .kexp := by decide
theorem test_decode_enc : decode 0b00000000000000000000000000000010#32 = .ok .enc := by decide
theorem test_decode_dec : decode 0b00000000000000000000000000000011#32 = .ok .dec := by decide
theorem test_decode_load : decode 0b00000000000000000000000000010000#32 = .ok .load := by decide
theorem test_decode_store : decode 0b00000000000000000000000000010001#32 = .ok .store := by decide
theorem test_decode_sb : decode 0b00000000000000000000000000010010#32 = .ok .sb := by decide
theorem test_decode_isb : decode 0b00000000000000000000000000010011#32 = .ok .isb := by decide
theorem test_decode_sr : decode 0b00000000000000000000000000010100#32 = .ok .sr := by decide
theorem test_decode_isr : decode 0b00000000000000000000000000010101#32 = .ok .isr := by decide
theorem test_decode_mc : decode 0b00000000000000000000000000010110#32 = .ok .mc := by decide
theorem test_decode_imc : decode 0b00000000000000000000000000010111#32 = .ok .imc := by decide
theorem test_decode_ark_0 : decode 0b00000000000000000000000000011000#32 = .ok (.ark 0) := by decide
theorem test_decode_ark_10 : decode 0b00000000000000000000101000011000#32 = .ok (.ark 10) := by decide
theorem test_decode_gfmul : decode 0b00000000000000000000000000100000#32 = .ok .gfmul := by decide
theorem test_decode_sbox : decode 0b00000000000000000000000000100001#32 = .ok .sbox := by decide
theorem test_decode_isbox : decode 0b00000000000000000000000000100010#32 = .ok .isbox := by decide

theorem test_decode_illegal_op : decode 0x00000104 = .error .unknownOpcode := by decide
theorem test_decode_ridx_on_enc : decode 0x00000102 = .error .ridxNotZero := by decide
theorem test_decode_reserved_bit_12 : decode 0x00001018 = .error .reservedBitsSet := by decide
theorem test_decode_reserved_bit_31 : decode 0x80000000 = .error .reservedBitsSet := by decide
theorem test_encode_ark_10 : encode (.ark 10) = 0x00000A18 := by decide

theorem test_decodeTableWord_ark : decodeTableWord 32 0xA18 = some (.ark 10) := by decide
theorem test_withFetchWord_runs_sbox :
    view State.statusWord (step (State.reset.withFetchWord 32 0x21)) = some 0x00000901 := by decide

/-! ### Issue, errors and rejection (95_test_vectors.md 2.7): STATUS right after the CMD write -/

theorem test_kexp_keylen_15 :
    view State.statusWord (cmdWrite 0x1 { State.reset with keylen := 15 }) = some 0x00000014 := by decide
theorem test_enc_without_schedule : view State.statusWord (cmdWrite 0x2 State.reset) = some 0x00000044 := by decide
theorem test_dec_without_schedule : view State.statusWord (cmdWrite 0x3 State.reset) = some 0x00000044 := by decide
theorem test_ark_10_without_schedule : view State.statusWord (cmdWrite 0xA18 State.reset) = some 0x00000044 := by
  decide
theorem test_illegal_word : view State.statusWord (cmdWrite 0x104 State.reset) = some 0x00000064 := by decide
theorem test_load_dinlen_15 :
    view State.statusWord (cmdWrite 0x10 { State.reset with dinlen := 15 }) = some 0x00000024 := by decide
theorem test_store_dinlen_15 :
    view State.statusWord (cmdWrite 0x11 { State.reset with dinlen := 15 }) = some 0x00000901 := by decide
theorem test_enc_dinlen_15 :
    view State.statusWord (cmdWrite 0x2 { zeroKey with dinlen := 15 }) = some 0x2C00002E := by decide
theorem test_ark_11_aes128 : view State.statusWord (cmdWrite 0xB18 zeroKey) = some 0x2C00005E := by decide
theorem test_ark_10_aes128 : view State.statusWord (cmdWrite 0xA18 zeroKey) = some 0x2C00A909 := by decide
theorem test_nop_while_busy : view State.statusWord (cmdWrite 0x0 kexpRunning) = some 0x04000175 := by decide
theorem test_illegal_word_while_busy : view State.statusWord (cmdWrite 0x104 kexpRunning) = some 0x04000175 := by
  decide
theorem test_error_does_not_block_sbox :
    view State.statusWord (cmdWrite 0x21 { State.reset with err := true, errcode := .noSchedule }) =
      some 0x00000945 := by decide

/-- R266's example: ENC without a schedule and with DINLEN 15 reports NO_SCHEDULE, the earlier check. -/
theorem test_first_failing_check :
    view State.errcode (cmdWrite 0x2 { State.reset with dinlen := 15 }) = some .noSchedule := by decide

/-- Accepts of KEXP (95_test_vectors.md 2.3), ENC and DEC (2.5, 2.6). -/
theorem test_kexp_accept_aes192 :
    view State.statusWord (cmdWrite 0x1 { State.reset with keylen := 24 }) = some 0x06000101 := by decide
theorem test_enc_accept : view State.statusWord (cmdWrite 0x2 zeroKey) = some 0x2C000209 := by decide
theorem test_dec_accept : view State.statusWord (cmdWrite 0x3 zeroKey) = some 0x2C01A209 := by decide

/-! ### Engine steps (95_test_vectors.md 2.1 to 2.6) -/

theorem test_gfmul :
    view State.gfres (engineStep ({ State.reset with opa := 0x57, opb := 0x13 }.accept .gfmul .prim)) = some 0xFE := by
  decide
theorem test_gfmul_all_ones : gfmul 0xFF 0xFF = 0x13 := by decide
theorem test_sbox :
    view State.gfres (engineStep ({ State.reset with opa := 0x53, opb := 0xFF }.accept .sbox .prim)) = some 0xED := by
  decide
theorem test_isbox :
    view State.gfres (engineStep ({ State.reset with opa := 0x16 }.accept .isbox .prim)) = some 0xFF := by decide

/-- What one single-step command leaves in S, flattened. -/
def stateAfter (op : Opcode) : Option (Vector Word 4) :=
  view (fun s => blockOfState s.st) (engineStep ({ State.reset with st := countingState }.accept op .prim))

theorem test_sb : stateAfter .sb = some #v[0x637c777b, 0xf26b6fc5, 0x3001672b, 0xfed7ab76] := by decide
theorem test_isb : stateAfter .isb = some #v[0x52096ad5, 0x3036a538, 0xbf40a39e, 0x81f3d7fb] := by decide
theorem test_sr : stateAfter .sr = some #v[0x00050a0f, 0x04090e03, 0x080d0207, 0x0c01060b] := by decide
theorem test_isr : stateAfter .isr = some #v[0x000d0a07, 0x04010e0b, 0x0805020f, 0x0c090603] := by decide
theorem test_mc : stateAfter .mc = some #v[0x02070005, 0x06030401, 0x0a0f080d, 0x0e0b0c09] := by decide
theorem test_imc : stateAfter .imc = some #v[0x0a0f080d, 0x0e0b0c09, 0x02070005, 0x06030401] := by decide
theorem test_nop : stateAfter .nop = some #v[0x00010203, 0x04050607, 0x08090a0b, 0x0c0d0e0f] := by decide
theorem test_mc_column :
    (mixRow 0 0xdb 0x13 0x53 0x45, mixRow 1 0xdb 0x13 0x53 0x45, mixRow 2 0xdb 0x13 0x53 0x45,
      mixRow 3 0xdb 0x13 0x53 0x45) = ((0x8e, 0x4d, 0xa1, 0xbc) : Byte × Byte × Byte × Byte) := by decide
theorem test_imc_column :
    (invMixRow 0 0xf2 0x0a 0x22 0x5c, invMixRow 1 0xf2 0x0a 0x22 0x5c, invMixRow 2 0xf2 0x0a 0x22 0x5c,
      invMixRow 3 0xf2 0x0a 0x22 0x5c) = ((0xae, 0xc3, 0x69, 0x82) : Byte × Byte × Byte × Byte) := by decide
theorem test_ark_1_v1 :
    blockOfState (addRoundKey countingState v1RoundKey1) = #v[0xd6ab76fe, 0xd6aa74fd, 0xd2af72fa, 0xdaa678f1] := by
  decide
theorem test_store :
    view State.dout (engineStep ({ State.reset with st := countingState }.accept .store .prim)) =
      some #v[0x00010203, 0x04050607, 0x08090a0b, 0x0c0d0e0f] := by decide
theorem test_load :
    view State.st (cmdWrite 0x10 { State.reset with din := #v[0x00010203, 0x04050607, 0x08090a0b, 0x0c0d0e0f] }) =
      some countingState := by decide

/-- The first KEXP step of the V1 key writes RK[4] = 0xD6AA74FD; AES-256 word 12 takes the SubWord-only branch (V5b). -/
theorem test_kexp_first_step :
    view (fun s => s.rk[4]) (andThen
      (cmdWrite 0x1 { State.reset with key := #v[0x00010203, 0x04050607, 0x08090a0b, 0x0c0d0e0f, 0, 0, 0, 0] })
      engineStep) = some 0xd6aa74fd := by decide
theorem test_schedule_subword_branch :
    (scheduleTemp? 8 12 0xa572c09c).map (fun temp => 0x10111213 ^^^ temp) = some 0x1651a8cd := by decide

theorem test_schedule_temp_aes256_word_13 : 
    scheduleTemp? 8 13 0x1651a8cd = some (0x14151617 ^^^ 0x0244beda) := by decide

/-- ENC trace (2.5): step 39, SR in the last round, goes to ARK; step 40 completes. -/
theorem test_enc_step_39 :
    view State.statusWord (engineStep { encRunning with round := 10, phase := .sr }) = some 0x2C00A209 := by decide
theorem test_enc_step_40 :
    view State.statusWord (engineStep { encRunning with round := 10 }) = some 0x2C00A00A := by decide
/-- DEC trace (2.6): step 1 from ARK at round NR; step 5, IMC, lowers ROUND. -/
theorem test_dec_step_1 : view State.statusWord (engineStep decRunning) = some 0x2C019609 := by decide
theorem test_dec_step_5 :
    view State.statusWord (engineStep { decRunning with round := 9, phase := .imc }) = some 0x2C018609 := by decide

/-! ### The bus (95_test_vectors.md 2.8) and the interrupt (P8) -/

theorem test_read_id : busRead State.reset 0x000 4 = .okayRead 0x41455301 := by decide
theorem test_read_ctx : busRead State.reset 0x018 4 = .okayRead 0x00000040 := by decide
theorem test_read_ctx_aes128 : busRead zeroKey 0x018 4 = .okayRead 0x00000A44 := by decide
theorem test_read_rkw4 : busRead zeroKey 0x110 4 = .okayRead 0x62636363 := by decide
theorem test_read_reserved : busRead State.reset 0x1F0 4 = .okayRead 0 := by decide
theorem test_read_misaligned : busRead State.reset 0x001 4 = .slverr := by decide
theorem test_read_byte : busRead State.reset 0x000 1 = .slverr := by decide
theorem test_write_keylen_masks :
    view (fun s => regValue s .keylen) (busWrite 0x010 4 0x12345620 State.reset) = some 0x00000020 := by decide
theorem test_write_cmd_halfword :
    view (fun s => (s.err, s.busy)) (busWrite 0x00E 2 0x0001 State.reset) = some (false, false) := by decide
theorem test_irq_on_rejection :
    view State.irq (cmdWrite 0x0 { kexpRunning with ie := true }) = some true := by decide
theorem test_clear_lowers_irq :
    view (fun s => (s.irq, s.statusWord))
      (busWrite 0x008 4 0x6 { zeroKey with ie := true, err := true, errcode := .busy }) =
      some (false, 0x2C000008) := by decide
theorem test_reset_during_enc :
    view (fun s => (s.statusWord, s.rstN)) (step { encRunning with turns := [.reset false] }) = some (0, false) := by
  decide

/-! ### Witnesses: good states -/

theorem zeroKey_schedule : ScheduleUpTo 4 44 zeroKeyRk := by decide +kernel

/-- The zero-key state is good. -/
theorem zeroKey_inv : Inv zeroKey := by
  constructor
  · decide
  · decide
  · decide
  · decide
  · decide
  · decide
  · decide
  · intro _; exact ⟨by decide, by decide, zeroKey_schedule⟩
  · decide
  · intro h; exact absurd h (by decide)
  · intro h; exact absurd h (by decide)
  · intro h; exact absurd h (by decide)

theorem kexpRunning_inv : Inv kexpRunning := kexp_accept_inv zeroKey_inv rfl (by decide)
theorem encRunning_inv : Inv encRunning := accept_inv zeroKey_inv rfl .enc (by decide)
theorem decRunning_inv : Inv decRunning := accept_inv zeroKey_inv rfl .dec (by decide)

/-- A good state stays good with a script and turns. -/
theorem script_inv {s : State} (h : Inv s) (script : List HostStmt) (turns : List Turn) :
    Inv { s with script := script, turns := turns } :=
  h.env s.answer script s.scriptPos s.scriptFailed s.records turns

/-- Reset held. -/
def heldState : State := State.reset.assertReset
theorem heldState_inv : Inv heldState := assertReset_inv _

/-! ### Witnesses: encoding and issue -/

theorem witness_ExactlyLegalWordsDecode :
    ¬ Legal 0x104 ∧ State.reset.busy = false ∧
    ((0x04 : Byte) ∉ legalOps ∧ (0x0F : Byte) ∉ legalOps ∧ (0x19 : Byte) ∉ legalOps ∧ (0x1F : Byte) ∉ legalOps ∧
      (0x23 : Byte) ∉ legalOps ∧ (0xFF : Byte) ∉ legalOps) ∧
    ((0x03 : Byte) ∈ legalOps ∧ (0x10 : Byte) ∈ legalOps ∧ (0x18 : Byte) ∈ legalOps ∧ (0x20 : Byte) ∈ legalOps ∧
      (0x22 : Byte) ∈ legalOps) := by decide

theorem witness_StepRunsTheDecodedCommand_accepts :
    let s := withScript [.label 0, .wr 0x00C 0xA18] { zeroKey with turns := [.host, .engine] }
    s.HostTurn [.engine] ∧ s.rstN = true ∧ s.fetchStmt = some (.wr 0x00C 0xA18, 1) ∧ decode 0xA18 = .ok (.ark 10) := by
  decide
theorem witness_StepRunsTheDecodedCommand_rejects :
    let s := withScript [.wr 0x00C 0x104] State.reset
    s.HostTurn [] ∧ s.rstN = true ∧ s.fetchStmt = some (.wr 0x00C 0x104, 0) ∧
      decode 0x104 = .error .unknownOpcode := by decide

theorem witness_IssueReportsTheFirstFailingCheck :
    issueError 0x0 kexpRunning = some .busy ∧ issueError 0x104 State.reset = some .illegalCommand ∧
    issueError 0x1 { State.reset with keylen := 33 } = some .malformedKey ∧
    issueError 0xF18 State.reset = some .noSchedule ∧ issueError 0xB18 zeroKey = some .badRoundIndex ∧
    issueError 0x3 { zeroKey with dinlen := 17 } = some .malformedBlock ∧ issueError 0xA18 zeroKey = none := by decide

theorem witness_BusyRejectionLeavesTheRunningCommandAlone : kexpRunning.busy = true := by decide
theorem witness_StateCommandsComplete : zeroKey.busy = false := by decide
theorem witness_FieldCommandsComplete : State.reset.busy = false := by decide

theorem witness_LoadBuildsTheMatrix :
    (State.reset.busy = false ∧ State.reset.dinlen = 16) ∧
    (({ State.reset with dinlen := 15 } : State).busy = false ∧ ({ State.reset with dinlen := 15 } : State).dinlen ≠ 16) := by
  decide

theorem witness_ArkAddsItsRoundKey :
    (State.reset.busy = false ∧ State.reset.schedValid = false) ∧
    (zeroKey.busy = false ∧ zeroKey.schedValid = true ∧ zeroKey.nr.toNat < 11) ∧
    (zeroKey.busy = false ∧ zeroKey.schedValid = true ∧ 10 ≤ zeroKey.nr.toNat ∧ 10 ≤ 14 ∧ 0 ≤ zeroKey.nr.toNat) ∧
    (({ zeroKey with nr := 14 } : State).busy = false ∧ 14 ≤ ({ zeroKey with nr := 14 } : State).nr.toNat) := by decide

theorem witness_KexpAcceptLatchesTheKey :
    (State.reset.busy = false ∧ State.reset.keylen.toNat = 4 * 4) ∧
    ({ State.reset with keylen := 24 } : State).keylen.toNat = 4 * 6 ∧
    ({ State.reset with keylen := 32 } : State).keylen.toNat = 4 * 8 ∧
    (let s : State := { State.reset with keylen := 17 }
     s.busy = false ∧ s.keylen ≠ 16 ∧ s.keylen ≠ 24 ∧ s.keylen ≠ 32) := by decide

theorem witness_KexpStepComputesOneWord_first :
    kexpRunning.busy = true ∧ kexpRunning.phase = .kexp ∧ Variant kexpRunning.nk kexpRunning.nr ∧
    kexpRunning.nk.toNat ≤ kexpRunning.kidx.toNat ∧
    kexpRunning.kidx.toNat < scheduleWords kexpRunning.nr.toNat ∧
    kexpRunning.rk[kexpRunning.kidx.toNat - 1]? = some 0 ∧
    kexpRunning.rk[kexpRunning.kidx.toNat - kexpRunning.nk.toNat]? = some 0 := by decide
theorem witness_KexpStepComputesOneWord_last :
    kexpLast.busy = true ∧ kexpLast.phase = .kexp ∧ Variant kexpLast.nk kexpLast.nr ∧
    kexpLast.nk.toNat ≤ kexpLast.kidx.toNat ∧ kexpLast.kidx.toNat < scheduleWords kexpLast.nr.toNat ∧
    kexpLast.kidx.toNat + 1 = scheduleWords kexpLast.nr.toNat ∧
    kexpLast.rk[kexpLast.kidx.toNat - 1]? = some 0x23e951cf ∧
    kexpLast.rk[kexpLast.kidx.toNat - kexpLast.nk.toNat]? = some 0x4c664941 := by decide

theorem witness_EncAndDecStart :
    (zeroKey.busy = false ∧ zeroKey.schedValid = true ∧ zeroKey.dinlen = 16) ∧
    (State.reset.busy = false ∧ State.reset.schedValid = false) ∧
    (let s : State := { zeroKey with dinlen := 15 }
     s.busy = false ∧ s.schedValid = true ∧ s.dinlen ≠ 16) := by decide

/-- ARK at round 10, 0 and 1 in both directions, with the zero key's round keys 10, 0 and 1. -/
theorem witness_ArkPhaseContinuesByDirection :
    (encRunning.busy = true ∧ encRunning.phase = .ark ∧ decRunning.busy = true ∧ decRunning.phase = .ark) ∧
    roundKey? zeroKeyRk 10 = some #v[0xb4ef5bcb, 0x3e92e211, 0x23e951cf, 0x6f8f188e] ∧
    roundKey? zeroKeyRk 0 = some #v[0, 0, 0, 0] ∧
    roundKey? zeroKeyRk 1 = some #v[0x62636363, 0x62636363, 0x62636363, 0x62636363] ∧
    encRunning.rk = zeroKeyRk ∧ decRunning.rk = zeroKeyRk ∧
    (encRunning.dir = false ∧ ({ encRunning with round := 10 } : State).round = encRunning.nr) ∧
    (encRunning.dir = false ∧ encRunning.round ≠ encRunning.nr) ∧
    (decRunning.dir = true ∧ ({ decRunning with round := 0 } : State).round = 0) ∧
    (decRunning.dir = true ∧ decRunning.round ≠ 0 ∧ decRunning.round = decRunning.nr) ∧
    (decRunning.dir = true ∧ ({ decRunning with round := 1 } : State).round ≠ 0 ∧
      ({ decRunning with round := 1 } : State).round ≠ decRunning.nr) := by decide

theorem witness_CipherPhasesApplyTheirTransform :
    (let s : State := { encRunning with phase := .sb, round := 1 }; s.busy = true ∧ s.phase = .sb) ∧
    (let s : State := { encRunning with phase := .sr, round := 10 }; s.busy = true ∧ s.phase = .sr ∧ s.round = s.nr) ∧
    (let s : State := { encRunning with phase := .sr, round := 9 }; s.busy = true ∧ s.phase = .sr ∧ s.round ≠ s.nr) ∧
    (let s : State := { encRunning with phase := .mc, round := 1 }; s.busy = true ∧ s.phase = .mc) ∧
    (let s : State := { decRunning with phase := .isr, round := 9 }; s.busy = true ∧ s.phase = .isr) ∧
    (let s : State := { decRunning with phase := .isb, round := 9 }; s.busy = true ∧ s.phase = .isb) ∧
    (let s : State := { decRunning with phase := .imc, round := 1 }; s.busy = true ∧ s.phase = .imc ∧ s.round ≠ 0) := by
  decide

/-- IMC entered: decryption's ARK at round 9. -/
theorem witness_CipherPhasesApplyTheirTransform_imc :
    ∃ t, engineStep { decRunning with round := 9 } = .next t ∧ t.phase = .imc := ⟨_, rfl, by decide⟩

theorem witness_TransformsActByteByByte :
    roundKey? zeroKeyRk 14 = some #v[0, 0, 0, 0] ∧ zeroKeyRk[4 * 10 + 3]? = some 0x6f8f188e := by decide

theorem witness_TableWordsDecode : opField 0x00000104 ∉ legalOps ∧ opField 0x000000FF ∉ legalOps := by decide

/-! ### Witnesses: arithmetic and runs -/

theorem witness_GfmulIsFieldMultiplication :
    (0x02 : Byte) ≠ 0 ∧ gfmul 0x02 0x8D = 0x01 ∧ gfmul 0x53 0xCA = 0x01 := by decide
theorem witness_SboxIsAffineOfInverse : gfmul 0xFF 0x1C = 0x01 ∧ gfmul 0x01 0x01 = 0x01 := by decide
theorem witness_RoundConstantsArePowersOfTwo :
    (rcon? 9 = some 0x1B ∧ 9 < 10) ∧ (rcon? 1 = some 0x01 ∧ 1 < 10) ∧
    (Variant 4 10 ∧ (4#4).toNat ≤ 40 ∧ 40 < scheduleWords (10#4).toNat ∧ 40 % (4#4).toNat = 0) ∧
    (Variant 6 12 ∧ (6#4).toNat ≤ 48 ∧ 48 < scheduleWords (12#4).toNat ∧ 48 % (6#4).toNat = 0) ∧
    (Variant 8 14 ∧ (8#4).toNat ≤ 56 ∧ 56 < scheduleWords (14#4).toNat ∧ 56 % (8#4).toNat = 0) := by decide

/-- The zero key's round keys. -/
def zeroKeyRound (r : Nat) : Vector Word 4 := (roundKey? zeroKeyRk r).getD #v[0, 0, 0, 0]

theorem witness_EncRunComputesCipher :
    Inv zeroKey ∧ zeroKey.busy = false ∧ zeroKey.schedValid = true ∧ zeroKey.dinlen = 16 ∧
    ∀ r, r ≤ zeroKey.nr.toNat → roundKey? zeroKey.rk r = some (zeroKeyRound r) :=
  ⟨zeroKey_inv, by decide, by decide, by decide, by decide⟩
theorem witness_DecRunComputesInvCipher :
    Inv zeroKey ∧ zeroKey.busy = false ∧ zeroKey.schedValid = true ∧ zeroKey.dinlen = 16 ∧
    ∀ r, r ≤ zeroKey.nr.toNat → roundKey? zeroKey.rk r = some (zeroKeyRound r) := witness_EncRunComputesCipher
theorem witness_KexpRunComputesKeyExpansion :
    (State.reset.busy = false ∧ State.reset.keylen.toNat = 4 * 4) ∧
    ({ State.reset with keylen := 24 } : State).keylen.toNat = 4 * 6 ∧
    ({ State.reset with keylen := 32 } : State).keylen.toNat = 4 * 8 := by decide
theorem witness_KeyExpansionFollowsItsLoop :
    (List.replicate 16 (0 : Byte)).length = 4 * 4 ∧ (List.replicate 24 (0 : Byte)).length = 4 * 6 ∧
    (List.replicate 32 (0 : Byte)).length = 4 * 8 ∧
    (List.replicate 16 (0 : Byte))[4 * 3]? = some 0 ∧ (List.replicate 16 (0 : Byte))[4 * 3 + 3]? = some 0 := by decide
theorem witness_ValidScheduleIsAKeyExpansion : Inv zeroKey ∧ zeroKey.schedValid = true := ⟨zeroKey_inv, by decide⟩
theorem witness_EveryRunningCommandCompletes :
    (Inv kexpRunning ∧ kexpRunning.busy = true ∧ kexpRunning.stepsLeft = 40) ∧
    (Inv decRunning ∧ decRunning.busy = true ∧ decRunning.stepsLeft = 40) :=
  ⟨⟨kexpRunning_inv, by decide, by decide⟩, decRunning_inv, by decide, by decide⟩

theorem witness_StaleRoundKeyWordsReachNoResult :
    Inv encRunning ∧ encRunning.phase ≠ .kexp ∧ encRunning.rk.set 44 1 ≠ encRunning.rk ∧
    ∀ i : Nat, i < scheduleWords encRunning.nr.toNat → (encRunning.rk.set 44 1)[i]? = encRunning.rk[i]? :=
  ⟨encRunning_inv, by decide, by decide, by decide⟩

/-- A host that polls STATUS of a running ENC, with the host's turn twice before the engine's. -/
def waiting : State := { encRunning with script := scriptWait 7, turns := [.host, .host, .engine] }
theorem witness_WaitEndsUnderEveryInterleaving :
    Inv waiting ∧ waiting.scriptFailed = false ∧
    nextStmt (waiting.script.drop waiting.scriptPos) waiting.scriptPos = some (.bnz 0x008 0x1 7, 1) ∧
    labelIndex 7 waiting.script 0 = some 1 ∧
    nextStmt (waiting.script.drop 1) 1 = some (.bnz 0x008 0x1 7, 1) ∧
    (∀ level, .reset level ∉ waiting.turns) :=
  ⟨script_inv encRunning_inv _ _, by decide, by decide, by decide, by decide, by decide⟩

/-! ### Witnesses: the bus, status and the host -/

theorem witness_OnlyAlignedWordAccessesAreAccepted :
    ((2 : BitVec 3) ≠ 4 ∨ (0x00C : BitVec 12).toNat % 4 ≠ 0) ∧ ((4 : BitVec 3) ≠ 4 ∨ (0xFFF : BitVec 12).toNat % 4 ≠ 0) ∧
    ((4 : BitVec 3) = 4 ∧ (0xFFC : BitVec 12).toNat % 4 = 0) := by decide

theorem witness_ReservedOffsetsReadZeroAndIgnoreWrites :
    (regAt 0x024 = none ∧ regAt 0x03C = none ∧ regAt 0x090 = none ∧ regAt 0x0FC = none ∧ regAt 0x1F0 = none ∧
      regAt 0xFFC = none) ∧
    (regAt 0x020 = some .gfres ∧ regAt 0x040 = some (.key 0) ∧ regAt 0x08C = some (.statew 3) ∧
      regAt 0x100 = some (.rkw 0) ∧ regAt 0x1EC = some (.rkw 59)) := by decide

theorem witness_ReadOnlyRegistersIgnoreWrites :
    (RegName.rkw 59 = .id ∨ RegName.rkw 59 = .ctx ∨ RegName.rkw 59 = .gfres ∨ (∃ k, RegName.rkw 59 = .dout k) ∨
      (∃ k, RegName.rkw 59 = .statew k) ∨ ∃ i, RegName.rkw 59 = .rkw i) ∧ ∃ k, RegName.dout 3 = .dout k :=
  ⟨.inr (.inr (.inr (.inr (.inr ⟨59, rfl⟩)))), 3, rfl⟩

theorem witness_WrittenRegistersReadBackMasked :
    State.reset.rstN = true ∧ (∃ k, RegName.key 7 = .key k) ∧ (∃ k, RegName.din 3 = .din k) ∧
    RegName.key 7 ≠ RegName.key 6 := ⟨by decide, ⟨7, rfl⟩, ⟨3, rfl⟩, by decide⟩

theorem witness_ReadsHaveNoSideEffectsAndWritesAreIdempotent :
    RegName.keylen ≠ .cmd ∧ ∃ t, busWrite RegName.keylen.offset 4 0x20 State.reset = .next t ∧ t.keylen = 0x20 :=
  ⟨by decide, _, rfl, by decide⟩

theorem witness_ScriptStatementsActAsWritten :
    (State.reset.HostTurn [] ∧ (busRead State.reset 0x010 4).rdata = some 0x10) ∧
    (withScript [.wr 0x010 0x20] State.reset).fetchStmt = some (.wr 0x010 0x20, 0) ∧
    (withScript [.access ⟨true, 0x010, 2, 0x20⟩] State.reset).fetchStmt = some (.access ⟨true, 0x010, 2, 0x20⟩, 0) ∧
    (withScript [.rd 0x010] State.reset).fetchStmt = some (.rd 0x010, 0) ∧
    (withScript [.expect 0x010 0x10] State.reset).fetchStmt = some (.expect 0x010 0x10, 0) ∧
    ((withScript [.bnz 0x010 0xF 1] State.reset).fetchStmt = some (.bnz 0x010 0xF 1, 0) ∧ (0x10 : Word) &&& 0xF = 0) ∧
    ((withScript [.label 1, .bnz 0x010 0x10 1] State.reset).fetchStmt = some (.bnz 0x010 0x10 1, 1) ∧
      (0x10 : Word) &&& 0x10 ≠ 0 ∧ labelIndex 1 [.label 1, .bnz 0x010 0x10 1] 0 = some 1 ∧
      labelIndex 1 [.bnz 0x010 0x10 1] 0 = none) ∧
    (withScript [.label 1] State.reset).fetchStmt = none := by decide

theorem witness_StatusWriteClearsDoneAndErr : kexpRunning.rstN = true := by decide

theorem witness_InterruptLineFollowsDoneAndErr :
    (zeroKey.done = true ∨ zeroKey.err = true) ∧
    zeroKey.busy = false ∧ ∃ t, exec .nop zeroKey = .next t ∧ t.busy = true :=
  ⟨by decide, by decide, _, rfl, by decide⟩

/-! ### Witnesses: whole-machine rules and reset -/

/-- The zero-key state about to run a CMD write. -/
def about (w : Word) : State := withScript [.wr 0x00C w] zeroKey
theorem about_inv (w : Word) : Inv (about w) := script_inv zeroKey_inv _ _

theorem witness_SchedValidChangesOnlyByKexp :
    (∃ t, step (about 0x1) = .next t ∧ t.schedValid ≠ (about 0x1).schedValid) ∧
    (∃ t, step kexpLast = .next t ∧ t.schedValid ≠ kexpLast.schedValid) ∧
    (∃ t, step { zeroKey with turns := [.reset false] } = .next t ∧ t.schedValid ≠ zeroKey.schedValid) ∧
    (∃ t, exec .kexp zeroKey = .next t ∧ zeroKey.busy = false ∧ t.busy = true) ∧
    (∃ t, engineStep kexpLast = .next t ∧ kexpLast.busy = true ∧ kexpLast.phase = .kexp ∧ t.busy = false) ∧
    (Inv zeroKey ∧ zeroKey.schedValid = true) :=
  ⟨⟨_, rfl, by decide⟩, ⟨_, rfl, by decide⟩, ⟨_, rfl, by decide⟩, ⟨_, rfl, by decide, by decide⟩,
    ⟨_, rfl, by decide, by decide, by decide⟩, zeroKey_inv, by decide⟩

theorem witness_DirAndKidxChangeOnlyByTheirCommands :
    (∃ t, step (about 0x3) = .next t ∧ t.dir ≠ (about 0x3).dir) ∧
    (Inv (about 0x1) ∧ ∃ t, step (about 0x1) = .next t ∧ t.kidx ≠ (about 0x1).kidx) ∧
    (Inv kexpRunning ∧ ∃ t, step kexpRunning = .next t ∧ t.kidx ≠ kexpRunning.kidx) :=
  ⟨⟨_, rfl, by decide⟩, ⟨about_inv _, _, rfl, by decide⟩, kexpRunning_inv, _, rfl, by decide⟩

theorem witness_OnlyKexpWritesTheSchedule :
    (∃ s t, Inv s ∧ step s = .next t ∧ t.rk ≠ s.rk) ∧
    (Inv { zeroKey with turns := [.reset false] } ∧
      ∃ t, step { zeroKey with turns := [.reset false] } = .next t ∧ t.nk ≠ zeroKey.nk) := by
  refine ⟨⟨{ about 0x1 with key := #v[1, 0, 0, 0, 0, 0, 0, 0] }, _, ?_, rfl, by decide⟩, ?_, _, rfl, by decide⟩
  · exact writeReg_inv (about_inv 0x1) rfl (.key 0) 1
  · exact zeroKey_inv.env _ _ _ _ _ _

/-- The engine steps of STORE (of a matrix that is not zero), SBOX and SB, and the accept of LOAD. -/
theorem witness_ResultsChangeOnlyByTheirCommands :
    (Inv zeroKey ∧ ∃ t, step zeroKey = .next t) ∧
    (∃ t, step ({ zeroKey with st := countingState }.accept .store .prim) = .next t ∧ t.dout ≠ zeroKey.dout) ∧
    (∃ t, step (withScript [.wr 0x00C 0x10] { zeroKey with din := #v[1, 2, 3, 4] }) = .next t ∧ t.st ≠ zeroKey.st) ∧
    (∃ t, step (State.accept .sbox .prim { zeroKey with opa := 0 }) = .next t ∧ t.gfres ≠ zeroKey.gfres) ∧
    (∃ t, step (State.accept .sb .prim zeroKey) = .next t ∧ t.st ≠ zeroKey.st) :=
  ⟨⟨zeroKey_inv, _, rfl⟩, ⟨_, rfl, by decide⟩, ⟨_, rfl, by decide⟩, ⟨_, rfl, by decide⟩, _, rfl, by decide⟩

theorem witness_ResetAbandonsTheCommandInProgress :
    let s : State := { kexpRunning with turns := [.reset false, .engine] }
    s.turns = .reset false :: [.engine] ∧ s.rstN = true ∧ s.busy = true := by decide

theorem witness_HeldResetKeepsResetValues :
    (Inv heldState ∧ heldState.rstN = false ∧ ∃ t, step heldState = .next t ∧ t.rstN = false) ∧
    (let s : State := { heldState with turns := [.reset true] }
     Inv s ∧ s.rstN = false ∧ s.turns = .reset true :: []) ∧
    (0x00C : BitVec 12).toNat % 4 = 0 ∧ (0xFFC : BitVec 12).toNat % 4 = 0 :=
  ⟨⟨heldState_inv, by decide, _, rfl, by decide⟩, ⟨heldState_inv.env _ _ _ _ _ _, by decide, rfl⟩, by decide, by decide⟩

theorem witness_EveryStepKeepsTheInvariant : Inv kexpRunning ∧ ∃ t, step kexpRunning = .next t ∧ t.kidx = 5 :=
  ⟨kexpRunning_inv, _, rfl, by decide⟩

theorem witness_GoodStatesAlwaysStep : Inv waiting ∧ labelsDefined waiting.script = true :=
  ⟨script_inv encRunning_inv _ _, by decide⟩

end Sys2Proof.Tests
end

/-! PROOFS. The state's two layouts: a block as the matrix, column-major (10_state.md R55, R56), and the fields of the STATUS word
(10_state.md R41). -/

namespace Sys2Proof.Machine

/-! ### Bytes of a word and words of a block -/

/-- Byte r of the word of a byte sequence is entry r of the sequence (20_memory.md R75). -/
theorem wordByte_wordOfBytes (f : Fin 4 → Byte) (r : Fin 4) :
    wordByte (wordOfBytes (f 0) (f 1) (f 2) (f 3)) r = f r := by
  apply BitVec.eq_of_getLsbD_eq
  intro i hi
  rw [getLsbD_wordByte, getLsbD_wordOfBytes]
  fin_cases r
  · simp [hi, show ¬ 24 + i < 8 by omega, show ¬ 24 + i < 16 by omega, show 24 + i < 32 by omega]
  · simp [hi, show ¬ 16 + i < 8 by omega, show 16 + i < 24 by omega]
  · simp [hi, show 8 + i < 16 by omega]
  · simp [hi]

/-- A word is the word of its own bytes (20_memory.md R75). -/
@[simp] theorem wordOfBytes_wordByte (w : Word) :
    wordOfBytes (wordByte w 0) (wordByte w 1) (wordByte w 2) (wordByte w 3) = w := by
  apply BitVec.eq_of_getLsbD_eq
  intro i hi
  simp only [getLsbD_wordOfBytes, getLsbD_wordByte]
  split_ifs with h8 h16 h24
  · simp [h8]
  · simp [show i - 8 < 8 by omega, show 8 + (i - 8) = i by omega]
  · simp [show i - 16 < 8 by omega, show 16 + (i - 16) = i by omega]
  · simp [hi, show i - 24 < 8 by omega, show 24 + (i - 24) = i by omega]

/-- Byte r of a word, as a shift down and a cut to 8 bits. -/
theorem wordByte_eq_setWidth_ushiftRight (w : Word) (r : Fin 4) : wordByte w r = (w >>> (24 - 8 * r.val)).setWidth 8 := rfl

/-- Row r of column word c is S[r][c] (10_state.md R51). -/
@[simp] theorem wordByte_columnWord (m : AesState) (r c : Fin 4) : wordByte (columnWord m c) r = m.at r c :=
  wordByte_wordOfBytes (fun r => m.at r c) r

/-- Word c of a flattened matrix is its column c. -/
theorem blockOfState_getElem (m : AesState) (c : Nat) (hc : c < 4) : (blockOfState m)[c] = columnWord m ⟨c, hc⟩ := by
  have h (c : Fin 4) : (blockOfState m)[c.val] = columnWord m c := by fin_cases c <;> rfl
  exact h ⟨c, hc⟩

/-- Block byte r + 4c is byte r of word c (10_state.md R56). -/
theorem blockByte_row_add_four_mul_column (b : Vector Word 4) (r c : Fin 4) :
    blockByte b ⟨r.val + 4 * c.val, by omega⟩ = wordByte b[c] r := by
  fin_cases r <;> fin_cases c <;> rfl

/-- S[r][c] of the matrix of a block is byte r of word c. -/
theorem at_stateOfBlock (b : Vector Word 4) (r c : Fin 4) : (stateOfBlock b).at r c = wordByte b[c] r := by
  rw [stateOfBlock, AesState.at_build, blockByte_row_add_four_mul_column]

/-- Column c of the matrix of a block is word c of the block. -/
theorem columnWord_stateOfBlock (b : Vector Word 4) (c : Fin 4) : columnWord (stateOfBlock b) c = b[c] := by
  simp only [columnWord, at_stateOfBlock, wordOfBytes_wordByte]

/-- Flattening undoes building. -/
@[simp] theorem blockOfState_stateOfBlock (b : Vector Word 4) : blockOfState (stateOfBlock b) = b := by
  apply Vector.ext
  intro c hc
  rw [blockOfState_getElem, columnWord_stateOfBlock]
  rfl

/-- Building undoes flattening. -/
@[simp] theorem stateOfBlock_blockOfState (m : AesState) : stateOfBlock (blockOfState m) = m := by
  apply AesState.eq_of_at
  intro r c
  rw [at_stateOfBlock, Fin.getElem_fin, blockOfState_getElem, wordByte_columnWord]

/-- Byte j of a flattened matrix is S[j mod 4][j div 4] (10_state.md R55). -/
theorem blockByte_blockOfState (m : AesState) (j : Fin 16) :
    blockByte (blockOfState m) j = m.at ⟨j.val % 4, by omega⟩ ⟨j.val / 4, by omega⟩ := by
  rw [blockByte, blockOfState_getElem, wordByte_columnWord]

/-! ### Fields of a register word -/

/-- A field placed at bit p reads back at bit p. -/
theorem extractLsb'_shiftLeft_setWidth_self {k : Nat} (x : BitVec k) {p : Nat} (h : p + k ≤ 32) :
    (x.setWidth 32 <<< p).extractLsb' p k = x := by
  apply BitVec.eq_of_getLsbD_eq
  intro i hi
  simp [hi, show p + i < 32 by omega]

/-- A field placed at bit p leaves the bits outside it 0. -/
theorem extractLsb'_shiftLeft_setWidth_disjoint {k : Nat} (x : BitVec k) {p q n : Nat} (h : q + n ≤ p ∨ p + k ≤ q) :
    (x.setWidth 32 <<< p).extractLsb' q n = 0#n := by
  apply BitVec.eq_of_getLsbD_eq
  intro i hi
  rcases h with below | above
  · simp [show q + i < p by omega]
  · simp [BitVec.getLsbD_of_ge x (q + i - p) (by omega)]

/-- The STATUS word read field by field (10_state.md R41). -/
theorem statusWord_fields (s : State) :
    s.statusWord.extractLsb' 0 1 = BitVec.ofBool s.busy ∧ s.statusWord.extractLsb' 1 1 = BitVec.ofBool s.done ∧
    s.statusWord.extractLsb' 2 1 = BitVec.ofBool s.err ∧ s.statusWord.extractLsb' 3 1 = BitVec.ofBool s.schedValid ∧
    s.statusWord.extractLsb' 4 4 = s.errcode.code ∧ s.statusWord.extractLsb' 8 4 = s.phase.code ∧
    s.statusWord.extractLsb' 12 4 = s.round ∧ s.statusWord.extractLsb' 16 1 = BitVec.ofBool s.dir ∧
    s.statusWord.extractLsb' 17 7 = 0 ∧ s.statusWord.extractLsb' 24 6 = s.kidx ∧
    s.statusWord.extractLsb' 30 2 = 0 := by
  refine ⟨?_, ?_, ?_, ?_, ?_, ?_, ?_, ?_, ?_, ?_, ?_⟩ <;>
    simp (disch := decide) only [State.statusWord, flagBit, BitVec.extractLsb'_or, extractLsb'_shiftLeft_setWidth_self,
      extractLsb'_shiftLeft_setWidth_disjoint, BitVec.or_zero, BitVec.zero_or, BitVec.ofNat_eq_ofNat]

/-- A write of STATUS acts on bits 1 and 2 of its word only (20_memory.md R80). -/
theorem writeStatus_congr {v w : Word} (s : State) (h1 : v.getLsbD 1 = w.getLsbD 1) (h2 : v.getLsbD 2 = w.getLsbD 2) :
    s.writeStatus v = s.writeStatus w := by
  rw [State.writeStatus, State.writeStatus, h1, h2]

/-- Clearing the reserved bits 23:17 and 31:30 of the word changes no write of STATUS (10_state.md R41). -/
theorem busWrite_status_mask_reserved (s : State) (v : Word) :
    busWrite RegName.status.offset 4 v s = busWrite RegName.status.offset 4 (v &&& 0x3F01FFFF) s := by
  rw [busWrite_reg (by decide), busWrite_reg (by decide)]
  have w1c := writeStatus_congr (v := v) (w := v &&& 0x3F01FFFF) { s with answer := some .okayWrite } (by simp) (by simp)
  simp only [writeReg, w1c]

/-- Settles O22: both directions go through the words of the block, which are the columns of the matrix. -/
theorem blocksMapToTheMatrixColumnMajor : Obligations.BlocksMapToTheMatrixColumnMajor := by
  unfold Obligations.BlocksMapToTheMatrixColumnMajor
  refine ⟨fun b r c => ⟨?_, ?_⟩, blockOfState_stateOfBlock, stateOfBlock_blockOfState, blockByte_blockOfState⟩
  · rw [at_stateOfBlock, blockByte_row_add_four_mul_column]
  · rw [at_stateOfBlock, wordByte_eq_setWidth_ushiftRight]

/-- Settles O42: STATUS is an OR of fields that do not overlap, and its write looks at two bits outside the reserved ones. -/
theorem statusWordHasItsLayout : Obligations.StatusWordHasItsLayout := by
  unfold Obligations.StatusWordHasItsLayout
  exact ⟨fun s => ⟨busRead_reg s .status, statusWord_fields s⟩, by decide, by decide, by decide,
    busWrite_status_mask_reserved⟩

end Sys2Proof.Machine

/-! PROOFS. The register window: reserved offsets, read-only registers and the write-1-to-clear write of STATUS (20_memory.md R77, R79, R80). -/

namespace Sys2Proof.Machine

/-! ### Reserved offsets -/

/-- The bus accepts 4 bytes at every multiple of 4 (20_memory.md R73). -/
theorem busAccepts_of_aligned {a : BitVec 12} (aligned : a.toNat % 4 = 0) : busAccepts a 4 = true := by
  simp [busAccepts, aligned]

/-- The aligned offsets without a register are the three gaps of the map (20_memory.md R77): each branch of the map is one register or one range of
registers, and the gaps are what its last branch leaves over. -/
theorem regAt_eq_none_iff_of_aligned {a : BitVec 12} (aligned : a.toNat % 4 = 0) :
    regAt a = none ↔
      (0x024 ≤ a.toNat ∧ a.toNat ≤ 0x03F) ∨ (0x090 ≤ a.toNat ∧ a.toNat ≤ 0x0FF) ∨ 0x1F0 ≤ a.toNat := by
  fun_cases regAt a
  case case1 misaligned => exact absurd aligned misaligned
  case case16 => simp only [true_iff]; omega
  all_goals simp only [reduceCtorEq, false_iff]; omega

/-- A read of an aligned offset without a register answers 0 with OKAY. -/
theorem busRead_of_regAt_eq_none {a : BitVec 12} (s : State) (aligned : a.toNat % 4 = 0) (reserved : regAt a = none) :
    busRead s a 4 = .okayRead 0 := by
  rw [busRead, busAccepts_of_aligned aligned, reserved]
  rfl

/-- A write to an aligned offset without a register is answered OKAY and ignored, reset held or not. -/
theorem busWrite_of_regAt_eq_none {a : BitVec 12} (s : State) (v : Word) (aligned : a.toNat % 4 = 0)
    (reserved : regAt a = none) : busWrite a 4 v s = .next { s with answer := some .okayWrite } := by
  simp only [busWrite, busAccepts_of_aligned aligned, writeAt, reserved, ite_true, ite_self]

/-! ### Writes of one register -/

/-- A write of a register other than CMD that has no effect of its own is answered OKAY and ignored, reset held or not. -/
theorem busWrite_of_writeReg_eq_self {r : RegName} (s : State) (v : Word) (notCmd : r ≠ .cmd)
    (ignored : ∀ t, writeReg r v t = t) : busWrite r.offset 4 v s = .next { s with answer := some .okayWrite } := by
  rw [busWrite_reg notCmd, ignored, ite_self]

/-- With reset released, a write of a register other than CMD is answered OKAY and takes the register's own effect. -/
theorem busWrite_reg_of_rstN {s : State} {r : RegName} {v : Word} (released : s.rstN = true) (notCmd : r ≠ .cmd) :
    busWrite r.offset 4 v s = .next (writeReg r v { s with answer := some .okayWrite }) := by
  rw [busWrite_reg notCmd, if_pos released]

/-! ### The obligations of the register window -/

/-- Settles O36: the gaps are the last branch of the map, and that branch answers OKAY without a register. -/
theorem reservedOffsetsReadZeroAndIgnoreWrites : Obligations.ReservedOffsetsReadZeroAndIgnoreWrites := by
  unfold Obligations.ReservedOffsetsReadZeroAndIgnoreWrites
  intro s a v aligned
  exact ⟨regAt_eq_none_iff_of_aligned aligned, fun reserved =>
    ⟨busRead_of_regAt_eq_none s aligned reserved, busWrite_of_regAt_eq_none s v aligned reserved⟩⟩

/-- Settles O38: a write of each read-only register leaves the block as it was, and the value of CMD is 0. -/
theorem readOnlyRegistersIgnoreWrites : Obligations.ReadOnlyRegistersIgnoreWrites := by
  unfold Obligations.ReadOnlyRegistersIgnoreWrites
  refine fun s v => ⟨fun r readOnly => ?_, busRead_reg s .cmd⟩
  obtain ⟨notCmd, ignored⟩ : r ≠ .cmd ∧ ∀ t, writeReg r v t = t := by
    rcases readOnly with rfl | rfl | rfl | ⟨k, rfl⟩ | ⟨k, rfl⟩ | ⟨i, rfl⟩ <;> exact ⟨nofun, fun _ => rfl⟩
  exact busWrite_of_writeReg_eq_self s v notCmd ignored

/-- Settles O43: with reset released the write of STATUS is its W1C write, which never looks at BUSY. -/
theorem statusWriteClearsDoneAndErr : Obligations.StatusWriteClearsDoneAndErr := by
  unfold Obligations.StatusWriteClearsDoneAndErr
  intro s v released
  exact busWrite_reg_of_rstN (r := .status) released (by decide)

end Sys2Proof.Machine

/-! PROOFS. The decoder: the words that decode are the legal ones, and the words of the opcode table are encodings
(30_encoding.md R102, R107). -/

namespace Sys2Proof.Machine

/-! ### The opcode map -/

/-- The opcode map is defined exactly on the 16 OP values: each branch but the last takes one of them, and the last what they
leave over (30_encoding.md R102). -/
theorem instrOfOp_eq_none_iff {op : Byte} {n : Nat} : instrOfOp op n = none ↔ op ∉ legalOps := by
  fun_cases instrOfOp op n
  case case17 => simp_all [legalOps]
  all_goals simp [legalOps]

/-- The command that an OP value names has that OP value. -/
theorem op_of_instrOfOp {op : Byte} {n : Nat} {i : Instr} (named : instrOfOp op n = some i) : i.op = op := by
  revert named
  fun_cases instrOfOp op n <;> rintro ⟨⟩ <;> rfl

/-- The OP value of a command, with its RIDX, names the command. -/
theorem instrOfOp_op (i : Instr) : instrOfOp i.op i.ridx = some i := by
  cases i <;> rfl

/-- The one OP value whose command uses RIDX is ARK's (30_encoding.md R100). -/
theorem takesRidx_eq_true_iff (i : Instr) : i.takesRidx = true ↔ i.op = 0x18#8 := by
  cases i <;> simp [Instr.takesRidx, Instr.op]

/-- The OP values outside the table are three ranges (30_encoding.md R102). -/
theorem not_mem_legalOps_iff (op : Byte) :
    op ∉ legalOps ↔
      (0x04 ≤ op.toNat ∧ op.toNat ≤ 0x0F) ∨ (0x19 ≤ op.toNat ∧ op.toNat ≤ 0x1F) ∨ 0x23 ≤ op.toNat := by
  simp [legalOps, BitVec.toNat_eq]
  omega

/-- RIDX of a well-formed command fits its four bits (30_encoding.md R103). -/
theorem ridx_lt {i : Instr} (wf : i.WellFormed) : i.ridx < 2 ^ 4 := by
  cases i with
  | ark n => exact Nat.lt_succ_of_le (of_decide_eq_true wf)
  | _ => decide

/-! ### The decoder -/

/-- A word decodes to the command that its OP names, where RSV is 0 and RIDX is 0 or used (30_encoding.md R107). -/
theorem decode_eq_ok_iff {w : Word} {i : Instr} :
    decode w = .ok i ↔
      instrOfOp (opField w) (ridxField w).toNat = some i ∧ rsvField w = 0 ∧ (i.takesRidx = true ∨ ridxField w = 0) := by
  unfold decode
  cases instrOfOp (opField w) (ridxField w).toNat with
  | none => simp
  | some j =>
    simp only [ne_eq, Option.some.injEq]
    split_ifs with rsv ridx
    · obtain ⟨unused, nonzero⟩ := ridx
      rw [false_iff]
      rintro ⟨rfl, -, used⟩
      exact nonzero (used.resolve_left (by simp [unused]))
    · rw [not_and_or, Bool.not_eq_false, not_not] at ridx
      rw [Except.ok.injEq]
      exact ⟨fun same => ⟨same, rsv, same ▸ ridx⟩, And.left⟩
    · rw [false_iff]
      rintro ⟨-, zero, -⟩
      exact rsv zero

/-- A word whose OP is not in the table is rejected for its OP. -/
theorem decode_of_opField_not_mem {w : Word} (outside : opField w ∉ legalOps) : decode w = .error .unknownOpcode := by
  rw [decode, instrOfOp_eq_none_iff.mpr outside]

/-- The decodable words are the legal ones (30_encoding.md R107). -/
theorem exists_decode_eq_ok_iff (w : Word) : (∃ i, decode w = .ok i) ↔ Legal w := by
  constructor
  · rintro ⟨i, decoded⟩
    obtain ⟨named, rsv, ridx⟩ := decode_eq_ok_iff.mp decoded
    rw [takesRidx_eq_true_iff, op_of_instrOfOp named] at ridx
    refine ⟨?_, rsv, ridx⟩
    by_contra outside
    rw [instrOfOp_eq_none_iff.mpr outside] at named
    cases named
  · rintro ⟨inTable, rsv, ridx⟩
    cases named : instrOfOp (opField w) (ridxField w).toNat with
    | none => exact absurd inTable (instrOfOp_eq_none_iff.mp named)
    | some i =>
      rw [← op_of_instrOfOp named, ← takesRidx_eq_true_iff] at ridx
      exact ⟨i, decode_eq_ok_iff.mpr ⟨named, rsv, ridx⟩⟩

/-- Issuing a word that does not decode while idle records ILLEGAL_COMMAND (30_encoding.md R104, R107). -/
theorem issue_of_decode_error {w : Word} {s : State} {e : DecodeError} (idle : s.busy = false)
    (undecodable : decode w = .error e) : issue w s = .next (s.cmdError .illegalCommand) := by
  simp [issue, idle, undecodable]

/-! ### Encodings decode -/

/-- The command word is its fields OP and RIDX side by side (30_encoding.md R100). -/
theorem encode_eq_fields {i : Instr} (wf : i.WellFormed) :
    encode i = i.op.setWidth 32 <<< 0 ||| (BitVec.ofNat 4 i.ridx).setWidth 32 <<< 8 := by
  rw [encode, BitVec.shiftLeft_zero, BitVec.setWidth_ofNat_of_le_of_lt (by decide) (ridx_lt wf)]

/-- OP of a command word is its command's OP value. -/
theorem opField_encode {i : Instr} (wf : i.WellFormed) : opField (encode i) = i.op := by
  simp (disch := decide) only [opField, encode_eq_fields wf, BitVec.extractLsb'_or, extractLsb'_shiftLeft_setWidth_self,
    extractLsb'_shiftLeft_setWidth_disjoint, BitVec.or_zero]

/-- RIDX of a command word is its command's operand. -/
theorem ridxField_encode {i : Instr} (wf : i.WellFormed) : ridxField (encode i) = BitVec.ofNat 4 i.ridx := by
  simp (disch := decide) only [ridxField, encode_eq_fields wf, BitVec.extractLsb'_or, extractLsb'_shiftLeft_setWidth_self,
    extractLsb'_shiftLeft_setWidth_disjoint, BitVec.zero_or]

/-- RSV of a command word is 0. -/
theorem rsvField_encode {i : Instr} (wf : i.WellFormed) : rsvField (encode i) = 0 := by
  simp (disch := decide) only [rsvField, encode_eq_fields wf, BitVec.extractLsb'_or,
    extractLsb'_shiftLeft_setWidth_disjoint, BitVec.or_zero, BitVec.ofNat_eq_ofNat]

/-- The word of a well-formed command decodes to it (30_encoding.md R102, R103). -/
theorem decode_encode (i : Instr) (wf : i.WellFormed) : decode (encode i) = .ok i := by
  rw [decode_eq_ok_iff, opField_encode wf, ridxField_encode wf, rsvField_encode wf, BitVec.toNat_ofNat,
    Nat.mod_eq_of_lt (ridx_lt wf)]
  exact ⟨instrOfOp_op i, rfl, by cases i <;> simp [Instr.takesRidx, Instr.ridx]⟩

/-! ### The obligations of the encoding -/

/-- Settles O2: an illegal word does not decode, and what does not decode is rejected. -/
theorem exactlyLegalWordsDecode : Obligations.ExactlyLegalWordsDecode := by
  unfold Obligations.ExactlyLegalWordsDecode
  refine ⟨exists_decode_eq_ok_iff, not_mem_legalOps_iff, fun w s illegal idle => ?_⟩
  cases decoded : decode w with
  | ok i => exact absurd ((exists_decode_eq_ok_iff w).mp ⟨i, decoded⟩) illegal
  | error e => exact issue_of_decode_error idle decoded

/-- Settles O3: the words of the table are the encodings of their commands. -/
theorem tableWordsDecode : Obligations.TableWordsDecode := by
  unfold Obligations.TableWordsDecode
  exact ⟨decode_encode .nop rfl, decode_encode .kexp rfl, decode_encode .enc rfl, decode_encode .dec rfl,
    decode_encode .load rfl, decode_encode .store rfl, decode_encode .sb rfl, decode_encode .isb rfl,
    decode_encode .sr rfl, decode_encode .isr rfl, decode_encode .mc rfl, decode_encode .imc rfl,
    decode_encode .gfmul rfl, decode_encode .sbox rfl, decode_encode .isbox rfl,
    fun n => decode_encode (.ark n.val) (decide_eq_true (by omega)), decode_encode (.ark 10) rfl,
    fun _ => decode_of_opField_not_mem⟩

end Sys2Proof.Machine

/-! PROOFS. The multiplier (40_gf_arith.md R130, R131): remainders modulo 0x11B add under XOR, and the remainder of x times a
polynomial is `gfShift` of its remainder; so each pass of the loop adds the remainder of one shifted copy of `a`. -/

namespace Sys2Proof.Machine

/-! ### Long division by 0x11B -/

/-- A reduction step of a sum is the sum of the reduction steps. -/
theorem polyReduceBit_xor (p q : BitVec 16) (i : Nat) :
    polyReduceBit (p ^^^ q) i = polyReduceBit p i ^^^ polyReduceBit q i := by
  unfold polyReduceBit
  rw [BitVec.getLsbD_xor]
  cases p.getLsbD (8 + i) <;> cases q.getLsbD (8 + i)
  · rfl
  · exact BitVec.xor_assoc p q _
  · change p ^^^ q ^^^ (0x11B#16 <<< i) = p ^^^ (0x11B#16 <<< i) ^^^ q
    ac_rfl
  · calc p ^^^ q
      _ = p ^^^ q ^^^ ((0x11B#16 <<< i) ^^^ (0x11B#16 <<< i)) := by rw [BitVec.xor_self, BitVec.xor_zero]
      _ = (p ^^^ (0x11B#16 <<< i)) ^^^ (q ^^^ (0x11B#16 <<< i)) := by ac_rfl

/-- A reduction step whose bit is clear does nothing. -/
theorem polyReduceBit_of_getLsbD {p : BitVec 16} {i : Nat} (clear : p.getLsbD (8 + i) = false) :
    polyReduceBit p i = p := by
  rw [polyReduceBit, clear]
  rfl

/-- Multiplying by x moves a reduction step up by one bit. -/
theorem polyReduceBit_shiftLeft_one (p : BitVec 16) {i : Nat} (h : i ≤ 6) :
    polyReduceBit (p <<< 1) (i + 1) = polyReduceBit p i <<< 1 := by
  have bit : (p <<< 1).getLsbD (8 + (i + 1)) = p.getLsbD (8 + i) := by
    rw [BitVec.getLsbD_shiftLeft, show 8 + (i + 1) - 1 = 8 + i by omega]
    simp [show 8 + (i + 1) < 16 by omega]
  unfold polyReduceBit
  rw [bit, BitVec.shiftLeft_add]
  split
  · exact (BitVec.shiftLeft_xor_distrib p _ 1).symm
  · rfl

/-- The last reduction step of x times a polynomial is the multiplier's shift (40_gf_arith.md R131: 0x11B with bit 8
dropped is 0x1B). -/
theorem setWidth_polyReduceBit_shiftLeft_one_zero (p : BitVec 16) :
    (polyReduceBit (p <<< 1) 0).setWidth 8 = gfShift (p.setWidth 8) := by
  have bit : (p <<< 1).getLsbD 8 = (p.setWidth 8).getLsbD 7 := by simp
  have shift : (p <<< 1).setWidth 8 = p.setWidth 8 <<< 1 := BitVec.setWidth_shiftLeft_of_le (by decide)
  unfold polyReduceBit gfShift
  rw [bit, ← shift]
  split
  · exact BitVec.setWidth_xor
  · rfl

/-- The remainder of a sum is the sum of the remainders. -/
theorem polyMod_xor (p q : BitVec 16) : polyMod (p ^^^ q) = polyMod p ^^^ polyMod q := by
  simp only [polyMod, List.foldl_cons, List.foldl_nil, polyReduceBit_xor, BitVec.setWidth_xor]

/-- A byte is its own remainder. -/
theorem polyMod_setWidth (a : Byte) : polyMod (a.setWidth 16) = a := by
  have clear (i : Nat) : (a.setWidth 16).getLsbD (8 + i) = false := by
    simp
  simp [polyMod, polyReduceBit_of_getLsbD (clear _)]

/-- The remainder of x times a polynomial of degree below 14 is the shift of its remainder (40_gf_arith.md R131). -/
theorem polyMod_shiftLeft_one {p : BitVec 16} (clear : p.getLsbD 14 = false) :
    polyMod (p <<< 1) = gfShift (polyMod p) := by
  have top : polyReduceBit p 6 = p := polyReduceBit_of_getLsbD clear
  simp (disch := decide) only [polyMod, List.foldl_cons, List.foldl_nil, polyReduceBit_shiftLeft_one, top,
    setWidth_polyReduceBit_shiftLeft_one_zero]

/-- Times x^n, a byte leaves the remainder of n shifts. -/
theorem polyMod_setWidth_shiftLeft (a : Byte) {n : Nat} (h : n ≤ 7) :
    polyMod (a.setWidth 16 <<< n) = gfShift^[n] a := by
  induction n with
  | zero => rw [BitVec.shiftLeft_zero, polyMod_setWidth]; rfl
  | succ n ih =>
    have clear : (a.setWidth 16 <<< n).getLsbD 14 = false := by
      simp [BitVec.getLsbD_of_ge a (14 - n) (by omega)]
    rw [BitVec.shiftLeft_add, polyMod_shiftLeft_one clear, ih (by omega), Function.iterate_succ_apply']

/-! ### The loop, by its last pass -/

/-- The carry-less product of `a` and the low `n` bits of `b`. -/
def clmulLow (n : Nat) (a b : Byte) : BitVec 16 :=
  (List.range n).foldl (fun p i => if b.getLsbD i then p ^^^ (a.setWidth 16 <<< i) else p) 0

/-- Bit n of `b` adds one shifted copy of `a`. -/
theorem clmulLow_succ (n : Nat) (a b : Byte) :
    clmulLow (n + 1) a b =
      if b.getLsbD n then clmulLow n a b ^^^ (a.setWidth 16 <<< n) else clmulLow n a b := by
  rw [clmulLow, List.range_succ, List.foldl_append]
  rfl

/-- Pass n + 1 of the loop adds `a`, shifted n times, when bit n of `b` is set. -/
theorem gfLoop_succ (n : Nat) (a b p : Byte) :
    gfLoop (n + 1) a b p = if b.getLsbD n then gfLoop n a b p ^^^ gfShift^[n] a else gfLoop n a b p := by
  induction n generalizing a b p with
  | zero => rfl
  | succ n ih =>
    rw [gfLoop, ih, BitVec.getLsbD_ushiftRight, Nat.add_comm 1 n]
    rfl

/-- n passes of the loop leave the remainder of the product with the low n bits of `b` (40_gf_arith.md R130). -/
theorem gfLoop_eq_polyMod_clmulLow (a b : Byte) {n : Nat} (h : n ≤ 8) :
    gfLoop n a b 0 = polyMod (clmulLow n a b) := by
  induction n with
  | zero => exact (by decide : (0 : Byte) = polyMod 0)
  | succ n ih =>
    rw [gfLoop_succ, clmulLow_succ, ih (by omega), ← polyMod_setWidth_shiftLeft a (by omega), ← polyMod_xor]
    exact (apply_ite polyMod _ _ _).symm

/-- Settles O16: the product takes all eight bits of `b`, and the multiplier all eight passes. -/
theorem gfmulIsPolynomialProductModulo11B : Obligations.GfmulIsPolynomialProductModulo11B := by
  unfold Obligations.GfmulIsPolynomialProductModulo11B
  exact fun a b => gfLoop_eq_polyMod_clmulLow a b (le_refl 8)

end Sys2Proof.Machine

/-! PROOFS. The key schedule as a list of words (41_key_schedule.md R164): what one more word adds, and so what `n` more words
add, to the words of the key. -/

namespace Sys2Proof.Machine

/-! ### The words of a byte sequence -/

/-- A byte sequence holds one word for every four bytes. -/
theorem length_wordsOfBytes (key : List Byte) : (wordsOfBytes key).length = key.length / 4 := by
  induction key using wordsOfBytes.induct with
  | case1 a0 a1 a2 a3 rest ih => simp only [wordsOfBytes, List.length_cons, ih]; omega
  | case2 key short =>
    match key, short with
    | [], _ | [_], _ | [_, _], _ | [_, _, _], _ => simp [wordsOfBytes]
    | a0 :: a1 :: a2 :: a3 :: rest, short => exact absurd rfl (short a0 a1 a2 a3 rest)

/-- Word i of a byte sequence is its bytes 4i to 4i + 3 (41_key_schedule.md R164). -/
theorem wordsOfBytes_getElem? {key : List Byte} {i : Nat} {b0 b1 b2 b3 : Byte} (h0 : key[4 * i]? = some b0)
    (h1 : key[4 * i + 1]? = some b1) (h2 : key[4 * i + 2]? = some b2) (h3 : key[4 * i + 3]? = some b3) :
    (wordsOfBytes key)[i]? = some (wordOfBytes b0 b1 b2 b3) := by
  induction i generalizing key with
  | zero =>
    match key, h0, h1, h2, h3 with
    | _ :: _ :: _ :: _ :: _, rfl, rfl, rfl, rfl => rfl
  | succ i ih =>
    match key, h0, h1, h2, h3 with
    | _ :: _ :: _ :: _ :: _, h0, h1, h2, h3 => exact ih h0 h1 h2 h3

/-! ### Words of the loop body -/

/-- A word of a list stays where it is when the list grows. -/
theorem getElem?_append_of_eq_some {w : List Word} {i : Nat} {x : Word} (h : w[i]? = some x) (more : List Word) :
    (w ++ more)[i]? = some x := by
  obtain ⟨low, -⟩ := List.getElem?_eq_some_iff.mp h
  rw [List.getElem?_append_left low, h]

/-- A store that agrees with `f` where `f` has words keeps the loop body's words of `f`. -/
theorem LoopBodyWords.mono {nk n : Nat} {f g : Nat → Option Word} (agree : ∀ i x, f i = some x → g i = some x)
    (h : LoopBodyWords nk n f) : LoopBodyWords nk n g := fun i low high =>
  have ⟨prev, back, temp, hprev, hback, htemp, hi⟩ := h i low high
  ⟨prev, back, temp, agree _ _ hprev, agree _ _ hback, htemp, agree _ _ hi⟩

/-- The word after a list is the loop body's (41_key_schedule.md R164). -/
theorem nextScheduleWord?_eq_some {nk : Nat} {w : List Word} {x : Word} :
    nextScheduleWord? nk w = some x ↔ ∃ prev back temp, w[w.length - 1]? = some prev ∧ w[w.length - nk]? = some back ∧
      LoopBodyTemp nk w.length prev temp ∧ x = back ^^^ temp := by
  unfold nextScheduleWord?
  cases w[w.length - 1]? with
  | none => simp
  | some prev =>
    cases w[w.length - nk]? with
    | none => simp
    | some back =>
      simp only [Option.some.injEq, exists_and_left, exists_eq_left', ← scheduleTemp?_eq_some]
      cases scheduleTemp? nk w.length prev with
      | none => simp
      | some temp => simp [eq_comm (a := x)]

/-- The word after a list extends the loop body's words by one. -/
theorem LoopBodyWords.append_nextScheduleWord {nk : Nat} {w : List Word} {x : Word}
    (h : LoopBodyWords nk w.length (w[·]?)) (next : nextScheduleWord? nk w = some x) :
    LoopBodyWords nk (w ++ [x]).length ((w ++ [x])[·]?) := by
  have agree (i : Nat) (y : Word) (hi : w[i]? = some y) : (w ++ [x])[i]? = some y := getElem?_append_of_eq_some hi [x]
  intro i low high
  rw [List.length_append, List.length_singleton] at high
  rcases Nat.lt_succ_iff_lt_or_eq.mp high with old | rfl
  · exact h.mono agree i low old
  · obtain ⟨prev, back, temp, hprev, hback, htemp, rfl⟩ := nextScheduleWord?_eq_some.mp next
    exact ⟨prev, back, temp, agree _ _ hprev, agree _ _ hback, htemp, List.getElem?_concat_length⟩

/-- A list that holds the key and is shorter than the schedule has a next word: RCON has every entry asked for
(41_key_schedule.md R168). -/
theorem exists_nextScheduleWord {nk : Nat} {w : List Word} (variant : nk = 4 ∨ nk = 6 ∨ nk = 8) (key : nk ≤ w.length)
    (short : w.length < 4 * (nk + 7)) : ∃ x, nextScheduleWord? nk w = some x := by
  have hprev : w[w.length - 1]? = some w[w.length - 1] := List.getElem?_eq_getElem _
  have hback : w[w.length - nk]? = some w[w.length - nk] := List.getElem?_eq_getElem _
  obtain ⟨temp, htemp⟩ := scheduleTemp_isSome w[w.length - 1] (by omega) key
  exact ⟨_, nextScheduleWord?_eq_some.mpr ⟨_, _, temp, hprev, hback, scheduleTemp?_eq_some.mp htemp, rfl⟩⟩

/-- `n` more words, no further than the schedule's end, are `n` more words of the loop body after the same list. -/
theorem expandWords?_eq_some_append {nk n : Nat} {w : List Word} (variant : nk = 4 ∨ nk = 6 ∨ nk = 8)
    (key : nk ≤ w.length) (fits : w.length + n ≤ 4 * (nk + 7)) (h : LoopBodyWords nk w.length (w[·]?)) :
    ∃ more, expandWords? nk n w = some (w ++ more) ∧ more.length = n ∧
      LoopBodyWords nk (w ++ more).length ((w ++ more)[·]?) := by
  induction n generalizing w with
  | zero => exact ⟨[], by simp [expandWords?], rfl, by simpa using h⟩
  | succ n ih =>
    obtain ⟨x, next⟩ := exists_nextScheduleWord variant key (by omega)
    have len : (w ++ [x]).length = w.length + 1 := List.length_append
    obtain ⟨more, expand, count, words⟩ :=
      ih (w := w ++ [x]) (by omega) (by omega) (h.append_nextScheduleWord next)
    rw [List.append_assoc, List.singleton_append] at expand words
    exact ⟨x :: more, by simpa only [expandWords?, next] using expand, congrArg (· + 1) count, words⟩

/-- KeyExpansion of a key of nk words appends the rest of the 4(nk + 7) words to them (41_key_schedule.md R160, R164). -/
theorem keyExpansion?_eq_expandWords {nk : Nat} {key : List Byte} (variant : nk = 4 ∨ nk = 6 ∨ nk = 8)
    (len : key.length = 4 * nk) : keyExpansion? key = expandWords? nk (4 * (nk + 7) - nk) (wordsOfBytes key) := by
  have words : key.length / 4 = nk := by omega
  rw [keyExpansion?, if_pos (by omega), words]
  rfl

/-- Settles O56: the key's words are the list that the expansion starts from and keeps, and the loop body makes the rest. -/
theorem keyExpansionFollowsItsLoop : Obligations.KeyExpansionFollowsItsLoop := by
  unfold Obligations.KeyExpansionFollowsItsLoop
  intro nk key variant len
  have words : (wordsOfBytes key).length = nk := by rw [length_wordsOfBytes]; omega
  have start : LoopBodyWords nk (wordsOfBytes key).length ((wordsOfBytes key)[·]?) := fun i low high => by omega
  obtain ⟨more, expand, count, loop⟩ :=
    expandWords?_eq_some_append (n := 4 * (nk + 7) - nk) variant words.ge (by omega) start
  have total : (wordsOfBytes key ++ more).length = 4 * (nk + 7) := by rw [List.length_append]; omega
  rw [total] at loop
  exact ⟨wordsOfBytes key ++ more, (keyExpansion?_eq_expandWords variant len).trans expand, total,
    fun i b0 b1 b2 b3 _ h0 h1 h2 h3 => getElem?_append_of_eq_some (wordsOfBytes_getElem? h0 h1 h2 h3) more, loop⟩

end Sys2Proof.Machine

/-! PROOFS. The round transforms, byte by byte (42_round_transforms.md R180 to R183, R186), and the words of a round key. -/

namespace Sys2Proof.Machine

/-! ### One byte of a transform -/

/-- SubBytes looks each byte up in the S-box (R180). -/
@[simp] theorem at_subBytes (m : AesState) (r c : Fin 4) : (subBytes m).at r c = sbox (m.at r c) :=
  AesState.at_build _ r c

/-- InvSubBytes looks each byte up in the inverse S-box (R181). -/
@[simp] theorem at_invSubBytes (m : AesState) (r c : Fin 4) : (invSubBytes m).at r c = invSbox (m.at r c) :=
  AesState.at_build _ r c

/-- ShiftRows takes the byte r columns to the right, around the row (R182). -/
@[simp] theorem at_shiftRows (m : AesState) (r c : Fin 4) : (shiftRows m).at r c = m.at r (c + r) :=
  AesState.at_build _ r c

/-- InvShiftRows takes the byte r columns to the left, around the row (R183). -/
@[simp] theorem at_invShiftRows (m : AesState) (r c : Fin 4) : (invShiftRows m).at r c = m.at r (c - r) :=
  AesState.at_build _ r c

/-- AddRoundKey adds byte r of key word c to S[r][c] (R186). -/
@[simp] theorem at_addRoundKey (m : AesState) (k : Vector Word 4) (r c : Fin 4) :
    (addRoundKey m k).at r c = m.at r c ^^^ wordByte k[c] r :=
  AesState.at_build _ r c

/-! ### Column arithmetic and the round key -/

/-- The column r to the left, written without a negative intermediate value as R183 has it. -/
theorem column_sub_eq (c r : Fin 4) : c - r = ⟨(c.val + 4 - r.val) % 4, by omega⟩ := by
  apply Fin.ext
  rw [Fin.val_sub]
  congr 1
  omega

/-- A round key that the store has is its words 4n to 4n + 3, all below 60 (R186). -/
theorem getElem?_of_roundKey?_eq_some {rk : Vector Word 60} {n : Nat} {k : Vector Word 4} (h : roundKey? rk n = some k)
    (c : Fin 4) : rk[4 * n + c.val]? = some k[c] := by
  unfold roundKey? at h
  split at h
  case isTrue inStore =>
    cases h
    rw [Vector.getElem?_eq_getElem (by omega)]
    fin_cases c <;> rfl
  case isFalse => contradiction

/-- Settles O23: each transform is built byte by byte, and addition and subtraction of columns are modulo 4. -/
theorem transformsActByteByByte : Obligations.TransformsActByteByByte := by
  unfold Obligations.TransformsActByteByByte
  intro m k r c
  refine ⟨at_subBytes m r c, at_invSubBytes m r c, at_shiftRows m r c, ?_, at_addRoundKey m k r c,
    fun rk n h => getElem?_of_roundKey?_eq_some h c⟩
  rw [at_invShiftRows, column_sub_eq]

end Sys2Proof.Machine

/-! PROOFS. The phases of ENC and DEC between two round keys (43_block_cipher.md R225 to R230): what each does in one step, and
where a step can enter IMC from. -/

namespace Sys2Proof.Machine

/-! ### The step of a phase -/

/-- A busy engine performs the rule of its phase (R235). -/
theorem engineStep_of_busy {s : State} (busy : s.busy = true) : engineStep s = phaseStep s := if_pos busy

/-- The final round of encryption skips MixColumns (R226). -/
theorem phaseSr_of_round_eq {s : State} (last : s.round = s.nr) :
    phaseSr s = .next { s with st := shiftRows s.st, phase := .ark } := by
  rw [phaseSr, if_pos last]

/-- A full round of encryption goes on with MixColumns (R226). -/
theorem phaseSr_of_round_ne {s : State} (full : s.round ≠ s.nr) :
    phaseSr s = .next { s with st := shiftRows s.st, phase := .mc } := by
  rw [phaseSr, if_neg full]

/-- With a round left, IMC goes down to it (R230). -/
theorem phaseImc_of_round_ne {s : State} (left : s.round ≠ 0) :
    phaseImc s = .next { s with st := invMixColumns s.st, round := s.round - 1, phase := .isr } :=
  if_neg left

/-! ### Where IMC is entered from -/

/-- A single-step command that steps completes (R235). -/
theorem phase_of_primStep_eq_next {s t : State} (step : primStep s = .next t) : t.phase = .idle := by
  unfold primStep at step
  cases opc : s.opc <;> rw [opc] at step
  case ark =>
    change engineArk s = .next t at step
    unfold engineArk at step
    split at step <;> cases step
    rfl
  all_goals cases step <;> rfl

/-- A KEXP step stays in its phase or completes (41_key_schedule.md R167). -/
theorem phase_of_engineKexp_eq_next {s t : State} (step : engineKexp s = .next t) : t.phase = .idle ∨ t.phase = s.phase := by
  obtain ⟨_, _, _, _, -, -, -, ⟨-, rfl⟩ | ⟨-, rfl⟩⟩ := engineKexp_cases step
  · exact .inl rfl
  · exact .inr rfl

/-- A step in phase ARK adds a round key and goes on by direction (R224). -/
theorem phaseArk_eq_next {s t : State} (step : phaseArk s = .next t) :
    ∃ k, roundKey? s.rk s.round.toNat = some k ∧ t = (s.withMatrix (addRoundKey s.st k)).afterArk := by
  unfold phaseArk at step
  split at step <;> cases step
  exact ⟨_, ‹_›, rfl⟩

/-- ARK goes on to IMC only in decryption, and only between its first round key and its last; nothing else changes then
(R224). -/
theorem State.afterArk_of_phase_eq_imc {s : State} (imc : s.afterArk.phase = .imc) :
    s.dir = true ∧ s.round ≠ 0 ∧ s.round ≠ s.nr ∧ s.afterArk = { s with phase := .imc } := by
  unfold State.afterArk at imc ⊢
  split_ifs at imc ⊢ with dec _ notLast notFirst
  case neg => exact ⟨Bool.eq_true_of_not_eq_false dec, notLast, notFirst, rfl⟩
  all_goals contradiction

/-- A step that ends in IMC is decryption's ARK between the first round key and the last (R224, R230). -/
theorem phaseStep_enters_imc {s t : State} (step : phaseStep s = .next t) (imc : t.phase = .imc) :
    s.phase = .ark ∧ s.dir = true ∧ t.round ≠ 0 ∧ t.round ≠ t.nr := by
  unfold phaseStep at step
  cases phase : s.phase <;> rw [phase] at step
  case kexp =>
    rcases phase_of_engineKexp_eq_next step with completes | stays
    · rw [completes] at imc; contradiction
    · rw [stays, phase] at imc; contradiction
  case ark =>
    obtain ⟨k, -, rfl⟩ := phaseArk_eq_next step
    obtain ⟨dec, notLast, notFirst, same⟩ := State.afterArk_of_phase_eq_imc imc
    rw [same]
    exact ⟨rfl, dec, notLast, notFirst⟩
  case sr =>
    cases step
    split_ifs at imc
  case imc =>
    change phaseImc s = .next t at step
    unfold phaseImc at step
    split_ifs at step
    cases step
    contradiction
  case prim => rw [phase_of_primStep_eq_next step] at imc; contradiction
  all_goals cases step <;> contradiction

/-- In a good state phase IMC is below round NR (R223, R230). -/
theorem Inv.round_lt_of_phase_eq_imc {s : State} (h : Inv s) (imc : s.phase = .imc) : s.round.toNat < s.nr.toNat := by
  obtain ⟨-, -, facts⟩ := h.cipher_running (by rw [imc]; rfl)
  rw [cipherPhaseOk, imc] at facts
  obtain ⟨-, -, -, below⟩ := facts
  exact below

/-- In a good state the round of a step into IMC is below NR: the invariant holds of the state it goes on to (R230). -/
theorem engineStep_enters_imc {s t : State} (busy : s.busy = true) (step : engineStep s = .next t) (imc : t.phase = .imc) :
    s.phase = .ark ∧ s.dir = true ∧ t.round ≠ 0 ∧ t.round ≠ t.nr ∧ (Inv s → t.round.toNat < t.nr.toNat) := by
  obtain ⟨ark, dec, notLast, notFirst⟩ := phaseStep_enters_imc ((engineStep_of_busy busy).symm.trans step) imc
  exact ⟨ark, dec, notLast, notFirst, fun good => (engineStep_inv good step).round_lt_of_phase_eq_imc imc⟩

/-- Settles O15: the step of a busy engine is its phase's rule, and a step that ends in IMC comes from decryption's ARK. -/
theorem cipherPhasesApplyTheirTransform : Obligations.CipherPhasesApplyTheirTransform := by
  unfold Obligations.CipherPhasesApplyTheirTransform
  intro s busy
  refine ⟨fun sb => ?_, fun sr last => ?_, fun sr full => ?_, fun mc => ?_, fun isr => ?_, fun isb => ?_, fun imc left => ?_,
    fun _ step imc => engineStep_enters_imc busy step imc⟩
  all_goals rw [engineStep_of_busy busy, phaseStep]
  · rw [sb]; rfl
  · rw [sr]; exact phaseSr_of_round_eq last
  · rw [sr]; exact phaseSr_of_round_ne full
  · rw [mc]; rfl
  · rw [isr]; rfl
  · rw [isb]; rfl
  · rw [imc]; exact phaseImc_of_round_ne left

end Sys2Proof.Machine

/-! PROOFS. The error rules of a CMD write: the first failing check is the one reported (60_exceptions.md R264, R266), a rejection while
busy leaves the command in progress alone (R263), and the interrupt line follows DONE and ERR (R270). -/

namespace Sys2Proof.Machine

/-! ### Issue reports the first failing check -/

/-- ARK's operand is the RIDX it was decoded from. -/
theorem eq_of_instrOfOp_eq_ark {op : Byte} {m n : Nat} (named : instrOfOp op n = some (.ark m)) : m = n := by
  revert named
  fun_cases instrOfOp op n <;> rintro ⟨⟩
  rfl

/-- KEYLEN fails its check when it is none of the three key lengths (41_key_schedule.md R165). -/
theorem keylenOk_eq_false_iff (keylen : Byte) : keylenOk keylen = false ↔ keylen ≠ 16 ∧ keylen ≠ 24 ∧ keylen ≠ 32 := by
  simp [keylenOk, and_assoc]

/-- DINLEN fails its check when it is not the block length (42_round_transforms.md R191). -/
theorem dinlenOk_eq_false_iff (dinlen : Byte) : dinlenOk dinlen = false ↔ dinlen ≠ 16 := by
  simp [dinlenOk]

/-- While busy the first failing check is BUSY, whatever the word. -/
theorem issueError_of_busy (v : Word) {s : State} (busy : s.busy = true) : issueError v s = some .busy := if_pos busy

/-- While idle the first failing check of a word that does not decode is its legality. -/
theorem issueError_of_decode_error {v : Word} {s : State} {e : DecodeError} (idle : s.busy = false)
    (undecodable : decode v = .error e) : issueError v s = some .illegalCommand := by
  have illegal : ¬ Legal v := fun legal => by
    obtain ⟨i, decoded⟩ := (exists_decode_eq_ok_iff v).mpr legal
    rw [undecodable] at decoded
    cases decoded
  simp only [issueError, if_neg (ne_true_of_eq_false idle), if_pos illegal]

/-- While idle the first failing check of a word that decodes is that of its command. -/
theorem issueError_of_decode_ok {v : Word} {s : State} {i : Instr} (idle : s.busy = false) (decoded : decode v = .ok i) :
    issueError v s = firstError (commandChecks i s) := by
  have legal : Legal v := (exists_decode_eq_ok_iff v).mp ⟨i, decoded⟩
  obtain ⟨named, -, -⟩ := decode_eq_ok_iff.mp decoded
  simp only [issueError, if_neg (ne_true_of_eq_false idle), if_neg (not_not_intro legal), ← op_of_instrOfOp named]
  cases i with
  | ark n =>
    obtain rfl : n = (ridxField v).toNat := eq_of_instrOfOp_eq_ark named
    simp [Instr.op, commandChecks, firstError, BitVec.lt_def]
  | _ => simp [Instr.op, commandChecks, firstError, keylenOk_eq_false_iff, dinlenOk_eq_false_iff]

/-- A failing check rejects the command with its code. -/
theorem issue_of_issueError_eq_some {v : Word} {s : State} {e : ErrCode} (fails : issueError v s = some e) :
    issue v s = .next (s.cmdError e) := by
  cases status : s.busy with
  | true =>
    rw [issueError_of_busy v status] at fails
    cases fails
    exact if_pos status
  | false =>
    cases decoded : decode v with
    | error _ =>
      rw [issueError_of_decode_error status decoded] at fails
      cases fails
      exact issue_of_decode_error status decoded
    | ok i =>
      rw [issueError_of_decode_ok status decoded] at fails
      rw [issue_of_decode s decoded, exec_eq_issueChecked, issueChecked_error status fails]

/-- With no failing check the word decodes and its command is accepted. -/
theorem issue_of_issueError_eq_none {v : Word} {s : State} (passes : issueError v s = none) :
    ∃ i, decode v = .ok i ∧ issue v s = .next (commandAccept i s) := by
  cases status : s.busy with
  | true => rw [issueError_of_busy v status] at passes; cases passes
  | false =>
    cases decoded : decode v with
    | error _ => rw [issueError_of_decode_error status decoded] at passes; cases passes
    | ok i =>
      rw [issueError_of_decode_ok status decoded] at passes
      exact ⟨i, rfl, by rw [issue_of_decode s decoded, exec_eq_issueChecked, issueChecked_ok status passes]⟩

/-- Settles O5: R104's procedure in words and the model's list of checks have the same first failing check. -/
theorem issueReportsTheFirstFailingCheck : Obligations.IssueReportsTheFirstFailingCheck := by
  unfold Obligations.IssueReportsTheFirstFailingCheck
  refine fun v s => ⟨fun _ fails => issue_of_issueError_eq_some fails, fun passes => ?_⟩
  obtain ⟨i, decoded, accepted⟩ := issue_of_issueError_eq_none passes
  obtain ⟨busy, done, opc, err, errcode, -⟩ := commandAccept_lifecycle i s
  exact ⟨i, _, decoded, accepted, busy, done, opc, err, errcode⟩

/-! ### The engine and the host's inputs

The engine neither reads nor writes what the host may rewrite while a command runs (20_memory.md R83). So a step commutes with any
replacement of it; replacing it by itself shows that a step keeps it. -/

/-- What the host may rewrite while a command runs, as it stands in `s`. -/
def State.inputs (s : State) : HostInputs :=
  ⟨s.ie, s.keylen, s.dinlen, s.gfa, s.gfb, s.key, s.din, s.err, s.errcode⟩

/-- `s` with its inputs changed by `g`. -/
def State.mapInputs (g : HostInputs → HostInputs) (s : State) : State := s.withInputs (g s.inputs)

@[simp] theorem State.withInputs_phase (s : State) (x : HostInputs) : (s.withInputs x).phase = s.phase := rfl
@[simp] theorem State.withInputs_opc (s : State) (x : HostInputs) : (s.withInputs x).opc = s.opc := rfl
@[simp] theorem State.withInputs_rk (s : State) (x : HostInputs) : (s.withInputs x).rk = s.rk := rfl
@[simp] theorem State.withInputs_round (s : State) (x : HostInputs) : (s.withInputs x).round = s.round := rfl
@[simp] theorem State.withInputs_kidx (s : State) (x : HostInputs) : (s.withInputs x).kidx = s.kidx := rfl
@[simp] theorem State.withInputs_nk (s : State) (x : HostInputs) : (s.withInputs x).nk = s.nk := rfl
@[simp] theorem State.inputs_withInputs (s : State) (x : HostInputs) : (s.withInputs x).inputs = x := rfl
@[simp] theorem State.withInputs_inputs (s : State) : s.withInputs s.inputs = s := rfl

/-- How phase ARK goes on does not depend on the inputs. -/
theorem State.afterArk_withInputs (s : State) (x : HostInputs) : (s.withInputs x).afterArk = s.afterArk.withInputs x := by
  simp only [State.afterArk, apply_ite (State.withInputs x)]
  rfl

/-- ARK's engine step does not depend on the inputs. -/
theorem engineArk_withInputs (s : State) (x : HostInputs) :
    engineArk (s.withInputs x) = mapNext (State.withInputs x) (engineArk s) := by
  simp only [engineArk, State.withInputs_rk, State.withInputs_round]
  cases roundKey? s.rk s.round.toNat <;> rfl

/-- A single-step command's engine step does not depend on the inputs. -/
theorem primStep_withInputs (s : State) (x : HostInputs) :
    primStep (s.withInputs x) = mapNext (State.withInputs x) (primStep s) := by
  simp only [primStep, State.withInputs_opc]
  cases s.opc with
  | ark => exact engineArk_withInputs s x
  | _ => rfl

/-- A KEXP step does not depend on the inputs. -/
theorem engineKexp_withInputs (s : State) (x : HostInputs) :
    engineKexp (s.withInputs x) = mapNext (State.withInputs x) (engineKexp s) := by
  simp only [engineKexp, State.withInputs_rk, State.withInputs_kidx, State.withInputs_nk]
  rcases rkBack? s.rk s.kidx.toNat 1 with _ | prev
  · rfl
  rcases rkBack? s.rk s.kidx.toNat s.nk.toNat with _ | back
  · rfl
  simp only
  rcases scheduleTemp? s.nk.toNat s.kidx.toNat prev with _ | temp
  · rfl
  simp only [apply_dite (mapNext (State.withInputs x)), apply_ite (mapNext (State.withInputs x))]
  rfl

/-- Phase ARK does not depend on the inputs. -/
theorem phaseArk_withInputs (s : State) (x : HostInputs) :
    phaseArk (s.withInputs x) = mapNext (State.withInputs x) (phaseArk s) := by
  simp only [phaseArk, State.withInputs_rk, State.withInputs_round]
  cases roundKey? s.rk s.round.toNat with
  | none => rfl
  | some k => exact congrArg Host.Outcome.next (State.afterArk_withInputs (s.withMatrix (addRoundKey s.st k)) x)

/-- Phase IMC does not depend on the inputs. -/
theorem phaseImc_withInputs (s : State) (x : HostInputs) :
    phaseImc (s.withInputs x) = mapNext (State.withInputs x) (phaseImc s) := by
  rw [phaseImc, phaseImc, apply_ite (mapNext (State.withInputs x))]
  rfl

/-- No phase depends on the inputs. -/
theorem phaseStep_withInputs (s : State) (x : HostInputs) :
    phaseStep (s.withInputs x) = mapNext (State.withInputs x) (phaseStep s) := by
  simp only [phaseStep, State.withInputs_phase]
  cases s.phase with
  | kexp => exact engineKexp_withInputs s x
  | ark => exact phaseArk_withInputs s x
  | imc => exact phaseImc_withInputs s x
  | prim => exact primStep_withInputs s x
  | _ => rfl

/-- An engine step commutes with any replacement of the inputs. -/
theorem engineStep_withInputs (s : State) (x : HostInputs) :
    engineStep (s.withInputs x) = mapNext (State.withInputs x) (engineStep s) := by
  rw [engineStep, engineStep, apply_ite (mapNext (State.withInputs x)), phaseStep_withInputs]
  rfl

/-- An engine step keeps the inputs. -/
theorem inputs_of_engineStep_eq_next {s t : State} (step : engineStep s = .next t) : t.inputs = s.inputs := by
  have same := engineStep_withInputs s s.inputs
  rw [State.withInputs_inputs, step, mapNext, Host.Outcome.next.injEq] at same
  rw [same, State.inputs_withInputs]

/-- An engine step commutes with any change of the inputs. -/
theorem engineStep_mapInputs (g : HostInputs → HostInputs) (s : State) :
    engineStep (s.mapInputs g) = mapNext (State.mapInputs g) (engineStep s) := by
  rw [State.mapInputs, engineStep_withInputs]
  cases step : engineStep s with
  | next t => simp only [mapNext, State.mapInputs, inputs_of_engineStep_eq_next step]
  | _ => rfl

/-- A run of engine steps commutes with any change of the inputs. -/
theorem engineRun_mapInputs (g : HostInputs → HostInputs) (n : Nat) (s : State) :
    engineRun n (s.mapInputs g) = mapNext (State.mapInputs g) (engineRun n s) := by
  induction n generalizing s with
  | zero => rfl
  | succ n ih =>
    rw [engineRun, engineRun, engineStep_mapInputs]
    cases engineStep s with
    | next t => exact ih t
    | _ => rfl

/-- Settles O6: the rejection changes the error record only, and the engine's run commutes with any change of it. -/
theorem busyRejectionLeavesTheRunningCommandAlone : Obligations.BusyRejectionLeavesTheRunningCommandAlone := by
  unfold Obligations.BusyRejectionLeavesTheRunningCommandAlone
  exact fun v s busy => ⟨issue_of_issueError_eq_some (issueError_of_busy v busy),
    fun n => engineRun_mapInputs (fun x => { x with err := true, errcode := .busy }) n s⟩

/-! ### The interrupt line -/

/-- The interrupt line is the enabled OR of its two sources. -/
theorem State.irq_eq_true_iff (s : State) : s.irq = true ↔ s.ie = true ∧ (s.done = true ∨ s.err = true) := by
  simp [State.irq]

/-- A CMD write neither reads nor writes CTRL.IE. -/
theorem issue_with_ie (v : Word) (s : State) (b : Bool) :
    issue v { s with ie := b } = mapNext (fun t => { t with ie := b }) (issue v s) := by
  have same : issueError v { s with ie := b } = issueError v s := rfl
  cases verdict : issueError v s with
  | some e =>
    rw [issue_of_issueError_eq_some verdict, issue_of_issueError_eq_some (same.trans verdict)]
    rfl
  | none =>
    obtain ⟨i, decoded, accepted⟩ := issue_of_issueError_eq_none verdict
    obtain ⟨j, decoded', accepted'⟩ := issue_of_issueError_eq_none (same.trans verdict)
    obtain rfl : i = j := Except.ok.inj (decoded.symm.trans decoded')
    rw [accepted, accepted']
    cases i <;> rfl

/-- A CMD write that makes an idle block busy is an acceptance, which clears DONE (30_encoding.md R105). -/
theorem done_of_exec_accepts {s t : State} {i : Instr} (idle : s.busy = false) (step : exec i s = .next t)
    (accepted : t.busy = true) : t.done = false := by
  rw [exec_eq_issueChecked] at step
  rcases issueChecked_cases step with ⟨busy, -⟩ | ⟨-, e, -, rfl⟩ | ⟨-, -, rfl⟩
  · rw [idle] at busy; contradiction
  · rw [State.cmdError_busy, idle] at accepted; contradiction
  · obtain ⟨-, done, -⟩ := commandAccept_lifecycle i s
    exact done

/-- Settles O44: the line is computed from IE, DONE and ERR, and neither a CMD write nor an engine step looks at IE. -/
theorem interruptLineFollowsDoneAndErr : Obligations.InterruptLineFollowsDoneAndErr := by
  unfold Obligations.InterruptLineFollowsDoneAndErr
  refine ⟨State.irq_eq_true_iff, fun s => ?_, fun s raised => ?_, fun s v b => ⟨issue_with_ie v s b, ?_⟩,
    fun _ _ _ => done_of_exec_accepts, rfl⟩
  · simp [writeReg, State.irq]
  · exact (State.irq_eq_true_iff _).mpr ⟨rfl, raised⟩
  · exact engineStep_mapInputs (fun x => { x with ie := b }) s

end Sys2Proof.Machine

/-! PROOFS. A command word is its three fields side by side (30_encoding.md R100), so decoding and encoding are inverse. -/

namespace Sys2Proof.Machine

/-- A word is its fields OP, RIDX and RSV, each at its place (30_encoding.md R100). -/
theorem word_eq_fields (w : Word) :
    w = (opField w).setWidth 32 <<< 0 ||| (ridxField w).setWidth 32 <<< 8 ||| (rsvField w).setWidth 32 <<< 12 := by
  apply BitVec.eq_of_getLsbD_eq
  intro i hi
  simp only [opField, ridxField, rsvField, BitVec.getLsbD_or, BitVec.getLsbD_shiftLeft, BitVec.getLsbD_setWidth,
    BitVec.getLsbD_extractLsb']
  rcases Nat.lt_or_ge i 8 with op | op
  · simp [op, show i < 12 by omega, hi]
  rcases Nat.lt_or_ge i 12 with ridx | ridx
  · simp [hi, ridx, show ¬ i < 8 by omega, show i - 8 < 4 by omega, show i - 8 < 32 by omega, show 8 + (i - 8) = i by omega]
  · simp [hi, show ¬ i < 8 by omega, show ¬ i < 12 by omega, show ¬ i - 8 < 4 by omega, show i - 12 < 20 by omega,
      show i - 12 < 32 by omega, show 12 + (i - 12) = i by omega]

/-- A word that decodes has its command's RIDX in RIDX: ARK's operand was taken from there, and any other command's RIDX is 0
(30_encoding.md R103, R107). -/
theorem ridx_of_decode {w : Word} {i : Instr} (decoded : decode w = .ok i) : i.ridx = (ridxField w).toNat := by
  obtain ⟨named, -, ridx⟩ := decode_eq_ok_iff.mp decoded
  cases i with
  | ark n => exact eq_of_instrOfOp_eq_ark named
  | _ =>
    have zero : ridxField w = 0 := ridx.resolve_left nofun
    rw [zero]; rfl

/-- Only well-formed commands decode: RIDX has four bits. -/
theorem wellFormed_of_decode {w : Word} {i : Instr} (decoded : decode w = .ok i) : i.WellFormed := by
  have ridx := ridx_of_decode decoded
  cases i with
  | ark n =>
    rw [Instr.ridx] at ridx
    exact decide_eq_true (by omega)
  | _ => rfl

/-- A word that decodes is the encoding of its command: no field of it is left over. -/
theorem encode_of_decode {w : Word} {i : Instr} (decoded : decode w = .ok i) : encode i = w := by
  obtain ⟨named, rsv, -⟩ := decode_eq_ok_iff.mp decoded
  rw [encode_eq_fields (wellFormed_of_decode decoded), ridx_of_decode decoded, op_of_instrOfOp named, BitVec.ofNat_toNat,
    BitVec.setWidth_eq]
  conv_rhs => rw [word_eq_fields w, rsv]
  simp

/-- Settles O1: a word that decodes is rebuilt from its fields, and the fields of an encoding are those of its command. -/
theorem decodeInvertsEncode : Obligations.DecodeInvertsEncode := by
  unfold Obligations.DecodeInvertsEncode
  refine fun w i => ⟨fun decoded => ⟨wellFormed_of_decode decoded, encode_of_decode decoded⟩, ?_⟩
  rintro ⟨wf, rfl⟩
  exact decode_encode i wf

end Sys2Proof.Machine

/-! PROOFS. The invariant: every reset meets it, every step keeps it, and in a good state the machine always steps. -/

namespace Sys2Proof.Machine

/-- Whose turn it is does not matter to the invariant. -/
theorem Inv.with_turns {s : State} (good : Inv s) (rest : List Turn) : Inv { s with turns := rest } :=
  good.env s.answer s.script s.scriptPos s.scriptFailed s.records rest

/-- A step is one agent's turn, with the list of turns moved on. -/
theorem step_eq_agentStep (s : State) : ∃ u rest, step s = agentStep u { s with turns := rest } := by
  unfold step
  split
  case h_1 empty =>
    refine ⟨s.defaultTurn, [], ?_⟩
    rw [← empty]
  case h_2 u rest _ => exact ⟨u, rest, rfl⟩

/-- A turn of the host keeps the invariant. -/
theorem hostStep_inv {s t : State} (good : Inv s) (step : hostStep s = .next t) : Inv t := by
  unfold hostStep at step
  split at step
  case h_1 st p _ => exact hostStmt_inv (good.env s.answer s.script (p + 1) s.scriptFailed s.records s.turns) step
  case h_2 => cases step; exact good

/-- A turn of each agent keeps the invariant. -/
theorem agentStep_inv {s t : State} {u : Turn} (good : Inv s) (step : agentStep u s = .next t) : Inv t := by
  cases u with
  | engine => exact engineStep_inv good step
  | host => exact hostStep_inv good step
  | reset level => cases step; exact driveReset_inv good level

/-- Settles O52: a step is a turn of one agent, and no agent's turn breaks the invariant. -/
theorem everyStepKeepsTheInvariant : Obligations.EveryStepKeepsTheInvariant := by
  unfold Obligations.EveryStepKeepsTheInvariant
  intro s t good step
  obtain ⟨u, rest, turn⟩ := step_eq_agentStep s
  exact agentStep_inv (good.with_turns rest) (turn.symm.trans step)

/-- Settles O53: after reset nothing runs and there is no schedule. -/
theorem resetMeetsTheInvariant : Obligations.ResetMeetsTheInvariant := by
  unfold Obligations.ResetMeetsTheInvariant
  intro n
  constructor <;> simp [State.atReset, Phase.isCipher]

/-- With its labels defined, a turn of any agent in a good state answers a next state. -/
theorem agentStep_next {s : State} (good : Inv s) (labels : labelsDefined s.script = true) (u : Turn) :
    ∃ t, agentStep u s = .next t := by
  cases u with
  | engine => exact engineStep_next good
  | host => exact hostStep_next labels
  | reset level => exact ⟨_, rfl⟩

/-- Settles O54: the engine has a step in every good state, and the host's one refusal is an undefined label. -/
theorem goodStatesAlwaysStep : Obligations.GoodStatesAlwaysStep := by
  unfold Obligations.GoodStatesAlwaysStep
  intro s good labels
  obtain ⟨u, rest, turn⟩ := step_eq_agentStep s
  rw [turn]
  exact agentStep_next (good.with_turns rest) labels u

end Sys2Proof.Machine

/-! PROOFS. What an engine step may write, and runs of engine steps: how they add up, and that a good state's run ends after exactly the
steps left (41_key_schedule.md R170, 43_block_cipher.md R232, 70_reset_and_hazards.md R300). -/

namespace Sys2Proof.Machine

/-! ### What an engine step may write -/

/-- `t` with the fields that no engine step writes taken from `s`. -/
def State.engineWrites (s t : State) : State :=
  { s with
    busy := t.busy, done := t.done, schedValid := t.schedValid, phase := t.phase, round := t.round, kidx := t.kidx,
    gfres := t.gfres, dout := t.dout, st := t.st, rk := t.rk }

/-- Phase ARK goes on within the fields that the engine writes. -/
theorem State.afterArk_eq_engineWrites (s : State) : s.afterArk = s.engineWrites s.afterArk := by
  unfold State.afterArk
  split_ifs <;> rfl

/-- A single-step command writes only fields of the engine. -/
theorem primStep_eq_engineWrites {s t : State} (step : primStep s = .next t) : t = s.engineWrites t := by
  unfold primStep at step
  cases opc : s.opc <;> rw [opc] at step
  case ark =>
    change engineArk s = .next t at step
    unfold engineArk at step
    split at step <;> cases step
    rfl
  all_goals cases step <;> rfl

/-- A phase's rule writes only fields of the engine. -/
theorem phaseStep_eq_engineWrites {s t : State} (step : phaseStep s = .next t) : t = s.engineWrites t := by
  unfold phaseStep at step
  cases phase : s.phase <;> rw [phase] at step
  case kexp => obtain ⟨_, _, _, _, -, -, -, ⟨-, rfl⟩ | ⟨-, rfl⟩⟩ := engineKexp_cases step <;> rfl
  case ark =>
    obtain ⟨k, -, rfl⟩ := phaseArk_eq_next step
    exact (s.withMatrix (addRoundKey s.st k)).afterArk_eq_engineWrites
  case imc =>
    change phaseImc s = .next t at step
    unfold phaseImc at step
    split_ifs at step
    cases step
    rfl
  case prim => exact primStep_eq_engineWrites step
  all_goals cases step <;> rfl

/-- An engine step writes only fields of the engine: the host's side, the registers the host writes and the latches stay. -/
theorem engineStep_eq_engineWrites {s t : State} (step : engineStep s = .next t) : t = s.engineWrites t := by
  unfold engineStep at step
  split at step
  · exact phaseStep_eq_engineWrites step
  · cases step; rfl

/-! ### Runs -/

/-- An idle engine has no step (R235). -/
theorem engineStep_of_idle {s : State} (idle : s.busy = false) : engineStep s = .next s :=
  if_neg (ne_true_of_eq_false idle)

/-- A step first, then the rest of the run. -/
theorem engineRun_succ_of_step {s t : State} (n : Nat) (step : engineStep s = .next t) :
    engineRun (n + 1) s = engineRun n t := by
  rw [engineRun, step]

/-- A run that begins with a run to `t` goes on from `t`. -/
theorem engineRun_add {m n : Nat} {s t : State} (run : engineRun m s = .next t) :
    engineRun (m + n) s = engineRun n t := by
  induction m generalizing s with
  | zero => cases run; rw [Nat.zero_add]
  | succ m ih =>
    rw [Nat.succ_add]
    cases step : engineStep s with
    | next u =>
      rw [engineRun_succ_of_step _ step] at run ⊢
      exact ih run
    | _ => rw [engineRun, step] at run; cases run

/-- One step more at the end of a run. -/
theorem engineRun_succ_of_run {n : Nat} {s t u : State} (run : engineRun n s = .next t) (step : engineStep t = .next u) :
    engineRun (n + 1) s = .next u := by
  rw [engineRun_add run, engineRun_succ_of_step 0 step, engineRun]

/-- An idle engine stays as it is. -/
theorem engineRun_of_idle (n : Nat) {s : State} (idle : s.busy = false) : engineRun n s = .next s := by
  induction n with
  | zero => rfl
  | succ n ih => rw [engineRun_succ_of_step n (engineStep_of_idle idle), ih]

/-- While a run is busy at its end it has not written DOUT: DOUT is written only where a command completes (10_state.md R57). -/
theorem dout_of_engineRun_busy {n : Nat} {s t : State} (run : engineRun n s = .next t) (busy : t.busy = true) :
    t.dout = s.dout := by
  induction n generalizing s with
  | zero => cases run; rfl
  | succ n ih =>
    cases step : engineStep s with
    | next u =>
      rw [engineRun_succ_of_step n step] at run
      rw [ih run]
      obtain ⟨-, -, -, -, -, -, -, same | ⟨-, -, completes, -⟩, -⟩ := engineStep_frame step
      · exact same
      · rw [engineRun_of_idle n completes] at run
        cases run
        rw [completes] at busy
        contradiction
    | _ => rw [engineRun, step] at run; cases run

/-! ### The steps left -/

/-- A busy good state has a step left. -/
theorem stepsLeft_pos {s : State} (good : Inv s) (busy : s.busy = true) : 0 < s.stepsLeft := by
  obtain ⟨t, step⟩ := engineStep_next good
  rcases stepsLeft_step good busy step with ⟨-, -, last⟩ | ⟨-, left, -⟩ <;> omega

/-- From a good busy state, fewer steps than those left keep the engine busy, and exactly those left complete the command. -/
theorem engineRun_stepsLeft {s : State} (good : Inv s) (busy : s.busy = true) :
    (∀ n, n < s.stepsLeft → ∃ t, engineRun n s = .next t ∧ t.busy = true) ∧
    ∃ t, engineRun s.stepsLeft s = .next t ∧ t.busy = false ∧ t.done = true := by
  induction left : s.stepsLeft generalizing s with
  | zero => exact absurd left (stepsLeft_pos good busy).ne'
  | succ k ih =>
    obtain ⟨t, step⟩ := engineStep_next good
    rcases stepsLeft_step good busy step with ⟨idle, done, last⟩ | ⟨busy', less, more⟩
    · obtain rfl : k = 0 := by omega
      exact ⟨fun n short => ⟨s, by rw [Nat.lt_one_iff.mp short]; rfl, busy⟩, t, engineRun_succ_of_step 0 step, idle, done⟩
    · obtain ⟨before, last⟩ := ih (engineStep_inv good step) busy' (by omega)
      refine ⟨fun n short => ?_, by rwa [engineRun_succ_of_step k step]⟩
      cases n with
      | zero => exact ⟨s, rfl, busy⟩
      | succ n => rw [engineRun_succ_of_step n step]; exact before n (by omega)

/-- No command has more than 56 steps left: 56 is four for each of AES-256's fourteen rounds (43_block_cipher.md R232). -/
theorem stepsLeft_le {s : State} (good : Inv s) : s.stepsLeft ≤ 56 := by
  unfold State.stepsLeft
  cases phase : s.phase
  case kexp =>
    obtain ⟨-, -, variant, low, -, -⟩ := good.kexp_running phase
    have := variant.bounds
    simp only [scheduleWords]
    omega
  case idle => simp
  case prim => simp
  all_goals
    obtain ⟨valid, inRange, facts⟩ := good.cipher_running (by rw [phase]; rfl)
    obtain ⟨variant, -, -⟩ := good.valid_schedule valid
    have := variant.bounds
    have nonzero (h : s.round ≠ 0) : s.round.toNat ≠ 0 := fun e => h (BitVec.eq_of_toNat_eq e)
    simp only [cipherPhaseOk, phase] at facts
  case ark => simp only; split_ifs <;> omega
  -- Between two round keys ROUND is at least 1 in encryption and below NR in decryption.
  all_goals simp only; grind

/-- Settles O31: each step takes one off the steps left, and the last completes. -/
theorem everyRunningCommandCompletes : Obligations.EveryRunningCommandCompletes := by
  unfold Obligations.EveryRunningCommandCompletes
  exact fun s good busy => ⟨stepsLeft_le good, engineRun_stepsLeft good busy⟩

end Sys2Proof.Machine

/-! PROOFS. The host's turn: what each statement of a script does (30_encoding.md R110), the CMD write in a script (20_memory.md R81),
and the effects of reads and writes on the rest of the block (20_memory.md R82). -/

namespace Sys2Proof.Machine

/-! ### Reads -/

/-- Every read has read data, 0 with SLVERR (20_memory.md R73). -/
theorem exists_rdata_busRead (s : State) (a : BitVec 12) (n : BitVec 3) : ∃ v, (busRead s a n).rdata = some v := by
  unfold busRead
  split
  · split <;> exact ⟨_, rfl⟩
  · exact ⟨0, rfl⟩

/-- A read by the script returns the read data and changes the bus answer only. -/
theorem State.hostRead_of_rdata {s : State} {a : BitVec 12} {n : BitVec 3} {v : Word} (data : (busRead s a n).rdata = some v) :
    s.hostRead a n = (v, { s with answer := some (busRead s a n) }) := by
  rw [State.hostRead, data]
  rfl

/-- `wr` is a bus write of 4 bytes. -/
theorem hostStmt_wr (a : BitVec 12) (w : Word) (s : State) : hostStmt (.wr a w) s = busWrite a 4 w s := rfl

/-- A read access records its read data. -/
theorem hostStmt_read {s : State} {a : BitVec 12} {n : BitVec 3} {v : Word} (data : (busRead s a n).rdata = some v) :
    hostStmt (.access ⟨false, a, n, 0⟩) s = .next { s with answer := some (busRead s a n), records := s.records ++ [v] } := by
  rw [hostStmt, busAccess, if_neg Bool.false_ne_true, State.hostRead_of_rdata data]

/-- An expected read records its read data and fails the script where it differs. -/
theorem hostStmt_expect {s : State} {a : BitVec 12} {v : Word} (val : Word) (data : (busRead s a 4).rdata = some v) :
    hostStmt (.expect a val) s = .next { s with
      answer := some (busRead s a 4), records := s.records ++ [v], scriptFailed := decide (v ≠ val) } := by
  rw [hostStmt, State.hostRead_of_rdata data]

/-- A `bnz` whose masked read data is 0 goes on. -/
theorem hostStmt_bnz_of_eq_zero {s : State} {a : BitVec 12} {v mask : Word} (l : Nat) (data : (busRead s a 4).rdata = some v)
    (zero : v &&& mask = 0) : hostStmt (.bnz a mask l) s = .next { s with answer := some (busRead s a 4) } := by
  rw [hostStmt, State.hostRead_of_rdata data]
  exact if_neg (not_not_intro zero)

/-- A `bnz` whose masked read data is not 0 goes to its label. -/
theorem hostStmt_bnz_of_ne_zero {s : State} {a : BitVec 12} {v mask : Word} {l q : Nat} (data : (busRead s a 4).rdata = some v)
    (nonzero : v &&& mask ≠ 0) (label : labelIndex l s.script 0 = some q) :
    hostStmt (.bnz a mask l) s = .next { s with answer := some (busRead s a 4), scriptPos := q } := by
  rw [hostStmt, State.hostRead_of_rdata data]
  simp only [if_pos nonzero, label]

/-- A `bnz` to a label that the script lacks is refused where it would be taken. -/
theorem hostStmt_bnz_of_labelIndex_eq_none {s : State} {a : BitVec 12} {v mask : Word} {l : Nat}
    (data : (busRead s a 4).rdata = some v) (nonzero : v &&& mask ≠ 0) (label : labelIndex l s.script 0 = none) :
    hostStmt (.bnz a mask l) s = .refused (.unknownLabel l) := by
  rw [hostStmt, State.hostRead_of_rdata data]
  simp only [if_pos nonzero, label]

/-! ### The host's turn -/

/-- The host's turn runs the statement it fetches, with the turn taken and the script moved past the statement. -/
theorem step_of_fetchStmt {s : State} {rest : List Turn} {st : HostStmt} {p : Nat} (turn : s.HostTurn rest)
    (fetch : s.fetchStmt = some (st, p)) : step s = hostStmt st { s with turns := rest, scriptPos := p + 1 } := by
  have same : ({ s with turns := rest } : State).fetchStmt = some (st, p) := fetch
  rw [step_of_hostTurn turn, hostStep, same]

/-- With no statement left, the host's turn takes the turn only. -/
theorem step_of_fetchStmt_eq_none {s : State} {rest : List Turn} (turn : s.HostTurn rest) (fetch : s.fetchStmt = none) :
    step s = .next { s with turns := rest } := by
  have same : ({ s with turns := rest } : State).fetchStmt = none := fetch
  rw [step_of_hostTurn turn, hostStep, same]

/-- Settles O41: the step is the fetched statement's effect, and the bus reads the block, not the host's side. -/
theorem scriptStatementsActAsWritten : Obligations.ScriptStatementsActAsWritten := by
  unfold Obligations.ScriptStatementsActAsWritten
  intro s rest off v p turn data
  have data' : (busRead { s with turns := rest, scriptPos := p + 1 } off 4).rdata = some v := data
  refine ⟨fun val fetch => ?_, fun n val fetch => ?_, fun fetch => ?_, fun val fetch => ?_, fun mask l fetch zero => ?_,
    fun mask l q fetch nonzero label => ?_, fun mask l fetch nonzero label => ?_, step_of_fetchStmt_eq_none turn⟩
  all_goals rw [step_of_fetchStmt turn fetch]
  · rfl
  · rfl
  · exact hostStmt_read data'
  · exact hostStmt_expect val data'
  · exact hostStmt_bnz_of_eq_zero l data' zero
  · exact hostStmt_bnz_of_ne_zero data' nonzero label
  · exact hostStmt_bnz_of_labelIndex_eq_none data' nonzero label

/-! ### The CMD write of a script -/

/-- With reset released, a bus write of CMD issues its word (20_memory.md R81). -/
theorem busWrite_cmd {s : State} (w : Word) (released : s.rstN = true) :
    busWrite RegName.cmd.offset 4 w s = issue w { s with answer := some .okayWrite } := by
  rw [busWrite, busAccepts_offset, if_pos rfl, if_pos released, writeAt, regAt_offset]

/-- With reset released, the host's turn at `wr` to CMD issues its word. -/
theorem step_of_fetchStmt_wr_cmd {s : State} {rest : List Turn} {w : Word} {p : Nat} (turn : s.HostTurn rest)
    (released : s.rstN = true) (fetch : s.fetchStmt = some (.wr 0x00C w, p)) :
    step s = issue w { s with turns := rest, scriptPos := p + 1, answer := some .okayWrite } :=
  (step_of_fetchStmt turn fetch).trans <|
    (hostStmt_wr _ w _).trans (busWrite_cmd (s := { s with turns := rest, scriptPos := p + 1 }) w released)

/-- While busy a word is rejected with BUSY, and while idle a word that does not decode with ILLEGAL_COMMAND. -/
theorem issue_of_decode_eq_error {w : Word} {e : DecodeError} (s : State) (undecodable : decode w = .error e) :
    issue w s = .next (s.cmdError (if s.busy = true then .busy else .illegalCommand)) := by
  cases status : s.busy with
  | true => exact issue_of_issueError_eq_some (issueError_of_busy w status)
  | false => exact issue_of_decode_error status undecodable

/-- The state that withFetchWord prepares has its host's turn and fetches the CMD write of the word. -/
theorem fetchStmt_putCommand (s : State) (w : Word) :
    (s.putCommand w).fetchStmt = some (.wr 0x00C w, min s.scriptPos s.script.length) := by
  have len : (s.script.take s.scriptPos).length = min s.scriptPos s.script.length := List.length_take
  rw [State.fetchStmt, State.putCommand, if_neg Bool.false_ne_true]
  simp only
  rw [← len, List.drop_left]
  rfl

/-- Settles O4: the host's turn at a CMD write is the issue of its word, and withFetchWord prepares that turn. -/
theorem stepRunsTheDecodedCommand : Obligations.StepRunsTheDecodedCommand := by
  unfold Obligations.StepRunsTheDecodedCommand
  refine ⟨fun s rest w i p turn released fetch decoded => ?_, fun s rest w e p turn released fetch undecodable => ?_,
    fun s w i decoded => ?_⟩
  · rw [step_of_fetchStmt_wr_cmd turn released fetch, issue_of_decode _ decoded]
  · rw [step_of_fetchStmt_wr_cmd turn released fetch, issue_of_decode_eq_error _ undecodable]
    rfl
  · have word : BitVec.ofNat 32 (w.toNat % 2 ^ 32) = w := by
      rw [Nat.mod_eq_of_lt w.isLt, BitVec.ofNat_toNat, BitVec.setWidth_eq]
    rw [State.withFetchWord, word, step_of_fetchStmt_wr_cmd (.inl rfl) rfl (fetchStmt_putCommand s w),
      issue_of_decode _ decoded]

/-! ### Reads have no side effects, writes are idempotent -/

/-- Writing the same value to a register again changes nothing. -/
theorem writeReg_writeReg (r : RegName) (v : Word) (s : State) : writeReg r v (writeReg r v s) = writeReg r v s := by
  cases r with
  | status =>
    simp only [writeReg, State.writeStatus]
    cases v.getLsbD 1 <;> cases v.getLsbD 2 <;> rfl
  | key k => simp [writeReg]
  | din k => simp [writeReg]
  | _ => rfl

/-- A register write leaves the answer that is already there. -/
theorem writeReg_with_answer (r : RegName) (v : Word) (s : State) (a : Option BusAnswer) :
    ({ writeReg r v { s with answer := a } with answer := a } : State) = writeReg r v { s with answer := a } := by
  cases r <;> rfl

/-- A register write leaves the reset input. -/
@[simp] theorem writeReg_rstN (r : RegName) (v : Word) (s : State) : (writeReg r v s).rstN = s.rstN := by
  cases r <;> rfl

/-- Settles O40: a read is recorded and nothing else, and a register write stores what it would store again. -/
theorem readsHaveNoSideEffectsAndWritesAreIdempotent : Obligations.ReadsHaveNoSideEffectsAndWritesAreIdempotent := by
  unfold Obligations.ReadsHaveNoSideEffectsAndWritesAreIdempotent
  refine ⟨fun s a n => ?_, fun s t r v notCmd write => ?_⟩
  · obtain ⟨v, data⟩ := exists_rdata_busRead s a n
    exact ⟨v, hostStmt_read data, data⟩
  · cases released : s.rstN with
    | true =>
      rw [busWrite_reg_of_rstN released notCmd] at write
      cases write
      rw [busWrite_reg_of_rstN (by rw [writeReg_rstN, released]) notCmd, writeReg_with_answer, writeReg_writeReg]
    | false =>
      rw [busWrite_reg notCmd, if_neg (ne_true_of_eq_false released)] at write
      cases write
      rw [busWrite_reg notCmd, if_neg (ne_true_of_eq_false released)]

end Sys2Proof.Machine

/-! PROOFS. A `wait` ends (30_encoding.md R111): every step of the machine takes a turn off the list, takes one of the steps left, or
leaves the loop. -/

namespace Sys2Proof.Machine

/-- The host of `s` is in a wait loop of `script`: its next statement is the loop's `bnz`, statement `p`, and no reset is to come. -/
structure Waiting (script : List HostStmt) (l p : Nat) (s : State) : Prop where
  /-- The block is good. -/
  good : Inv s
  /-- The host runs the script. -/
  runs : s.script = script
  /-- The host's next statement polls BUSY (30_encoding.md R111). -/
  polls : s.fetchStmt = some (.bnz 0x008 0x1 l, p)
  /-- Only the host and the engine move. -/
  noReset : ∀ level, .reset level ∉ s.turns

/-- How far a wait can still be from its end: each step takes a turn off the list or one of the steps left. -/
def State.waitBound (s : State) : Nat := s.turns.length + s.stepsLeft

/-- Bit 0 of the STATUS word is BUSY (10_state.md R41). -/
theorem statusWord_and_one_eq_zero_iff (s : State) : s.statusWord &&& 0x1 = 0 ↔ s.busy = false := by
  obtain ⟨busy, -⟩ := statusWord_fields s
  have bit : s.statusWord.getLsbD 0 = s.busy := by simpa using congrArg (BitVec.getLsbD · 0) busy
  rw [show (0x1 : Word) = 1#32 from rfl, BitVec.and_one_eq_setWidth_ofBool_getLsbD, bit]
  cases s.busy <;> decide

/-- A poll reads STATUS. -/
theorem rdata_busRead_status (s : State) : (busRead s 0x008 4).rdata = some s.statusWord :=
  congrArg BusAnswer.rdata (busRead_reg s .status)

/-- An idle good state has no step left. -/
theorem stepsLeft_of_idle {s : State} (good : Inv s) (idle : s.busy = false) : s.stepsLeft = 0 := by
  rw [State.stepsLeft, good.busy_iff.mp idle]

/-- The engine's turn takes a turn off the list or one of the steps left. -/
theorem waitBound_of_engineTurn {s t : State} {rest : List Turn} (good : Inv s) (turn : s.EngineTurn rest)
    (step : engineStep { s with turns := rest } = .next t) : t.waitBound < s.waitBound := by
  have turns : t.turns = rest := by rw [engineStep_eq_engineWrites step]; rfl
  have shorter : rest.length ≤ s.turns.length ∧ (s.busy = false → rest.length < s.turns.length) := by
    rcases turn with cons | ⟨empty, rfl, busy⟩
    · simp [cons]
    · simp [empty, busy]
  rw [State.waitBound, State.waitBound, turns]
  cases status : s.busy with
  | false =>
    cases (engineStep_of_idle (s := { s with turns := rest }) status).symm.trans step
    exact Nat.add_lt_add_right (shorter.2 status) _
  | true =>
    refine Nat.add_lt_add_of_le_of_lt shorter.1 ?_
    rcases stepsLeft_step (good.with_turns rest) status step with ⟨idle, -, last⟩ | ⟨-, less, -⟩
    · rw [stepsLeft_of_idle (engineStep_inv (good.with_turns rest) step) idle]
      exact last ▸ Nat.one_pos
    · exact less ▸ Nat.lt_succ_self _

/-- The engine's turn leaves the host waiting. -/
theorem Waiting.of_engineStep {script : List HostStmt} {l p : Nat} {s t : State} {rest : List Turn}
    (w : Waiting script l p s) (sub : rest ⊆ s.turns) (step : engineStep { s with turns := rest } = .next t) :
    Waiting script l p t := by
  have good := engineStep_inv (w.good.with_turns rest) step
  rw [engineStep_eq_engineWrites step] at good ⊢
  exact ⟨good, w.runs, w.polls, fun level mem => w.noReset level (sub mem)⟩

/-- A poll while busy goes round the loop. -/
theorem Waiting.of_poll_busy {script : List HostStmt} {l p q : Nat} {s : State} {rest : List Turn}
    (w : Waiting script l p s) (sub : rest ⊆ s.turns) (back : nextStmt (script.drop q) q = some (.bnz 0x008 0x1 l, p))
    (a : Option BusAnswer) : Waiting script l p { s with turns := rest, answer := a, scriptPos := q } := by
  refine ⟨w.good.env a s.script q s.scriptFailed s.records rest, w.runs, ?_, fun level mem => w.noReset level (sub mem)⟩
  have alive : s.scriptFailed = false := by
    by_contra failed
    have polls := w.polls
    rw [State.fetchStmt, if_pos (Bool.eq_true_of_not_eq_false failed)] at polls
    cases polls
  rw [State.fetchStmt, if_neg (ne_true_of_eq_false alive)]
  simpa only [w.runs] using back

/-- A step in a wait loop comes nearer to its end or leaves it with the engine idle. -/
theorem Waiting.step {script : List HostStmt} {l p q : Nat} {s : State} (w : Waiting script l p s)
    (label : labelIndex l script 0 = some q) (back : nextStmt (script.drop q) q = some (.bnz 0x008 0x1 l, p)) :
    ∃ t, Machine.step s = .next t ∧
      ((Waiting script l p t ∧ t.waitBound < s.waitBound) ∨ (t.scriptPos = p + 1 ∧ t.busy = false ∧ t.script = script)) := by
  obtain ⟨rest, turn | turn | ⟨level, turn⟩⟩ := turn_cases s
  · have sub : rest ⊆ s.turns := by
      rcases turn with cons | ⟨-, rfl, -⟩
      · exact cons ▸ List.subset_cons_self _ _
      · exact List.nil_subset _
    obtain ⟨t, step⟩ := engineStep_next (w.good.with_turns rest)
    exact ⟨t, (step_of_engineTurn turn).trans step,
      .inl ⟨w.of_engineStep sub step, waitBound_of_engineTurn w.good turn step⟩⟩
  · cases status : s.busy with
    | true =>
      have cons : s.turns = .host :: rest := turn.resolve_right (by simp [status])
      have nonzero : s.statusWord &&& 0x1 ≠ 0 := by
        rw [Ne, statusWord_and_one_eq_zero_iff, status]
        exact Bool.noConfusion
      refine ⟨_, (step_of_fetchStmt turn w.polls).trans (hostStmt_bnz_of_ne_zero (rdata_busRead_status _) nonzero ?_),
        .inl ⟨w.of_poll_busy (cons ▸ List.subset_cons_self _ _) back _, ?_⟩⟩
      · exact w.runs.symm ▸ label
      · exact Nat.add_lt_add_right (by rw [cons]; exact Nat.lt_succ_self _) _
    | false =>
      have zero : s.statusWord &&& 0x1 = 0 := (statusWord_and_one_eq_zero_iff s).mpr status
      exact ⟨_, (step_of_fetchStmt turn w.polls).trans (hostStmt_bnz_of_eq_zero l (rdata_busRead_status _) zero),
        .inr ⟨rfl, status, w.runs⟩⟩
  · exact absurd (turn ▸ List.mem_cons_self) (w.noReset level)

/-- A machine's run is its first step and then the rest of the run. -/
theorem run_succ_of_step {M : Host.Core} {s t : M.State} (n : Nat) (step : M.step s = .next t) :
    M.run (n + 1) s = M.run n t := by
  rw [Host.Core.run, step]

/-- A wait loop is left with the engine idle. -/
theorem Waiting.ends {script : List HostStmt} {l p q : Nat} {s : State} (w : Waiting script l p s)
    (label : labelIndex l script 0 = some q) (back : nextStmt (script.drop q) q = some (.bnz 0x008 0x1 l, p)) :
    ∃ (n : Nat) (t : State), core.run n s = .next t ∧ t.scriptPos = p + 1 ∧ t.busy = false ∧ t.script = script := by
  induction bound : s.waitBound using Nat.strong_induction_on generalizing s with
  | _ k ih =>
    obtain ⟨t, step, ⟨waits, nearer⟩ | left⟩ := w.step label back
    · obtain ⟨n, u, run, ends⟩ := ih _ (bound ▸ nearer) waits rfl
      exact ⟨n + 1, u, (run_succ_of_step (M := core) n step).trans run, ends⟩
    · exact ⟨1, t, run_succ_of_step (M := core) 0 step, left⟩

/-- Settles O34: the state waits, and a wait ends. -/
theorem waitEndsUnderEveryInterleaving : Obligations.WaitEndsUnderEveryInterleaving := by
  unfold Obligations.WaitEndsUnderEveryInterleaving
  intro s l p q good alive polls label back noReset
  have fetch : s.fetchStmt = some (.bnz 0x008 0x1 l, p) := by
    rw [State.fetchStmt, if_neg (ne_true_of_eq_false alive), polls]
  exact Waiting.ends ⟨good, rfl, fetch, noReset⟩ label back

end Sys2Proof.Machine

/-! PROOFS. The field GF(2^8) (40_gf_arith.md R132): a multiplication applies a polynomial in `gfShift`, and two such polynomials
commute; the S-box is the affine map of the inverse (R135), and word functions act byte by byte (41_key_schedule.md R161, R163). -/

namespace Sys2Proof.Machine

/-! ### The laws of the multiplier -/

/-- Multiplication distributes over XOR on the right. -/
theorem gfmul_xor_right (a b c : Byte) : gfmul a (b ^^^ c) = gfmul a b ^^^ gfmul a c := gfLoop_xor_right 8 a b c

/-- Multiplication distributes over XOR on the left. -/
theorem gfmul_xor_left (a b c : Byte) : gfmul (a ^^^ b) c = gfmul a c ^^^ gfmul b c := gfLoop_xor_left 8 a b c

/-- Multiplying by 0 leaves 0: no bit of the multiplier is set. -/
@[simp] theorem gfmul_zero (a : Byte) : gfmul a 0#8 = 0#8 := rfl

/-- 0 times anything is 0. -/
@[simp] theorem zero_gfmul (a : Byte) : gfmul 0#8 a = 0#8 := by
  have double := gfmul_xor_left 0#8 0#8 a
  rwa [BitVec.xor_self, BitVec.xor_self] at double

/-- Multiplying by 1 takes the first pass only. -/
@[simp] theorem gfmul_one (a : Byte) : gfmul a 1#8 = a := BitVec.zero_xor

/-- 1 times a byte is the byte: its bits pick the powers of x. -/
@[simp] theorem one_gfmul (a : Byte) : gfmul 1#8 a = a := by
  revert a
  decide +kernel

/-- A shift of the multiplicand shifts the result of the loop (40_gf_arith.md R131). -/
theorem gfLoop_gfShift (n : Nat) (a b : Byte) : gfLoop n (gfShift a) b 0 = gfShift (gfLoop n a b 0) := by
  induction n with
  | zero => exact (by decide : (0 : Byte) = gfShift 0)
  | succ n ih =>
    rw [gfLoop_succ, gfLoop_succ, ih, ← Function.iterate_succ_apply, Function.iterate_succ_apply', ← gfShift_xor]
    exact (apply_ite gfShift _ _ _).symm

/-- Shifting commutes with multiplying. -/
theorem iterate_gfShift_gfmul (n : Nat) (a b : Byte) : gfShift^[n] (gfmul a b) = gfmul (gfShift^[n] a) b := by
  induction n with
  | zero => rfl
  | succ n ih => rw [Function.iterate_succ_apply', Function.iterate_succ_apply', ih]; exact (gfLoop_gfShift 8 _ b).symm

/-- n passes over a product are the product of n passes. -/
theorem gfLoop_gfmul (n : Nat) (x a b : Byte) : gfLoop n (gfmul x a) b 0 = gfmul (gfLoop n x b 0) a := by
  induction n with
  | zero => exact (zero_gfmul a).symm
  | succ n ih =>
    rw [gfLoop_succ, gfLoop_succ, ih, iterate_gfShift_gfmul, ← gfmul_xor_left]
    exact (apply_ite (gfmul · a) _ _ _).symm

/-- The order of two factors does not matter: both are polynomials in the same shift. -/
theorem gfmul_right_comm (x a b : Byte) : gfmul (gfmul x a) b = gfmul (gfmul x b) a := gfLoop_gfmul 8 x a b

/-- Multiplication is commutative (40_gf_arith.md R132). -/
theorem gfmul_comm (a b : Byte) : gfmul a b = gfmul b a := by
  simpa using gfmul_right_comm 1#8 a b

/-- Multiplication is associative. -/
theorem gfmul_assoc (a b c : Byte) : gfmul (gfmul a b) c = gfmul a (gfmul b c) := by
  rw [gfmul_comm a b, gfmul_right_comm, gfmul_comm]

/-- The map that undoes the S-box's affine map: bit i is y[i+2] ^ y[i+5] ^ y[i+7] ^ 0x05[i], indices modulo 8. -/
def invAffine (y : Byte) : Byte := y.rotateRight 2 ^^^ y.rotateRight 5 ^^^ y.rotateRight 7 ^^^ 0x05

/-- The affine map undoes `invAffine`. -/
theorem affine_invAffine (y : Byte) : affine (invAffine y) = y := by
  revert y
  decide +kernel

/-- The inverse of a byte, with 0 for 0, as the S-box holds it (40_gf_arith.md R135). -/
def gfInv (a : Byte) : Byte := invAffine (sbox a)

/-- Every nonzero byte has its inverse in the S-box. -/
theorem gfmul_gfInv {a : Byte} (nonzero : a ≠ 0) : gfmul a (gfInv a) = 1 := by
  revert a
  decide +kernel

/-- A byte has no second inverse. -/
theorem eq_of_gfmul_eq_one {a b c : Byte} (hb : gfmul a b = 1#8) (hc : gfmul a c = 1#8) : c = b :=
  calc c = gfmul (gfmul a b) c := by rw [hb, one_gfmul]
    _ = gfmul (gfmul a c) b := gfmul_right_comm a b c
    _ = b := by rw [hc, one_gfmul]

/-- Settles O17: the laws come from the loop's linearity and from the commuting polynomials; the S-box has the inverses. -/
theorem gfmulIsFieldMultiplication : Obligations.GfmulIsFieldMultiplication := by
  unfold Obligations.GfmulIsFieldMultiplication
  refine ⟨gfmul_comm, fun a => ⟨gfmul_one a, gfmul_zero a⟩, gfmul_xor_right,
    fun a nonzero => ⟨gfInv a, gfmul_gfInv nonzero, fun c hc => eq_of_gfmul_eq_one (gfmul_gfInv nonzero) hc⟩, fun b => ?_⟩
  simp

/-! ### The S-box ROMs -/

/-- The S-box ROM holds the affine map of the inverse (40_gf_arith.md R135). -/
theorem sbox_eq_affine_gfInv (x : Byte) : sbox x = affine (gfInv x) := (affine_invAffine (sbox x)).symm

/-- Settles O18: a byte with an inverse is not 0 and has no other inverse than the S-box's. -/
theorem sboxIsAffineOfInverse : Obligations.SboxIsAffineOfInverse := by
  unfold Obligations.SboxIsAffineOfInverse
  refine ⟨fun x b inverse => ?_, by decide⟩
  have nonzero : x ≠ 0 := by
    rintro rfl
    simp at inverse
  rw [sbox_eq_affine_gfInv, eq_of_gfmul_eq_one inverse (gfmul_gfInv nonzero)]

/-- The inverse ROM undoes the S-box. -/
@[simp] theorem invSbox_sbox (x : Byte) : invSbox (sbox x) = x := by
  revert x
  decide +kernel

/-- The S-box undoes the inverse ROM. -/
@[simp] theorem sbox_invSbox (y : Byte) : sbox (invSbox y) = y := by
  revert y
  decide +kernel

/-- Settles O19: the ROMs are compared entry by entry. -/
theorem sboxRomsAreInverse : Obligations.SboxRomsAreInverse := by
  unfold Obligations.SboxRomsAreInverse
  exact ⟨invSbox_sbox, sbox_invSbox, by decide +kernel⟩

/-! ### Word functions and round constants -/

/-- RotWord moves each byte one place toward the first (41_key_schedule.md R161). -/
theorem wordByte_rotWord (w : Word) (r : Fin 4) : wordByte (rotWord w) r = wordByte w ⟨(r.val + 1) % 4, by omega⟩ :=
  wordByte_wordOfBytes (fun r : Fin 4 => wordByte w ⟨(r.val + 1) % 4, by omega⟩) r

/-- SubWord looks each byte up in the S-box (41_key_schedule.md R163). -/
theorem wordByte_subWord (w : Word) (r : Fin 4) : wordByte (subWord w) r = sbox (wordByte w r) :=
  wordByte_wordOfBytes (fun r => sbox (wordByte w r)) r

/-- Settles O20: a word and its four bytes are the same thing, and both functions are built from the bytes. -/
theorem wordFunctionsActOnBytes : Obligations.WordFunctionsActOnBytes := by
  unfold Obligations.WordFunctionsActOnBytes
  intro a0 a1 a2 a3 w r
  have byte := wordByte_wordOfBytes ![a0, a1, a2, a3]
  exact ⟨byte 0, byte 1, byte 2, byte 3, wordOfBytes_wordByte w, wordByte_rotWord w r, wordByte_subWord w r⟩

/-- RCON has entries 1 to 10 (41_key_schedule.md R162). -/
theorem rcon?_isSome_iff (j : Nat) : (rcon? j).isSome = true ↔ 1 ≤ j ∧ j ≤ 10 := by
  fun_cases rcon? j
  case case11 => simp; grind
  all_goals decide

/-- Each entry is the one before times 2 (41_key_schedule.md R162). -/
theorem rcon?_succ {j : Nat} {c : Byte} (entry : rcon? j = some c) (notLast : j < 10) :
    rcon? (j + 1) = some (gfmul c 0x02) := by
  obtain ⟨low, -⟩ := (rcon?_isSome_iff j).mp (entry ▸ rfl)
  interval_cases j <;> cases entry <;> decide

/-- The expansion of a variant's key asks for entries 1 to 10 only (41_key_schedule.md R168). -/
theorem rcon?_isSome_of_variant {nk nr : BitVec 4} {i : Nat} (variant : Variant nk nr) (low : nk.toNat ≤ i)
    (high : i < scheduleWords nr.toNat) : (rcon? (i / nk.toNat)).isSome = true := by
  rw [rcon?_isSome_iff]
  rcases variant.range high with ⟨nk4, high⟩ | ⟨nk6, high⟩ | ⟨nk8, high⟩
  · rw [nk4] at low ⊢; omega
  · rw [nk6] at low ⊢; omega
  · rw [nk8] at low ⊢; omega

/-- Settles O21: the ten entries, and the quotients that a variant's schedule asks for. -/
theorem roundConstantsArePowersOfTwo : Obligations.RoundConstantsArePowersOfTwo := by
  unfold Obligations.RoundConstantsArePowersOfTwo
  exact ⟨rfl, fun _ _ => rcon?_succ, rcon?_isSome_iff, fun _ _ _ variant low high _ => rcon?_isSome_of_variant variant low high⟩

end Sys2Proof.Machine

/-! PROOFS. The two column transforms are matrices over GF(2^8) that are inverse (42_round_transforms.md R184, R185, R187), each other
transform undoes its partner byte by byte, and so InvCipher undoes Cipher round by round (43_block_cipher.md R223). -/

namespace Sys2Proof.Machine

/-! ### Columns as vectors over the field -/

/-- The sum of the products of four coefficients and the four bytes of a column. -/
def fieldDot (c s : Fin 4 → Byte) : Byte :=
  gfmul (c 0) (s 0) ^^^ gfmul (c 1) (s 1) ^^^ gfmul (c 2) (s 2) ^^^ gfmul (c 3) (s 3)

/-- A row of sums of products is a sum of products: the coefficients are those of the matrix product. -/
theorem fieldDot_fieldDot (c : Fin 4 → Byte) (m : Fin 4 → Fin 4 → Byte) (s : Fin 4 → Byte) :
    fieldDot c (fun i => fieldDot (m i) s) = fieldDot (fun j => fieldDot c (fun i => m i j)) s := by
  simp only [fieldDot, gfmul_xor_right, gfmul_xor_left, gfmul_assoc]
  ac_rfl

/-- Coefficients that are 1 at one place and 0 elsewhere pick that byte. -/
theorem fieldDot_single (r : Fin 4) (s : Fin 4 → Byte) : fieldDot (fun j => if j = r then 1 else 0) s = s r := by
  fin_cases r <;> simp [fieldDot]

/-- The MixColumns matrix: each row is the row above moved one place to the right (42_round_transforms.md R184). -/
def mixCoeff (r j : Fin 4) : Byte := (![0x02, 0x03, 0x01, 0x01] : Fin 4 → Byte) (j - r)

/-- The InvMixColumns matrix, circulant too (42_round_transforms.md R185). -/
def invMixCoeff (r j : Fin 4) : Byte := (![0x0E, 0x0B, 0x0D, 0x09] : Fin 4 → Byte) (j - r)

/-- Row r of MixColumns. -/
theorem mixRow_eq_fieldDot (r : Fin 4) (s : Fin 4 → Byte) : mixRow r (s 0) (s 1) (s 2) (s 3) = fieldDot (mixCoeff r) s := by
  fin_cases r <;> simp [mixRow, fieldDot, mixCoeff]

/-- Row r of InvMixColumns. -/
theorem invMixRow_eq_fieldDot (r : Fin 4) (s : Fin 4 → Byte) :
    invMixRow r (s 0) (s 1) (s 2) (s 3) = fieldDot (invMixCoeff r) s := by
  fin_cases r <;> rfl

/-- The product of the two matrices is the identity, in both orders. -/
theorem fieldDot_coeff_eq_ite (r j : Fin 4) :
    fieldDot (invMixCoeff r) (fun i => mixCoeff i j) = (if j = r then 1 else 0) ∧
    fieldDot (mixCoeff r) (fun i => invMixCoeff i j) = (if j = r then 1 else 0) := by
  revert r j
  decide

/-- MixColumns applies its matrix to each column (R184). -/
theorem at_mixColumns (m : AesState) (r c : Fin 4) : (mixColumns m).at r c = fieldDot (mixCoeff r) (m.at · c) :=
  (AesState.at_build _ r c).trans (mixRow_eq_fieldDot r (m.at · c))

/-- InvMixColumns applies its matrix to each column (R185). -/
theorem at_invMixColumns (m : AesState) (r c : Fin 4) : (invMixColumns m).at r c = fieldDot (invMixCoeff r) (m.at · c) :=
  (AesState.at_build _ r c).trans (invMixRow_eq_fieldDot r (m.at · c))

/-- Settles O24: each result byte is read off its row. -/
theorem mixColumnsCombineEachColumn : Obligations.MixColumnsCombineEachColumn := by
  unfold Obligations.MixColumnsCombineEachColumn
  intro m c
  refine ⟨⟨?_, ?_, ?_, ?_⟩, ?_, ?_, ?_, ?_⟩ <;> exact AesState.at_build _ _ c

/-! ### Each inverse transform undoes its transform (R187) -/

@[simp] theorem invSubBytes_subBytes (m : AesState) : invSubBytes (subBytes m) = m :=
  AesState.eq_of_at fun r c => by simp

@[simp] theorem subBytes_invSubBytes (m : AesState) : subBytes (invSubBytes m) = m :=
  AesState.eq_of_at fun r c => by simp

@[simp] theorem invShiftRows_shiftRows (m : AesState) : invShiftRows (shiftRows m) = m :=
  AesState.eq_of_at fun r c => by simp

@[simp] theorem shiftRows_invShiftRows (m : AesState) : shiftRows (invShiftRows m) = m :=
  AesState.eq_of_at fun r c => by simp

@[simp] theorem invMixColumns_mixColumns (m : AesState) : invMixColumns (mixColumns m) = m :=
  AesState.eq_of_at fun r c => by
    simp only [at_invMixColumns, at_mixColumns, fieldDot_fieldDot, (fieldDot_coeff_eq_ite r _).1, fieldDot_single]

@[simp] theorem mixColumns_invMixColumns (m : AesState) : mixColumns (invMixColumns m) = m :=
  AesState.eq_of_at fun r c => by
    simp only [at_invMixColumns, at_mixColumns, fieldDot_fieldDot, (fieldDot_coeff_eq_ite r _).2, fieldDot_single]

@[simp] theorem addRoundKey_addRoundKey (m : AesState) (k : Vector Word 4) : addRoundKey (addRoundKey m k) k = m :=
  AesState.eq_of_at fun r c => by simp

/-- Settles O25: the columns by the inverse matrices, the rest byte by byte. -/
theorem inverseTransformsUndo : Obligations.InverseTransformsUndo := by
  unfold Obligations.InverseTransformsUndo
  refine fun m k => ⟨invSubBytes_subBytes m, subBytes_invSubBytes m, invShiftRows_shiftRows m, shiftRows_invShiftRows m,
    invMixColumns_mixColumns m, mixColumns_invMixColumns m, addRoundKey_addRoundKey m k, ?_, ?_⟩
  · exact AesState.eq_of_at fun r c => by simp
  · exact AesState.eq_of_at fun r c => by simp

/-! ### InvCipher undoes Cipher -/

/-- Rounds n down to 1 of decryption undo full rounds 1 to n of encryption, from the middle of round n + 1 to that of round 1:
decryption meets each round key where encryption has it between ShiftRows and the next SubBytes (R223). -/
theorem invCipherRounds_cipherRounds (w : Nat → Vector Word 4) (n : Nat) (m : AesState) :
    invCipherRounds w n (shiftRows (subBytes (cipherRounds w n m))) = shiftRows (subBytes m) := by
  induction n with
  | zero => rfl
  | succ n ih =>
    rw [cipherRounds, invCipherRounds, invShiftRows_shiftRows, invSubBytes_subBytes, addRoundKey_addRoundKey,
      invMixColumns_mixColumns, ih]

/-- Settles O26: the last round key is added twice, the full rounds cancel, and so does the first round key. -/
theorem invCipherUndoesCipher : Obligations.InvCipherUndoesCipher := by
  unfold Obligations.InvCipherUndoesCipher
  intro b w nr
  simp only [invCipher, cipher, stateOfBlock_blockOfState, addRoundKey_addRoundKey, invCipherRounds_cipherRounds,
    invShiftRows_shiftRows, invSubBytes_subBytes, blockOfState_stateOfBlock]

end Sys2Proof.Machine

/-! PROOFS. The commands one by one: what the CMD write of each does to an idle block, and the engine step that carries it out
(30_encoding.md R104 to R106, 40_gf_arith.md R140 to R142, 41_key_schedule.md R165 to R167, 42_round_transforms.md R190 to R199,
43_block_cipher.md R220, R221, R224). -/

namespace Sys2Proof.Machine

/-! ### Acceptance and rejection while idle -/

/-- An idle block accepts a command whose checks all pass (30_encoding.md R105). -/
theorem exec_of_firstError_eq_none {i : Instr} {s : State} (idle : s.busy = false) (passes : firstError (commandChecks i s) = none) :
    exec i s = .next (commandAccept i s) := by
  rw [exec_eq_issueChecked, issueChecked_ok idle passes]

/-- An idle block rejects a command with the code of its first failing check (60_exceptions.md R264). -/
theorem exec_of_firstError_eq_some {i : Instr} {s : State} {e : ErrCode} (idle : s.busy = false)
    (fails : firstError (commandChecks i s) = some e) : exec i s = .next (s.cmdError e) := by
  rw [exec_eq_issueChecked, issueChecked_error idle fails]

/-- Settles O7: the eight commands have no check of their own, and phase PRIM runs the latched one. -/
theorem stateCommandsComplete : Obligations.StateCommandsComplete := by
  unfold Obligations.StateCommandsComplete
  intro s idle
  have accepted (i : Instr) (noCheck : commandChecks i s = []) : exec i s = .next (commandAccept i s) :=
    exec_of_firstError_eq_none idle (noCheck ▸ rfl)
  exact ⟨⟨accepted .nop rfl, rfl⟩, ⟨accepted .store rfl, rfl⟩, ⟨accepted .sb rfl, rfl⟩, ⟨accepted .isb rfl, rfl⟩,
    ⟨accepted .sr rfl, rfl⟩, ⟨accepted .isr rfl, rfl⟩, ⟨accepted .mc rfl, rfl⟩, ⟨accepted .imc rfl, rfl⟩⟩

/-- Settles O8: the three commands latch GFOP at accept, and phase PRIM computes from the latches. -/
theorem fieldCommandsComplete : Obligations.FieldCommandsComplete := by
  unfold Obligations.FieldCommandsComplete
  intro s idle
  have accepted (i : Instr) (noCheck : commandChecks i s = []) : exec i s = .next (commandAccept i s) :=
    exec_of_firstError_eq_none idle (noCheck ▸ rfl)
  exact ⟨⟨accepted .gfmul rfl, rfl⟩, ⟨accepted .sbox rfl, rfl⟩, ⟨accepted .isbox rfl, rfl⟩⟩

/-- Settles O9: LOAD has one check, DINLEN, and its accept builds the matrix. -/
theorem loadBuildsTheMatrix : Obligations.LoadBuildsTheMatrix := by
  unfold Obligations.LoadBuildsTheMatrix
  refine fun s idle => ⟨fun whole => ⟨?_, rfl, columnWord_stateOfBlock s.din⟩, fun partly => ?_⟩
  · exact exec_of_firstError_eq_none (i := .load) idle (by simp [commandChecks, firstError, dinlenOk, whole])
  · exact exec_of_firstError_eq_some (i := .load) idle
      (by simp [commandChecks, firstError, (dinlenOk_eq_false_iff _).mpr partly])

/-- ARK's engine step adds the round key that ROUND names and completes (42_round_transforms.md R199). -/
theorem engineArk_of_roundKey {s : State} {k : Vector Word 4} (key : roundKey? s.rk s.round.toNat = some k) :
    engineArk s = .next (s.withMatrix (addRoundKey s.st k)).complete := by
  rw [engineArk, key]

/-- Settles O10: ARK's two checks in their order, and its step with the round key that its operand names. -/
theorem arkAddsItsRoundKey : Obligations.ArkAddsItsRoundKey := by
  unfold Obligations.ArkAddsItsRoundKey
  refine fun s n idle => ⟨fun noSchedule => ?_, fun valid above => ?_, fun valid inRange inStore => ⟨?_, ?_⟩⟩
  · exact exec_of_firstError_eq_some idle (by simp [commandChecks, firstError, noSchedule])
  · exact exec_of_firstError_eq_some idle (by simp [commandChecks, firstError, valid, above])
  · exact exec_of_firstError_eq_none (i := .ark n) idle (by simp [commandChecks, firstError, valid, inRange])
  · obtain ⟨k, key⟩ := roundKey?_isSome (rk := s.rk) inStore
    have named : (BitVec.ofNat 4 n).toNat = n := by rw [BitVec.toNat_ofNat]; omega
    exact ⟨k, key, engineArk_of_roundKey (s := { s.primRunning .ark with round := BitVec.ofNat 4 n }) (named.symm ▸ key)⟩

/-! ### KEXP -/

/-- The words that KEXP's accept loads are the key's (41_key_schedule.md R166). -/
theorem getElem?_loadKeyWords_of_lt {nk i : Nat} (key : Vector Word 8) (rk : Vector Word 60) (small : nk ≤ 8) (low : i < nk) :
    (loadKeyWords nk key rk)[i]? = key[i]? := by
  rw [Vector.getElem?_eq_getElem (by omega), Vector.getElem?_eq_getElem (by omega)]
  simp [loadKeyWords, low, show i < 8 by omega]

/-- The other words stay as they were. -/
theorem getElem?_loadKeyWords_of_le {nk i : Nat} (key : Vector Word 8) (rk : Vector Word 60) (high : nk ≤ i) :
    (loadKeyWords nk key rk)[i]? = rk[i]? := by
  rcases Nat.lt_or_ge i 60 with inStore | outside
  · rw [Vector.getElem?_eq_getElem inStore, Vector.getElem?_eq_getElem inStore]
    simp [loadKeyWords, high.not_gt]
  · rw [Vector.getElem?_eq_none outside, Vector.getElem?_eq_none outside]

/-- KEXP's accept for a key of nk words (41_key_schedule.md R166). -/
def State.kexpAccepted (nk : Nat) (s : State) : State :=
  { s with
    done := false, busy := true, opc := .kexp, phase := .kexp, schedValid := false, nk := BitVec.ofNat 4 nk,
    nr := BitVec.ofNat 4 (nk + 6), kidx := BitVec.ofNat 6 nk, rk := loadKeyWords nk s.key s.rk }

/-- An idle block with a key length of nk words accepts KEXP. -/
theorem exec_kexp_of_keylen {s : State} {nk : Nat} (idle : s.busy = false) (variant : nk = 4 ∨ nk = 6 ∨ nk = 8)
    (len : s.keylen.toNat = 4 * nk) : exec .kexp s = .next (s.kexpAccepted nk) := by
  have words : nkOfKeylen s.keylen = nk := by rw [nkOfKeylen, len]; omega
  have legal : keylenOk s.keylen = true := by
    simp only [keylenOk, Bool.or_eq_true, beq_iff_eq, BitVec.toNat_eq, len]
    rcases variant with rfl | rfl | rfl <;> decide
  rw [exec_of_firstError_eq_none idle (by simp [commandChecks, firstError, legal]), commandAccept, acceptKexp, words]
  rfl

/-- Settles O11: accept loads the first nk key words, and a KEYLEN that is no key length fails the one check. -/
theorem kexpAcceptLatchesTheKey : Obligations.KexpAcceptLatchesTheKey := by
  unfold Obligations.KexpAcceptLatchesTheKey
  refine fun s idle => ⟨fun nk variant len => ⟨loadKeyWords nk s.key s.rk, exec_kexp_of_keylen idle variant len,
    fun i low => getElem?_loadKeyWords_of_lt s.key s.rk (by omega) low,
    fun i high => getElem?_loadKeyWords_of_le s.key s.rk high⟩, fun not16 not24 not32 => ?_⟩
  exact exec_of_firstError_eq_some (i := .kexp) idle
    (by simp [commandChecks, firstError, (keylenOk_eq_false_iff _).mpr ⟨not16, not24, not32⟩])

/-- KEXP's step where its three words exist: RK[KIDX] and KIDX, and at the schedule's end validity and completion
(41_key_schedule.md R167). -/
theorem engineKexp_of_words {s : State} {prev back temp : Word} (inStore : s.kidx.toNat < 60)
    (hprev : rkBack? s.rk s.kidx.toNat 1 = some prev) (hback : rkBack? s.rk s.kidx.toNat s.nk.toNat = some back)
    (htemp : scheduleTemp? s.nk.toNat s.kidx.toNat prev = some temp) :
    engineKexp s =
      if s.kidx.toNat + 1 = scheduleWords s.nr.toNat then
        .next { s with
          rk := s.rk.set s.kidx.toNat (back ^^^ temp), kidx := s.kidx + 1, schedValid := true, busy := false, done := true,
          phase := .idle }
      else .next { s with rk := s.rk.set s.kidx.toNat (back ^^^ temp), kidx := s.kidx + 1 } := by
  have next : BitVec.ofNat 6 (s.kidx.toNat + 1) = s.kidx + 1 := by
    rw [BitVec.ofNat_add, BitVec.ofNat_toNat, BitVec.setWidth_eq]
    rfl
  simp only [engineKexp, hprev, hback, htemp, dif_pos inStore, next]
  rfl

/-- In phase KEXP, with words left to compute, a step finds its three words and writes the one at KIDX. -/
theorem engineStep_of_phase_kexp {s : State} {prev back : Word} (busy : s.busy = true) (kexp : s.phase = .kexp)
    (variant : Variant s.nk s.nr) (low : s.nk.toNat ≤ s.kidx.toNat) (high : s.kidx.toNat < scheduleWords s.nr.toNat)
    (hprev : s.rk[s.kidx.toNat - 1]? = some prev) (hback : s.rk[s.kidx.toNat - s.nk.toNat]? = some back) :
    ∃ temp, LoopBodyTemp s.nk.toNat s.kidx.toNat prev temp ∧ scheduleTemp? s.nk.toNat s.kidx.toNat prev = some temp ∧
      ∃ rk : Vector Word 60, rk[s.kidx.toNat]? = some (back ^^^ temp) ∧
        (∀ j : Nat, j ≠ s.kidx.toNat → rk[j]? = s.rk[j]?) ∧
        engineStep s =
          if s.kidx.toNat + 1 = scheduleWords s.nr.toNat then
            .next { s with rk := rk, kidx := s.kidx + 1, schedValid := true, busy := false, done := true, phase := .idle }
          else .next { s with rk := rk, kidx := s.kidx + 1 } := by
  have bounds := variant.bounds
  have inStore : s.kidx.toNat < 60 := by
    rw [scheduleWords] at high
    omega
  obtain ⟨temp, htemp⟩ := scheduleTemp_isSome prev (variant.range high) low
  have step : engineStep s = engineKexp s := by rw [engineStep_of_busy busy, phaseStep, kexp]
  refine ⟨temp, scheduleTemp?_eq_some.mp htemp, htemp, s.rk.set s.kidx.toNat (back ^^^ temp), ?_, fun j other => ?_, ?_⟩
  · simp [inStore]
  · rw [Vector.getElem?_set, if_neg other.symm]
  · rw [step, engineKexp_of_words inStore (rkBack?_eq_some.mpr ⟨Nat.one_pos, by omega, hprev⟩)
      (rkBack?_eq_some.mpr ⟨by omega, low, hback⟩) htemp]

/-- Settles O12: the step's three words exist, and the store changes at KIDX only. -/
theorem kexpStepComputesOneWord : Obligations.KexpStepComputesOneWord := by
  unfold Obligations.KexpStepComputesOneWord
  exact fun _ _ _ => engineStep_of_phase_kexp

/-! ### ENC and DEC -/

/-- Settles O13: the two checks in their order, and the two accepts. -/
theorem encAndDecStart : Obligations.EncAndDecStart := by
  unfold Obligations.EncAndDecStart
  refine fun s idle => ⟨fun valid whole => ?_, fun noSchedule => ?_, fun valid partly => ?_⟩
  · have passes : firstError (commandChecks .enc s) = none := by
      simp [commandChecks, firstError, valid, dinlenOk, whole]
    exact ⟨exec_of_firstError_eq_none idle passes, exec_of_firstError_eq_none (i := .dec) idle passes⟩
  · have fails : firstError (commandChecks .enc s) = some .noSchedule := by simp [commandChecks, firstError, noSchedule]
    exact ⟨exec_of_firstError_eq_some idle fails, exec_of_firstError_eq_some (i := .dec) idle fails⟩
  · have fails : firstError (commandChecks .enc s) = some .malformedBlock := by
      simp [commandChecks, firstError, valid, (dinlenOk_eq_false_iff _).mpr partly]
    exact ⟨exec_of_firstError_eq_some idle fails, exec_of_firstError_eq_some (i := .dec) idle fails⟩

/-- A busy engine in phase ARK adds the round key that ROUND names and goes on (43_block_cipher.md R224). -/
theorem engineStep_of_phase_ark {s : State} {k : Vector Word 4} (busy : s.busy = true) (ark : s.phase = .ark)
    (key : roundKey? s.rk s.round.toNat = some k) : engineStep s = .next (s.withMatrix (addRoundKey s.st k)).afterArk := by
  rw [engineStep_of_busy busy, phaseStep, ark]
  simp only [phaseArk, key]

/-- Encryption's last round key completes the command. -/
theorem State.afterArk_of_enc_last {s : State} (enc : s.dir = false) (last : s.round = s.nr) : s.afterArk = s.finishCipher := by
  rw [State.afterArk, if_pos enc, if_pos last]

/-- After any other of encryption's round keys the next round begins. -/
theorem State.afterArk_of_enc {s : State} (enc : s.dir = false) (notLast : s.round ≠ s.nr) :
    s.afterArk = { s with round := s.round + 1, phase := .sb } := by
  rw [State.afterArk, if_pos enc, if_neg notLast]

/-- Decryption's last round key completes the command. -/
theorem State.afterArk_of_dec_last {s : State} (dec : s.dir = true) (last : s.round = 0) : s.afterArk = s.finishCipher := by
  rw [State.afterArk, if_neg (by simp [dec]), if_pos last]

/-- After decryption's first round key the next round begins. -/
theorem State.afterArk_of_dec_first {s : State} (dec : s.dir = true) (notLast : s.round ≠ 0) (first : s.round = s.nr) :
    s.afterArk = { s with round := s.nr - 1, phase := .isr } := by
  rw [State.afterArk, if_neg (by simp [dec]), if_neg notLast, if_pos first]

/-- After a round key between decryption's first and last comes InvMixColumns. -/
theorem State.afterArk_of_dec {s : State} (dec : s.dir = true) (notLast : s.round ≠ 0) (notFirst : s.round ≠ s.nr) :
    s.afterArk = { s with phase := .imc } := by
  rw [State.afterArk, if_neg (by simp [dec]), if_neg notLast, if_neg notFirst]

/-- Settles O14: each clause is one row of R224. -/
theorem arkPhaseContinuesByDirection : Obligations.ArkPhaseContinuesByDirection := by
  unfold Obligations.ArkPhaseContinuesByDirection
  intro s k busy ark key
  rw [engineStep_of_phase_ark busy ark key]
  let added := s.withMatrix (addRoundKey s.st k)
  exact ⟨fun enc last => congrArg _ (State.afterArk_of_enc_last (s := added) enc last),
    fun enc notLast => congrArg _ (State.afterArk_of_enc (s := added) enc notLast),
    fun dec last => congrArg _ (State.afterArk_of_dec_last (s := added) dec last),
    fun dec notLast first => congrArg _ (State.afterArk_of_dec_first (s := added) dec notLast first),
    fun dec notLast notFirst => congrArg _ (State.afterArk_of_dec (s := added) dec notLast notFirst)⟩

end Sys2Proof.Machine

/-! PROOFS. ENC and DEC as runs of engine steps (43_block_cipher.md R231, R232): four steps make a round, and the rounds are those of
Cipher and InvCipher. -/

namespace Sys2Proof.Machine

/-- `s` in phase `p` of round `q`, with matrix `m`. -/
def State.inRound (m : AesState) (q : BitVec 4) (p : Phase) (s : State) : State := { s with st := m, round := q, phase := p }

/-- One round down. -/
theorem ofNat_succ_sub_one (r : Nat) : BitVec.ofNat 4 (r + 1) - 1 = BitVec.ofNat 4 r := by
  rw [BitVec.ofNat_add]
  exact BitVec.add_sub_cancel _ _

section
variable {t : State} (busy : t.busy = true)
include busy

/-! ### One step of a phase -/

/-- SubBytes (R225). -/
theorem engineStep_of_inRound_sb (m : AesState) (q : BitVec 4) :
    engineStep (t.inRound m q .sb) = .next (t.inRound (subBytes m) q .sr) :=
  engineStep_of_busy (s := t.inRound m q .sb) busy

/-- ShiftRows (R226). -/
theorem engineStep_of_inRound_sr (m : AesState) (q : BitVec 4) :
    engineStep (t.inRound m q .sr) = .next (t.inRound (shiftRows m) q (if q = t.nr then .ark else .mc)) :=
  engineStep_of_busy (s := t.inRound m q .sr) busy

/-- MixColumns (R227). -/
theorem engineStep_of_inRound_mc (m : AesState) (q : BitVec 4) :
    engineStep (t.inRound m q .mc) = .next (t.inRound (mixColumns m) q .ark) :=
  engineStep_of_busy (s := t.inRound m q .mc) busy

/-- InvShiftRows (R228). -/
theorem engineStep_of_inRound_isr (m : AesState) (q : BitVec 4) :
    engineStep (t.inRound m q .isr) = .next (t.inRound (invShiftRows m) q .isb) :=
  engineStep_of_busy (s := t.inRound m q .isr) busy

/-- InvSubBytes (R229). -/
theorem engineStep_of_inRound_isb (m : AesState) (q : BitVec 4) :
    engineStep (t.inRound m q .isb) = .next (t.inRound (invSubBytes m) q .ark) :=
  engineStep_of_busy (s := t.inRound m q .isb) busy

/-- InvMixColumns, with a round left (R230). -/
theorem engineStep_of_inRound_imc (m : AesState) {q : BitVec 4} (left : q ≠ 0) :
    engineStep (t.inRound m q .imc) = .next (t.inRound (invMixColumns m) (q - 1) .isr) :=
  (engineStep_of_busy (s := t.inRound m q .imc) busy).trans (phaseImc_of_round_ne left)

/-- AddRoundKey, and how it goes on (R224). -/
theorem engineStep_of_inRound_ark (m : AesState) {q : BitVec 4} {k : Vector Word 4} (key : roundKey? t.rk q.toNat = some k) :
    engineStep (t.inRound m q .ark) = .next (t.inRound (addRoundKey m k) q .ark).afterArk :=
  engineStep_of_phase_ark (s := t.inRound m q .ark) busy rfl key

/-! ### One round of encryption -/

/-- The middle of an encryption round: SubBytes and ShiftRows. -/
theorem engineRun_two_of_inRound_sb (m : AesState) (q : BitVec 4) :
    engineRun 2 (t.inRound m q .sb) =
      .next (t.inRound (shiftRows (subBytes m)) q (if q = t.nr then .ark else .mc)) :=
  engineRun_succ_of_run (engineRun_succ_of_step 0 (engineStep_of_inRound_sb busy m q))
    (engineStep_of_inRound_sr busy (subBytes m) q)

/-- Phase ARK of an encryption that has rounds left. -/
theorem engineStep_of_inRound_ark_enc (m : AesState) {q : BitVec 4} {k : Vector Word 4} (enc : t.dir = false) (notLast : q ≠ t.nr)
    (key : roundKey? t.rk q.toNat = some k) :
    engineStep (t.inRound m q .ark) = .next (t.inRound (addRoundKey m k) (q + 1) .sb) :=
  (engineStep_of_inRound_ark busy m key).trans
    (congrArg _ (State.afterArk_of_enc (s := t.inRound (addRoundKey m k) q .ark) enc notLast))

/-- A full round of encryption takes four steps (R232). -/
theorem engineRun_encRound (m : AesState) {q : BitVec 4} {k : Vector Word 4} (enc : t.dir = false) (notLast : q ≠ t.nr)
    (key : roundKey? t.rk q.toNat = some k) :
    engineRun 4 (t.inRound m q .sb) =
      .next (t.inRound (addRoundKey (mixColumns (shiftRows (subBytes m))) k) (q + 1) .sb) := by
  have middle := engineRun_two_of_inRound_sb busy m q
  rw [if_neg notLast] at middle
  exact engineRun_succ_of_run (engineRun_succ_of_run middle (engineStep_of_inRound_mc busy _ q))
    (engineStep_of_inRound_ark_enc busy _ enc notLast key)

/-- The last round of encryption takes three steps and completes (R226, R224). -/
theorem engineRun_encLastRound (m : AesState) {k : Vector Word 4} (enc : t.dir = false)
    (key : roundKey? t.rk t.nr.toNat = some k) :
    engineRun 3 (t.inRound m t.nr .sb) =
      .next (t.inRound (addRoundKey (shiftRows (subBytes m)) k) t.nr .ark).finishCipher := by
  have middle := engineRun_two_of_inRound_sb busy m t.nr
  rw [if_pos rfl] at middle
  rw [engineRun_succ_of_run middle (engineStep_of_inRound_ark busy _ key),
    State.afterArk_of_enc_last (s := t.inRound _ t.nr .ark) enc rfl]

/-- From its first ARK, encryption comes to round r + 1 with Cipher's full rounds 1 to r done (R231). -/
theorem engineRun_cipherRounds {m : AesState} {w : Nat → Vector Word 4} (enc : t.dir = false)
    (keys : ∀ r, r ≤ t.nr.toNat → roundKey? t.rk r = some (w r)) {r : Nat} (inRange : r < t.nr.toNat) :
    engineRun (4 * r + 1) (t.inRound m 0 .ark) =
      .next (t.inRound (cipherRounds w r (addRoundKey m (w 0))) (BitVec.ofNat 4 (r + 1)) .sb) := by
  have small := t.nr.isLt
  induction r with
  | zero =>
    have notLast : 0#4 ≠ t.nr := fun last => by rw [← last] at inRange; contradiction
    exact engineRun_succ_of_step 0 (engineStep_of_inRound_ark_enc busy m enc notLast (keys 0 (Nat.zero_le _)))
  | succ r ih =>
    have named : (BitVec.ofNat 4 (r + 1)).toNat = r + 1 := by rw [BitVec.toNat_ofNat]; omega
    have notLast : BitVec.ofNat 4 (r + 1) ≠ t.nr := fun last => by rw [← last, named] at inRange; omega
    have key : roundKey? t.rk (BitVec.ofNat 4 (r + 1)).toNat = some (w (r + 1)) := named.symm ▸ keys (r + 1) inRange.le
    rw [show 4 * (r + 1) + 1 = 4 * r + 1 + 4 by ring, engineRun_add (ih (by omega)), engineRun_encRound busy _ enc notLast key,
      BitVec.ofNat_add (r + 1) 1]
    rfl

/-! ### One round of decryption -/

/-- Phase ARK of a decryption that begins. -/
theorem engineStep_of_inRound_ark_dec_first (m : AesState) {k : Vector Word 4} (dec : t.dir = true) (rounds : t.nr ≠ 0)
    (key : roundKey? t.rk t.nr.toNat = some k) :
    engineStep (t.inRound m t.nr .ark) = .next (t.inRound (addRoundKey m k) (t.nr - 1) .isr) :=
  (engineStep_of_inRound_ark busy m key).trans
    (congrArg _ (State.afterArk_of_dec_first (s := t.inRound (addRoundKey m k) t.nr .ark) dec rounds rfl))

/-- The first half of a decryption round: InvShiftRows and InvSubBytes. -/
theorem engineRun_two_of_inRound_isr (m : AesState) (q : BitVec 4) :
    engineRun 2 (t.inRound m q .isr) = .next (t.inRound (invSubBytes (invShiftRows m)) q .ark) :=
  engineRun_succ_of_run (engineRun_succ_of_step 0 (engineStep_of_inRound_isr busy m q))
    (engineStep_of_inRound_isb busy (invShiftRows m) q)

/-- A full round of decryption takes four steps (R232). -/
theorem engineRun_decRound (m : AesState) {q : BitVec 4} {k : Vector Word 4} (dec : t.dir = true) (notLast : q ≠ 0)
    (notFirst : q ≠ t.nr) (key : roundKey? t.rk q.toNat = some k) :
    engineRun 4 (t.inRound m q .isr) =
      .next (t.inRound (invMixColumns (addRoundKey (invSubBytes (invShiftRows m)) k)) (q - 1) .isr) := by
  have ark := engineStep_of_inRound_ark busy (invSubBytes (invShiftRows m)) key
  rw [State.afterArk_of_dec (s := t.inRound _ q .ark) dec notLast notFirst] at ark
  exact engineRun_succ_of_run (engineRun_succ_of_run (engineRun_two_of_inRound_isr busy m q) ark)
    (engineStep_of_inRound_imc busy _ notLast)

/-- The last round of decryption takes three steps and completes (R224). -/
theorem engineRun_decLastRound (m : AesState) {k : Vector Word 4} (dec : t.dir = true) (key : roundKey? t.rk 0 = some k) :
    engineRun 3 (t.inRound m 0 .isr) =
      .next (t.inRound (addRoundKey (invSubBytes (invShiftRows m)) k) 0 .ark).finishCipher := by
  rw [engineRun_succ_of_run (engineRun_two_of_inRound_isr busy m 0) (engineStep_of_inRound_ark busy _ key),
    State.afterArk_of_dec_last (s := t.inRound _ 0 .ark) dec rfl]

/-- From round r decryption comes to round 0 with InvCipher's rounds r to 1 done (R231). -/
theorem engineRun_invCipherRounds {m : AesState} {w : Nat → Vector Word 4} (dec : t.dir = true)
    (keys : ∀ r, r ≤ t.nr.toNat → roundKey? t.rk r = some (w r)) {r : Nat} (inRange : r < t.nr.toNat) :
    engineRun (4 * r) (t.inRound m (BitVec.ofNat 4 r) .isr) = .next (t.inRound (invCipherRounds w r m) 0 .isr) := by
  have small := t.nr.isLt
  induction r generalizing m with
  | zero => rfl
  | succ r ih =>
    have named : (BitVec.ofNat 4 (r + 1)).toNat = r + 1 := by rw [BitVec.toNat_ofNat]; omega
    have notLast : BitVec.ofNat 4 (r + 1) ≠ 0 := fun last => by rw [last] at named; cases named
    have notFirst : BitVec.ofNat 4 (r + 1) ≠ t.nr := fun first => by rw [← first, named] at inRange; omega
    have key : roundKey? t.rk (BitVec.ofNat 4 (r + 1)).toNat = some (w (r + 1)) := named.symm ▸ keys (r + 1) inRange.le
    rw [show 4 * (r + 1) = 4 + 4 * r by ring, engineRun_add (engineRun_decRound busy m dec notLast notFirst key),
      ofNat_succ_sub_one, ih (by omega)]
    rfl

end

/-! ### The whole command -/

/-- Before a good cipher command's last step the block is busy and DOUT is as it was (R232). -/
theorem engineRun_before_last {t : State} (good : Inv t) (busy : t.busy = true) {n : Nat} (short : n < t.stepsLeft) :
    ∃ u, engineRun n t = .next u ∧ u.busy = true ∧ u.dout = t.dout := by
  obtain ⟨u, run, busy'⟩ := (engineRun_stepsLeft good busy).1 n short
  exact ⟨u, run, busy', dout_of_engineRun_busy run busy'⟩

/-- A valid schedule has rounds. -/
theorem exists_nr_eq_succ {s : State} (good : Inv s) (valid : s.schedValid = true) :
    ∃ n, s.nr.toNat = n + 1 ∧ s.nr = BitVec.ofNat 4 (n + 1) := by
  obtain ⟨variant, -, -⟩ := good.valid_schedule valid
  have bounds := variant.bounds
  have rounds : s.nr.toNat = s.nr.toNat - 1 + 1 := by omega
  exact ⟨_, rounds, by rw [← rounds, BitVec.ofNat_toNat, BitVec.setWidth_eq]⟩

section
variable {s : State} {w : Nat → Vector Word 4} (good : Inv s) (valid : s.schedValid = true)
  (keys : ∀ r, r ≤ s.nr.toNat → roundKey? s.rk r = some (w r))
include good valid keys

/-- An accepted ENC computes Cipher in 4 NR steps (R231, R232). -/
theorem engineRun_acceptEnc :
    engineRun (4 * s.nr.toNat) (acceptEnc s) = .next { s.commandDone .enc with
      round := s.nr, dir := false, dout := cipher s.din w s.nr.toNat, st := stateOfBlock (cipher s.din w s.nr.toNat) } := by
  obtain ⟨n, rounds, named⟩ := exists_nr_eq_succ good valid
  have full := engineRun_cipherRounds (t := acceptEnc s) (m := stateOfBlock s.din) rfl rfl keys (r := n)
    (rounds ▸ Nat.lt_succ_self n)
  rw [← named] at full
  rw [show 4 * s.nr.toNat = 4 * n + 1 + 3 by omega]
  refine (engineRun_add full).trans ((engineRun_encLastRound (t := acceptEnc s) rfl _ rfl (keys _ le_rfl)).trans ?_)
  rw [cipher, stateOfBlock_blockOfState, show s.nr.toNat - 1 = n by omega]
  rfl

/-- An accepted DEC computes InvCipher in 4 NR steps (R231, R232). -/
theorem engineRun_acceptDec :
    engineRun (4 * s.nr.toNat) (acceptDec s) = .next { s.commandDone .dec with
      round := 0, dir := true, dout := invCipher s.din w s.nr.toNat,
      st := stateOfBlock (invCipher s.din w s.nr.toNat) } := by
  obtain ⟨n, rounds, named⟩ := exists_nr_eq_succ good valid
  have hasRounds : s.nr ≠ 0 := fun none => by rw [none] at rounds; cases rounds
  have first := engineStep_of_inRound_ark_dec_first (t := acceptDec s) rfl (stateOfBlock s.din) rfl hasRounds (keys _ le_rfl)
  have full := engineRun_invCipherRounds (t := acceptDec s) (m := addRoundKey (stateOfBlock s.din) (w s.nr.toNat)) rfl rfl keys
    (r := n) (rounds ▸ Nat.lt_succ_self n)
  rw [← ofNat_succ_sub_one, ← named] at full
  rw [show 4 * s.nr.toNat = 4 * n + 3 + 1 by omega]
  refine (engineRun_succ_of_step _ first).trans ((engineRun_add full).trans
    ((engineRun_decLastRound (t := acceptDec s) rfl _ rfl (keys 0 (Nat.zero_le _))).trans ?_))
  rw [invCipher, stateOfBlock_blockOfState, show s.nr.toNat - 1 = n by omega]
  rfl

end

/-- Reset is not held while there is a schedule (70_reset_and_hazards.md R290). -/
theorem rstN_of_schedValid {s : State} (good : Inv s) (valid : s.schedValid = true) : s.rstN = true := by
  by_contra held
  rw [good.held (Bool.eq_false_of_not_eq_true held)] at valid
  cases valid

/-- An accepted ENC has four steps for each round left (R232). -/
theorem stepsLeft_acceptEnc {s : State} (rounds : s.nr.toNat ≠ 0) : (acceptEnc s).stepsLeft = 4 * s.nr.toNat := by
  simp [State.stepsLeft, acceptEnc, rounds.symm]

/-- An accepted DEC has four steps for each round left (R232). -/
theorem stepsLeft_acceptDec (s : State) : (acceptDec s).stepsLeft = 4 * s.nr.toNat := by
  simp [State.stepsLeft, acceptDec]

/-- Settles O27: accept, the steps left, and the simulation of Cipher. -/
theorem encRunComputesCipher : Obligations.EncRunComputesCipher := by
  unfold Obligations.EncRunComputesCipher
  intro s w good idle valid whole keys
  obtain ⟨n, rounds, -⟩ := exists_nr_eq_succ good valid
  have passes : firstError (commandChecks .enc s) = none := by simp [commandChecks, firstError, valid, dinlenOk, whole]
  have running : Inv (acceptEnc s) := accept_inv good (rstN_of_schedValid good valid) .enc passes
  exact ⟨acceptEnc s, exec_of_firstError_eq_none idle passes,
    fun k short => engineRun_before_last running rfl (by rwa [stepsLeft_acceptEnc (by omega)]),
    engineRun_acceptEnc good valid keys⟩

/-- Settles O28: accept, the steps left, and the simulation of InvCipher. -/
theorem decRunComputesInvCipher : Obligations.DecRunComputesInvCipher := by
  unfold Obligations.DecRunComputesInvCipher
  intro s w good idle valid whole keys
  have passes : firstError (commandChecks .dec s) = none := by simp [commandChecks, firstError, valid, dinlenOk, whole]
  have running : Inv (acceptDec s) := accept_inv good (rstN_of_schedValid good valid) .dec passes
  exact ⟨acceptDec s, exec_of_firstError_eq_none idle passes,
    fun k short => engineRun_before_last running rfl (by rwa [stepsLeft_acceptDec]),
    engineRun_acceptDec good valid keys⟩

end Sys2Proof.Machine

/-! PROOFS. The round-key store holds the key expansion (10_state.md R61, 41_key_schedule.md R164, R167): words that follow the loop body
are KeyExpansion of the first of them, and a KEXP run makes them follow it one by one. -/

namespace Sys2Proof.Machine

/-! ### Words that follow the loop body are a key expansion -/

/-- The bytes of words, four each. -/
theorem length_bytesOfWords (l : List Word) : (bytesOfWords l).length = 4 * l.length := by
  induction l with
  | nil => rfl
  | cons w rest ih => simp only [bytesOfWords, List.length_cons, ih]; omega

/-- Words are the words of their bytes (20_memory.md R75). -/
theorem wordsOfBytes_bytesOfWords (l : List Word) : wordsOfBytes (bytesOfWords l) = l := by
  induction l with
  | nil => rfl
  | cons w rest ih => rw [bytesOfWords, wordsOfBytes, ih, wordOfBytes_wordByte]

/-- The expansion's next word after the first k words of a list is word k, where that follows the loop body. -/
theorem nextScheduleWord?_take {nk n k : Nat} {l : List Word} (loop : LoopBodyWords nk n (l[·]?)) (pos : 0 < nk) (low : nk ≤ k)
    (high : k < n) : ∃ x, l[k]? = some x ∧ nextScheduleWord? nk (l.take k) = some x := by
  obtain ⟨prev, back, temp, hprev, hback, htemp, hword⟩ := loop k low high
  obtain ⟨inList, -⟩ := List.getElem?_eq_some_iff.mp hword
  have len : (l.take k).length = k := List.length_take_of_le inList.le
  refine ⟨_, hword, nextScheduleWord?_eq_some.mpr ⟨prev, back, temp, ?_, ?_, ?_, rfl⟩⟩
  · rw [len, List.getElem?_take_of_lt (by omega)]; exact hprev
  · rw [len, List.getElem?_take_of_lt (by omega)]; exact hback
  · rwa [len]

/-- Expanding the first k words of such a list gives back its later words. -/
theorem expandWords?_take {nk n m k : Nat} {l : List Word} (loop : LoopBodyWords nk n (l[·]?)) (pos : 0 < nk) (low : nk ≤ k)
    (fits : k + m ≤ n) : expandWords? nk m (l.take k) = some (l.take (k + m)) := by
  induction m generalizing k with
  | zero => rfl
  | succ m ih =>
    obtain ⟨x, word, next⟩ := nextScheduleWord?_take loop pos low (by omega)
    have grow : l.take k ++ [x] = l.take (k + 1) := by rw [List.take_add_one, word]; rfl
    simp only [expandWords?, next]
    rw [grow, ih (by omega) (by omega), Nat.add_right_comm, Nat.add_assoc]

/-- Words that follow the loop body up to the schedule's end are KeyExpansion of the first nk of them (R164). -/
theorem keyExpansion?_of_loopBodyWords {nk : Nat} {l : List Word} (variant : nk = 4 ∨ nk = 6 ∨ nk = 8) (long : nk ≤ l.length)
    (loop : LoopBodyWords nk (4 * (nk + 7)) (l[·]?)) :
    keyExpansion? (bytesOfWords (l.take nk)) = some (l.take (4 * (nk + 7))) := by
  have len : (bytesOfWords (l.take nk)).length = 4 * nk := by rw [length_bytesOfWords, List.length_take_of_le long]
  rw [keyExpansion?_eq_expandWords variant len, wordsOfBytes_bytesOfWords,
    expandWords?_take loop (by omega) le_rfl (by omega), show nk + (4 * (nk + 7) - nk) = 4 * (nk + 7) by omega]

/-! ### A valid schedule -/

/-- A store whose words are checked to follow the loop body has them follow it. -/
theorem ScheduleUpTo.loopBodyWords {nk n : Nat} {rk : Vector Word 60} (upTo : ScheduleUpTo nk n rk) :
    LoopBodyWords nk n (rk[·]?) := by
  intro i low high
  have ok := upTo i high low
  unfold scheduleWordOk at ok
  split at ok
  case h_1 prev back hprev hback =>
    split at ok
    case h_1 temp htemp =>
      obtain ⟨-, -, prevWord⟩ := rkBack?_eq_some.mp hprev
      obtain ⟨-, -, backWord⟩ := rkBack?_eq_some.mp hback
      exact ⟨prev, back, temp, prevWord, backWord, scheduleTemp?_eq_some.mp htemp, beq_iff_eq.mp ok⟩
    case h_2 => contradiction
  case h_2 => contradiction

/-- Settles O30: the invariant has the words follow the loop body. -/
theorem validScheduleIsAKeyExpansion : Obligations.ValidScheduleIsAKeyExpansion := by
  unfold Obligations.ValidScheduleIsAKeyExpansion
  intro s good valid
  obtain ⟨variant, -, upTo⟩ := good.valid_schedule valid
  have loop := upTo.loopBodyWords
  have bounds := variant.bounds
  have words : scheduleWords s.nr.toNat = 4 * (s.nk.toNat + 7) := by rw [scheduleWords]; omega
  refine ⟨?_, loop⟩
  rw [words] at loop ⊢
  have three : s.nk.toNat = 4 ∨ s.nk.toNat = 6 ∨ s.nk.toNat = 8 := by
    rcases variant with ⟨nk, -⟩ | ⟨nk, -⟩ | ⟨nk, -⟩ <;> simp [nk]
  exact keyExpansion?_of_loopBodyWords three (by simp; omega) (loop.mono fun i x word => by simpa using word)

/-! ### A KEXP run -/

/-- One more word by the loop body, the others as they were, extends the loop body's words by one. -/
theorem LoopBodyWords.succ {nk i : Nat} {f g : Nat → Option Word} {prev back temp : Word} (loop : LoopBodyWords nk i f)
    (pos : 0 < nk) (low : nk ≤ i) (others : ∀ j, j ≠ i → g j = f j) (hprev : f (i - 1) = some prev)
    (hback : f (i - nk) = some back) (htemp : LoopBodyTemp nk i prev temp) (hword : g i = some (back ^^^ temp)) :
    LoopBodyWords nk (i + 1) g := by
  intro j lowj highj
  rcases Nat.lt_succ_iff_lt_or_eq.mp highj with old | rfl
  · obtain ⟨prev', back', temp', hprev', hback', htemp', hword'⟩ := loop j lowj old
    refine ⟨prev', back', temp', ?_, ?_, htemp', ?_⟩ <;> rwa [others _ (by omega)]
  · exact ⟨prev, back, temp, by rwa [others _ (by omega)], by rwa [others _ (by omega)], htemp, hword⟩

/-- What a KEXP run that started from the store `rk0` has made of it when it comes to word i: words nk to i - 1 follow the loop body, and
the others, the key's and the ones above, are those of `rk0`. -/
structure KexpReached (nk i : Nat) (rk0 rk : Vector Word 60) : Prop where
  loop : LoopBodyWords nk i (rk[·]?)
  key : ∀ j, j < nk → rk[j]? = rk0[j]?
  above : ∀ j, i ≤ j → rk[j]? = rk0[j]?

/-- A run has made nothing when it starts. -/
theorem KexpReached.start (nk : Nat) (rk : Vector Word 60) : KexpReached nk nk rk rk :=
  ⟨fun _ low high => absurd high low.not_gt, fun _ _ => rfl, fun _ _ => rfl⟩

/-- A KEXP step makes one more word, and at the schedule's end it validates the schedule and completes (R167). -/
theorem engineStep_of_kexpReached {u : State} {rk0 : Vector Word 60} (busy : u.busy = true) (kexp : u.phase = .kexp)
    (variant : Variant u.nk u.nr) (low : u.nk.toNat ≤ u.kidx.toNat) (high : u.kidx.toNat < scheduleWords u.nr.toNat)
    (reached : KexpReached u.nk.toNat u.kidx.toNat rk0 u.rk) :
    ∃ rk, KexpReached u.nk.toNat (u.kidx.toNat + 1) rk0 rk ∧
      engineStep u =
        if u.kidx.toNat + 1 = scheduleWords u.nr.toNat then
          .next { u with rk := rk, kidx := u.kidx + 1, schedValid := true, busy := false, done := true, phase := .idle }
        else .next { u with rk := rk, kidx := u.kidx + 1 } := by
  have bounds := variant.bounds
  have pos : 0 < u.nk.toNat := by omega
  have inStore : u.kidx.toNat < 60 := by
    rw [scheduleWords] at high
    omega
  have hprev : u.rk[u.kidx.toNat - 1]? = some u.rk[u.kidx.toNat - 1] := Vector.getElem?_eq_getElem _
  have hback : u.rk[u.kidx.toNat - u.nk.toNat]? = some u.rk[u.kidx.toNat - u.nk.toNat] := Vector.getElem?_eq_getElem _
  obtain ⟨temp, htemp, -, rk, hword, others, step⟩ := engineStep_of_phase_kexp busy kexp variant low high hprev hback
  exact ⟨rk, ⟨reached.loop.succ pos low others hprev hback htemp hword,
    fun j inKey => (others j (by omega)).trans (reached.key j inKey),
    fun j above => (others j (by omega)).trans (reached.above j (by omega))⟩, step⟩

/-- `t` at word i of its KEXP, with store `rk`. -/
def State.kexpAt (i : Nat) (rk : Vector Word 60) (t : State) : State := { t with kidx := BitVec.ofNat 6 i, rk := rk }

/-- KIDX holds every word index of the store. -/
theorem State.toNat_kexpAt_kidx {i : Nat} (inStore : i < 60) (rk : Vector Word 60) (t : State) :
    (t.kexpAt i rk).kidx.toNat = i := by
  rw [State.kexpAt, BitVec.toNat_ofNat, Nat.mod_eq_of_lt (by omega)]

section
variable {t : State} (busy : t.busy = true) (kexp : t.phase = .kexp) (variant : Variant t.nk t.nr)
  (start : t.kidx = BitVec.ofNat 6 t.nk.toNat)
include busy kexp variant

/-- A step of an accepted KEXP at word i. -/
theorem engineStep_kexpAt {i : Nat} {rk : Vector Word 60} (low : t.nk.toNat ≤ i) (high : i < scheduleWords t.nr.toNat)
    (reached : KexpReached t.nk.toNat i t.rk rk) :
    ∃ rk', KexpReached t.nk.toNat (i + 1) t.rk rk' ∧
      engineStep (t.kexpAt i rk) =
        if i + 1 = scheduleWords t.nr.toNat then
          .next { t.kexpAt (i + 1) rk' with schedValid := true, busy := false, done := true, phase := .idle }
        else .next (t.kexpAt (i + 1) rk') := by
  have bounds := variant.bounds
  have inStore : i < 60 := by
    rw [scheduleWords] at high
    omega
  have named := State.toNat_kexpAt_kidx inStore rk t
  have step := engineStep_of_kexpReached (u := t.kexpAt i rk) (rk0 := t.rk) busy kexp variant
  rw [named] at step
  obtain ⟨rk', reached', step⟩ := step low high reached
  refine ⟨rk', reached', step.trans ?_⟩
  rw [State.kexpAt, State.kexpAt, BitVec.ofNat_add]
  rfl

include start

/-- Before the schedule's end an accepted KEXP has made one word for every step (R170). -/
theorem engineRun_kexpAt {n : Nat} (short : t.nk.toNat + n < scheduleWords t.nr.toNat) :
    ∃ rk, KexpReached t.nk.toNat (t.nk.toNat + n) t.rk rk ∧ engineRun n t = .next (t.kexpAt (t.nk.toNat + n) rk) := by
  induction n with
  | zero =>
    refine ⟨t.rk, .start _ _, ?_⟩
    rw [Nat.add_zero, State.kexpAt, ← start, engineRun]
  | succ n ih =>
    obtain ⟨rk, reached, run⟩ := ih (by omega)
    obtain ⟨rk', reached', step⟩ := engineStep_kexpAt busy kexp variant (Nat.le_add_right _ n) (by omega) reached
    rw [if_neg (by omega)] at step
    exact ⟨rk', reached', engineRun_succ_of_run run step⟩

/-- The last step of an accepted KEXP validates the schedule and completes (R167, R170). -/
theorem engineRun_kexp_completes :
    ∃ rk, KexpReached t.nk.toNat (scheduleWords t.nr.toNat) t.rk rk ∧
      engineRun (scheduleWords t.nr.toNat - t.nk.toNat) t = .next { t.kexpAt (scheduleWords t.nr.toNat) rk with
        schedValid := true, busy := false, done := true, phase := .idle } := by
  have bounds := variant.bounds
  obtain ⟨n, total⟩ : ∃ n, scheduleWords t.nr.toNat = t.nk.toNat + n + 1 :=
    ⟨scheduleWords t.nr.toNat - t.nk.toNat - 1, by rw [scheduleWords]; omega⟩
  obtain ⟨rk, reached, run⟩ := engineRun_kexpAt busy kexp variant start (n := n) (by omega)
  obtain ⟨rk', reached', step⟩ := engineStep_kexpAt busy kexp variant (Nat.le_add_right _ n) (by omega) reached
  rw [if_pos total.symm] at step
  rw [total, show t.nk.toNat + n + 1 - t.nk.toNat = n + 1 by omega]
  exact ⟨rk', reached', engineRun_succ_of_run run step⟩

end

/-- A KEXP run leaves KeyExpansion of the key it loaded (R164). -/
theorem KexpReached.keyExpansion {nk : Nat} {key : Vector Word 8} {rk0 rk : Vector Word 60} (variant : nk = 4 ∨ nk = 6 ∨ nk = 8)
    (reached : KexpReached nk (4 * (nk + 7)) (loadKeyWords nk key rk0) rk) :
    keyExpansion? (bytesOfWords (key.toList.take nk)) = some (rk.toList.take (4 * (nk + 7))) := by
  have same : key.toList.take nk = rk.toList.take nk := by
    apply List.ext_getElem?
    intro j
    rcases Nat.lt_or_ge j nk with low | high
    · rw [List.getElem?_take_of_lt low, List.getElem?_take_of_lt low, Vector.getElem?_toList, Vector.getElem?_toList,
        reached.key j low, getElem?_loadKeyWords_of_lt key rk0 (by omega) low]
    · rw [List.getElem?_take_eq_none high, List.getElem?_take_eq_none high]
  rw [same]
  exact keyExpansion?_of_loopBodyWords variant (by simp; omega) (reached.loop.mono fun i x word => by simpa using word)

/-- Settles O29: the accepted key, the words made so far before the last step, and the whole schedule after it. -/
theorem kexpRunComputesKeyExpansion : Obligations.KexpRunComputesKeyExpansion := by
  unfold Obligations.KexpRunComputesKeyExpansion
  intro s nk idle variant len
  have hnk : (s.kexpAccepted nk).nk.toNat = nk := by rw [State.kexpAccepted, BitVec.toNat_ofNat]; omega
  have hwords : scheduleWords (s.kexpAccepted nk).nr.toNat = 4 * (nk + 7) := by
    rw [State.kexpAccepted, scheduleWords, BitVec.toNat_ofNat]; omega
  have hvariant : Variant (s.kexpAccepted nk).nk (s.kexpAccepted nk).nr := by
    change Variant (BitVec.ofNat 4 nk) (BitVec.ofNat 4 (nk + 6))
    rcases variant with rfl | rfl | rfl <;> decide
  have start : (s.kexpAccepted nk).kidx = BitVec.ofNat 6 (s.kexpAccepted nk).nk.toNat := by rw [hnk]; rfl
  have before {n : Nat} := engineRun_kexpAt (t := s.kexpAccepted nk) (n := n) rfl rfl hvariant start
  obtain ⟨rk, reached, run⟩ := engineRun_kexp_completes (t := s.kexpAccepted nk) rfl rfl hvariant start
  rw [hnk, hwords] at reached run
  refine ⟨s.kexpAccepted nk, exec_kexp_of_keylen idle variant len, fun n short => ?_, rk, run, reached.keyExpansion variant,
    fun i low => ?_, reached.loop, fun i high => ?_⟩
  · obtain ⟨rk, -, run⟩ := before (n := n) (by omega)
    exact ⟨_, run, rfl, rfl⟩
  · exact (reached.key i low).trans (getElem?_loadKeyWords_of_lt s.key s.rk (by omega) low)
  · exact (reached.above i high).trans (getElem?_loadKeyWords_of_le s.key s.rk (by omega))

end Sys2Proof.Machine

/-! PROOFS. What an engine step does not depend on: the host's inputs (20_memory.md R83) and the round-key words above the schedule
(10_state.md R52). -/

namespace Sys2Proof.Machine

/-- Settles O32: replacing the inputs is one change of them. -/
theorem engineIgnoresHostInputs : Obligations.EngineIgnoresHostInputs := by
  unfold Obligations.EngineIgnoresHostInputs
  exact fun s x n => engineRun_mapInputs (fun _ => x) n s

/-- `s` with another round-key store. -/
def State.withRk (rk : Vector Word 60) (s : State) : State := { s with rk := rk }

@[simp] theorem State.withRk_phase (s : State) (rk : Vector Word 60) : (s.withRk rk).phase = s.phase := rfl
@[simp] theorem State.withRk_opc (s : State) (rk : Vector Word 60) : (s.withRk rk).opc = s.opc := rfl

/-- How phase ARK goes on does not depend on the store. -/
theorem State.afterArk_withRk (s : State) (rk : Vector Word 60) : (s.withRk rk).afterArk = s.afterArk.withRk rk := by
  simp only [State.afterArk, apply_ite (State.withRk rk)]
  rfl

section
variable {s : State} {rk : Vector Word 60} (sameKey : roundKey? rk s.round.toNat = roundKey? s.rk s.round.toNat)
include sameKey

/-- ARK's engine step reads its round key only. -/
theorem engineArk_withRk : engineArk (s.withRk rk) = mapNext (State.withRk rk) (engineArk s) := by
  have key : roundKey? (s.withRk rk).rk (s.withRk rk).round.toNat = roundKey? s.rk s.round.toNat := sameKey
  rw [engineArk, engineArk, key]
  cases roundKey? s.rk s.round.toNat <;> rfl

/-- Phase ARK reads its round key only. -/
theorem phaseArk_withRk : phaseArk (s.withRk rk) = mapNext (State.withRk rk) (phaseArk s) := by
  have key : roundKey? (s.withRk rk).rk (s.withRk rk).round.toNat = roundKey? s.rk s.round.toNat := sameKey
  rw [phaseArk, phaseArk, key]
  cases roundKey? s.rk s.round.toNat with
  | none => rfl
  | some k => exact congrArg Host.Outcome.next (State.afterArk_withRk (s.withMatrix (addRoundKey s.st k)) rk)

end

/-- Phase IMC does not read the store. -/
theorem phaseImc_withRk (s : State) (rk : Vector Word 60) :
    phaseImc (s.withRk rk) = mapNext (State.withRk rk) (phaseImc s) := by
  rw [phaseImc, phaseImc, apply_ite (mapNext (State.withRk rk))]
  rfl

/-- A single-step command reads at most the round key that ROUND names, and only ARK does. -/
theorem primStep_withRk {s : State} {rk : Vector Word 60}
    (sameKey : s.opc = .ark → roundKey? rk s.round.toNat = roundKey? s.rk s.round.toNat) :
    primStep (s.withRk rk) = mapNext (State.withRk rk) (primStep s) := by
  simp only [primStep, State.withRk_opc]
  cases opc : s.opc with
  | ark => exact engineArk_withRk (sameKey opc)
  | _ => rfl

/-- A phase other than KEXP reads at most the round key that ROUND names, and only where it adds one (R186, R224). -/
theorem phaseStep_withRk {s : State} {rk : Vector Word 60} (notKexp : s.phase ≠ .kexp)
    (sameKey : s.phase = .ark ∨ (s.phase = .prim ∧ s.opc = .ark) → roundKey? rk s.round.toNat = roundKey? s.rk s.round.toNat) :
    phaseStep (s.withRk rk) = mapNext (State.withRk rk) (phaseStep s) := by
  simp only [phaseStep, State.withRk_phase]
  cases phase : s.phase with
  | kexp => exact absurd phase notKexp
  | ark => exact phaseArk_withRk (sameKey (.inl phase))
  | imc => exact phaseImc_withRk s rk
  | prim => exact primStep_withRk fun opc => sameKey (.inr ⟨phase, opc⟩)
  | _ => rfl

/-- Where a good state adds a round key, it is one of the schedule. -/
theorem Inv.round_le_nr {s : State} (good : Inv s) (adds : s.phase = .ark ∨ (s.phase = .prim ∧ s.opc = .ark)) :
    s.round.toNat ≤ s.nr.toNat := by
  rcases adds with ark | ⟨prim, opc⟩
  · obtain ⟨-, inRange, -⟩ := good.cipher_running (by rw [ark]; rfl)
    exact inRange
  · obtain ⟨-, arkFacts⟩ := good.prim_running prim
    obtain ⟨-, inRange⟩ := arkFacts opc
    exact inRange

/-- Settles O33: the one thing read is a round key of the schedule, and no phase but KEXP writes the store. -/
theorem staleRoundKeyWordsReachNoResult : Obligations.StaleRoundKeyWordsReachNoResult := by
  unfold Obligations.StaleRoundKeyWordsReachNoResult
  refine fun s rk good notKexp agree => ⟨?_, fun t step => ?_⟩
  · have sameKey (adds : s.phase = .ark ∨ (s.phase = .prim ∧ s.opc = .ark)) :
        roundKey? rk s.round.toNat = roundKey? s.rk s.round.toNat :=
      roundKey?_congr fun j low => agree j (by have := good.round_le_nr adds; rw [scheduleWords]; omega)
    change engineStep (s.withRk rk) = mapNext (State.withRk rk) (engineStep s)
    rw [engineStep, engineStep, apply_ite (mapNext (State.withRk rk)), phaseStep_withRk notKexp sameKey]
    rfl
  · obtain ⟨-, -, -, -, -, -, ⟨-, same, -⟩ | ⟨-, kexp⟩, -⟩ := engineStep_frame step
    · exact same
    · exact absurd kexp notKexp

end Sys2Proof.Machine

/-! PROOFS. The bus and the registers: which accesses it accepts (20_memory.md R73), the map both ways (R76), what reads return (R70)
and what writes store (R71, R78). -/

namespace Sys2Proof.Machine

/-! ### Accepted accesses -/

/-- The bus refuses every size but 4 and every offset that is no multiple of 4 (20_memory.md R73). -/
theorem busAccepts_eq_false {a : BitVec 12} {n : BitVec 3} (refused : n ≠ 4 ∨ a.toNat % 4 ≠ 0) : busAccepts a n = false := by
  rw [busAccepts, Bool.and_eq_false_iff, beq_eq_false_iff_ne, beq_eq_false_iff_ne]
  exact refused

/-- A CMD write leaves the bus answer. -/
theorem answer_of_issue_eq_next {v : Word} {s t : State} (step : issue v s = .next t) : t.answer = s.answer := by
  rcases issue_cases step with ⟨e, -, -, rfl⟩ | ⟨i, -, -, -, rfl⟩
  · rfl
  · obtain ⟨-, -, -, -, -, -, same, -⟩ := commandAccept_lifecycle i s
    exact same

/-- A register write leaves the bus answer. -/
@[simp] theorem writeReg_answer (r : RegName) (v : Word) (s : State) : (writeReg r v s).answer = s.answer := by
  cases r <;> rfl

/-- An accepted write leaves the bus answer, whatever it writes. -/
theorem exists_writeAt_eq_next (a : BitVec 12) (v : Word) (s : State) :
    ∃ t, writeAt a v s = .next t ∧ t.answer = s.answer := by
  unfold writeAt
  split
  · obtain ⟨t, step⟩ := issue_next v s
    exact ⟨t, step, answer_of_issue_eq_next step⟩
  · exact ⟨_, rfl, writeReg_answer _ v s⟩
  · exact ⟨s, rfl, rfl⟩

/-- A read of an aligned word is answered OKAY. -/
theorem resp_busRead_of_aligned (s : State) {a : BitVec 12} (aligned : a.toNat % 4 = 0) : (busRead s a 4).resp = 0 := by
  rw [busRead, busAccepts_of_aligned aligned, if_pos rfl]
  split <;> rfl

/-- Settles O35: the bus looks at size and offset before anything else, reset held or not. -/
theorem onlyAlignedWordAccessesAreAccepted : Obligations.OnlyAlignedWordAccessesAreAccepted := by
  unfold Obligations.OnlyAlignedWordAccessesAreAccepted
  refine fun s a n v => ⟨fun refused => ?_, ?_⟩
  · have read : busRead s a n = .slverr := by rw [busRead, busAccepts_eq_false refused]; rfl
    refine ⟨read, read ▸ rfl, read ▸ rfl, ?_⟩
    rw [busWrite, busAccepts_eq_false refused]
    rfl
  · rintro rfl aligned
    refine ⟨resp_busRead_of_aligned s aligned, ?_⟩
    rw [busWrite, busAccepts_of_aligned aligned, if_pos rfl]
    split
    · exact exists_writeAt_eq_next a v { s with answer := some .okayWrite }
    · exact ⟨_, rfl, rfl⟩

/-! ### The register map -/

/-- A register of a range of the map is at the range's start plus four times its index. -/
theorem ofNat_add_four_mul_div {a : BitVec 12} {base : Nat} (aligned : a.toNat % 4 = 0) (baseAligned : base % 4 = 0)
    (above : base ≤ a.toNat) : BitVec.ofNat 12 (base + 4 * ((a.toNat - base) / 4)) = a := by
  rw [show base + 4 * ((a.toNat - base) / 4) = a.toNat by omega, BitVec.ofNat_toNat, BitVec.setWidth_eq]

/-- The map has a register only at the register's own offset (20_memory.md R76). -/
theorem offset_of_regAt {a : BitVec 12} {r : RegName} (found : regAt a = some r) : r.offset = a := by
  revert found
  fun_cases regAt a <;> rintro ⟨⟩
  case case2 | case3 | case4 | case5 | case6 | case7 | case8 | case9 | case10 =>
    exact BitVec.eq_of_toNat_eq (Eq.symm ‹a.toNat = _›)
  case case11 | case12 | case13 | case14 | case15 =>
    exact ofNat_add_four_mul_div (not_not.mp ‹¬ a.toNat % 4 ≠ 0›) rfl (And.left ‹_›)

/-- Settles O37: a register is at its offset, and nowhere else. -/
theorem registerMapIsOneToOne : Obligations.RegisterMapIsOneToOne := by
  unfold Obligations.RegisterMapIsOneToOne
  refine fun a r => ⟨offset_of_regAt, ?_⟩
  rintro rfl
  exact regAt_offset r

/-! ### What a read returns -/

/-- Settles O55: each offset is its register's, and CTRL's one field is at bit 0. -/
theorem registersReadTheirFields : Obligations.RegistersReadTheirFields := by
  unfold Obligations.RegistersReadTheirFields
  intro s
  have ctrl : regValue s .ctrl = (BitVec.ofBool s.ie).setWidth 32 := BitVec.shiftLeft_zero _
  exact ⟨busRead_reg s .id, ctrl ▸ busRead_reg s .ctrl, busRead_reg s .keylen, busRead_reg s .dinlen, busRead_reg s .ctx,
    busRead_reg s .gfop, busRead_reg s .gfres, fun k => busRead_reg s (.key k), fun k => busRead_reg s (.din k),
    fun k => busRead_reg s (.dout k), fun c => busRead_reg s (.statew c), fun i => busRead_reg s (.rkw i)⟩

/-- Settles O51: the value of each register in the state after reset, whose host has no statement. -/
theorem resetRegistersReadTheirResetValues : Obligations.ResetRegistersReadTheirResetValues := by
  unfold Obligations.ResetRegistersReadTheirResetValues
  refine ⟨fun r => ?_, rfl⟩
  rw [busRead_reg]
  cases r with
  | key k => fin_cases k <;> rfl
  | din k => fin_cases k <;> rfl
  | dout k => fin_cases k <;> rfl
  | statew k => fin_cases k <;> rfl
  | rkw i => simp [regValue, State.reset, State.atReset]
  | _ => rfl

/-! ### What a write stores -/

/-- The low k bits of a word, as a mask. -/
theorem setWidth_extractLsb'_zero (v : Word) (k : Nat) (h : k ≤ 32) :
    (v.extractLsb' 0 k).setWidth 32 = v &&& BitVec.ofNat 32 (2 ^ k - 1) := by
  have fits : 2 ^ k ≤ 2 ^ 32 := Nat.pow_le_pow_right (by decide) h
  have pos : 0 < 2 ^ k := Nat.two_pow_pos k
  apply BitVec.eq_of_toNat_eq
  rw [BitVec.toNat_and, BitVec.toNat_ofNat, Nat.mod_eq_of_lt (by omega), Nat.and_two_pow_sub_one_eq_mod, BitVec.toNat_setWidth,
    BitVec.extractLsb'_toNat, Nat.shiftRight_zero]
  exact Nat.mod_eq_of_lt ((Nat.mod_lt _ pos).trans_le fits)

/-- Two bytes of a word side by side are its low 16 bits. -/
theorem setWidth_extractLsb'_two_bytes (v : Word) :
    (v.extractLsb' 0 8).setWidth 32 ||| (v.extractLsb' 8 8).setWidth 32 <<< 8 = (v.extractLsb' 0 16).setWidth 32 := by
  apply BitVec.eq_of_getLsbD_eq
  intro i hi
  simp only [BitVec.getLsbD_or, BitVec.getLsbD_shiftLeft, BitVec.getLsbD_setWidth, BitVec.getLsbD_extractLsb']
  rcases Nat.lt_or_ge i 8 with low | high
  · simp [low, hi, show i < 16 by omega]
  · simp [hi, high.not_gt, show i - 8 < 32 by omega, show 8 + (i - 8) = i by omega, show i - 8 < 8 ↔ i < 16 by omega]

/-- The registers that the host writes, with the bits that their fields have (20_memory.md R78). -/
def WritableMask (r : RegName) (mask : Word) : Prop :=
  (r = .ctrl ∧ mask = 0x1) ∨ (r = .keylen ∧ mask = 0xFF) ∨ (r = .dinlen ∧ mask = 0xFF) ∨ (r = .gfop ∧ mask = 0xFFFF) ∨
    ((∃ k, r = .key k) ∧ mask = 0xFFFFFFFF) ∨ ((∃ k, r = .din k) ∧ mask = 0xFFFFFFFF)

/-- A written register reads as the value with its reserved bits 0 (20_memory.md R78). -/
theorem regValue_writeReg_self {r : RegName} {mask : Word} (h : WritableMask r mask) (v : Word) (s : State) :
    regValue (writeReg r v s) r = v &&& mask := by
  have all : v &&& 0xFFFFFFFF = v := BitVec.and_allOnes
  rcases h with ⟨rfl, rfl⟩ | ⟨rfl, rfl⟩ | ⟨rfl, rfl⟩ | ⟨rfl, rfl⟩ | ⟨⟨k, rfl⟩, rfl⟩ | ⟨⟨k, rfl⟩, rfl⟩
  · rw [show (0x1 : Word) = 1#32 from rfl, BitVec.and_one_eq_setWidth_ofBool_getLsbD]
    exact BitVec.shiftLeft_zero _
  · exact setWidth_extractLsb'_zero v 8 (by decide)
  · exact setWidth_extractLsb'_zero v 8 (by decide)
  · exact (setWidth_extractLsb'_two_bytes v).trans (setWidth_extractLsb'_zero v 16 (by decide))
  · rw [all]
    exact Vector.getElem_set_self _
  · rw [all]
    exact Vector.getElem_set_self _

/-- A register other than STATUS that is not written reads as before. -/
theorem regValue_writeReg_of_ne {r r' : RegName} (v : Word) (s : State) (notStatus : r ≠ .status) (other : r' ≠ r) :
    regValue (writeReg r v s) r' = regValue s r' := by
  cases r with
  | status => exact absurd rfl notStatus
  | key k =>
    cases r' with
    | key k' =>
      have apart : k.val ≠ k'.val := fun same => other (congrArg RegName.key (Fin.ext same.symm))
      exact Vector.getElem_set_ne k.isLt k'.isLt apart
    | _ => rfl
  | din k =>
    cases r' with
    | din k' =>
      have apart : k.val ≠ k'.val := fun same => other (congrArg RegName.din (Fin.ext same.symm))
      exact Vector.getElem_set_ne k.isLt k'.isLt apart
    | _ => rfl
  | ctrl => cases r' with
    | ctrl => exact absurd rfl other
    | _ => rfl
  | keylen => cases r' with
    | keylen => exact absurd rfl other
    | _ => rfl
  | dinlen => cases r' with
    | dinlen => exact absurd rfl other
    | _ => rfl
  | gfop => cases r' with
    | gfop => exact absurd rfl other
    | _ => rfl
  | _ => rfl

/-- A read does not look at the answer to the last transaction. -/
theorem regValue_with_answer (s : State) (a : Option BusAnswer) (r : RegName) :
    regValue { s with answer := a } r = regValue s r := rfl

/-- Settles O39: a write of each of the registers stores its field, and reads show the field. -/
theorem writtenRegistersReadBackMasked : Obligations.WrittenRegistersReadBackMasked := by
  unfold Obligations.WrittenRegistersReadBackMasked
  intro s v released
  have write (r : RegName) (notCmd : r ≠ .cmd) := busWrite_reg_of_rstN (r := r) (v := v) released notCmd
  refine ⟨write .ctrl nofun, write .keylen nofun, write .dinlen nofun, write .gfop nofun, fun k => write (.key k) nofun,
    fun k => write (.din k) nofun, fun r mask h => ?_⟩
  obtain ⟨notCmd, notStatus⟩ : r ≠ .cmd ∧ r ≠ .status := by
    rcases h with ⟨rfl, -⟩ | ⟨rfl, -⟩ | ⟨rfl, -⟩ | ⟨rfl, -⟩ | ⟨⟨k, rfl⟩, -⟩ | ⟨⟨k, rfl⟩, -⟩ <;> exact ⟨nofun, nofun⟩
  refine ⟨_, write r notCmd, ?_, fun r' other => ?_⟩
  · rw [busRead_reg, regValue_writeReg_self h]
  · rw [busRead_reg, busRead_reg, regValue_writeReg_of_ne v _ notStatus other, regValue_with_answer]

end Sys2Proof.Machine

/-! PROOFS. Reset (70_reset_and_hazards.md R290, R291) and the whole-machine rules: which steps change the schedule, DIR, KIDX, DOUT,
GFRES and S (10_state.md R35, R39, R40, R44, R46, R50 to R52). -/

namespace Sys2Proof.Machine

/-! ### Reset -/

/-- A turn of the reset input drives its level. -/
theorem step_of_reset {s : State} {level : Bool} {rest : List Turn} (turn : s.turns = .reset level :: rest) :
    step s = .next (State.driveReset level { s with turns := rest }) := by
  rw [step, turn]
  rfl

/-- Settles O49: the reset event gives every register its reset value and leaves the host's side. -/
theorem resetAbandonsTheCommandInProgress : Obligations.ResetAbandonsTheCommandInProgress := by
  unfold Obligations.ResetAbandonsTheCommandInProgress
  intro s rest turn released
  have event : State.driveReset false { s with turns := rest } = State.assertReset { s with turns := rest } := if_pos released
  refine ⟨_, (step_of_reset turn).trans (congrArg _ event), rfl, rfl, rfl, rfl, rfl, rfl, rfl, rfl, rfl, rfl, rfl, rfl, rfl, rfl,
    rfl, rfl, rfl, rfl, rfl, fun k => ?_, fun k => ⟨?_, ?_⟩, fun r c => ?_, fun i => ?_, rfl, rfl, rfl, rfl, rfl⟩
  · fin_cases k <;> rfl
  · fin_cases k <;> rfl
  · fin_cases k <;> rfl
  · fin_cases r <;> fin_cases c <;> rfl
  · simp [State.assertReset, State.atReset]

/-- While reset is held a step that does not release it changes the host's side only. -/
theorem block_of_step_held {s t : State} (good : Inv s) (held : s.rstN = false) (step : step s = .next t) (still : t.rstN = false) :
    t.resets = s.resets ∧ t.rk = s.rk := by
  have idle : s.busy = false := by rw [good.held held]; rfl
  obtain ⟨rest, ⟨-, engine⟩ | ⟨_, _, released, -⟩ | ⟨_, _, released, -⟩ | ⟨_, _, _, released, -⟩ | ⟨_, _, _, _, rfl⟩ |
    ⟨level, rfl⟩⟩ := step_cases step
  · cases (engineStep_of_idle (s := { s with turns := rest }) idle).symm.trans engine
    exact ⟨rfl, rfl⟩
  · rw [held] at released; contradiction
  · rw [held] at released; contradiction
  · rw [held] at released; contradiction
  · exact ⟨rfl, rfl⟩
  · cases level with
    | true => contradiction
    | false =>
      have noEvent : State.driveReset false { s with turns := rest } = { s with turns := rest } :=
        if_neg (ne_true_of_eq_false held)
      rw [noEvent]
      exact ⟨rfl, rfl⟩

/-- Settles O50: the invariant holds the reset values, and no access and no step but the release moves them. -/
theorem heldResetKeepsResetValues : Obligations.HeldResetKeepsResetValues := by
  unfold Obligations.HeldResetKeepsResetValues
  intro s good held
  have block := good.held held
  refine ⟨fun t step still => ⟨(everyStepKeepsTheInvariant s t good step).held still, block_of_step_held good held step still⟩,
    fun r => ?_, fun a v aligned => ?_, fun rest turn => ⟨(step_of_reset turn).trans rfl, ?_⟩⟩
  · rw [busRead_reg, block]
    cases r <;> rfl
  · rw [busWrite, busAccepts_of_aligned aligned, if_pos rfl, if_neg (ne_true_of_eq_false held)]
  · rw [block]
    exact ⟨rfl, rfl, rfl, rfl, rfl, rfl, rfl⟩

/-! ### What a step can change -/

/-- The step from `s` to `t` left the schedule, DIR, KIDX and the results alone. -/
structure KeepsResults (s t : State) : Prop where
  dir : t.dir = s.dir
  kidx : t.kidx = s.kidx
  rk : t.rk = s.rk
  nk : t.nk = s.nk
  nr : t.nr = s.nr
  schedValid : t.schedValid = s.schedValid
  dout : t.dout = s.dout
  gfres : t.gfres = s.gfres
  st : t.st = s.st

/-- The step from `s` to `t` was the reset event. -/
structure ResetEvent (s t : State) : Prop where
  before : s.rstN = true
  after : t.rstN = false
  schedValid : t.schedValid = false
  dir : t.dir = false
  kidx : t.kidx = 0

/-- A step changes the schedule, DIR, KIDX or a result only by accepting a command, by an engine step, or by the reset event. -/
theorem step_keepsResults_or {s t : State} (h : step s = .next t) :
    KeepsResults s t ∨
    (s.busy = false ∧ ∃ i rest p, firstError (commandChecks i s) = none ∧
      t = commandAccept i { s with turns := rest, scriptPos := p, answer := some .okayWrite }) ∨
    s.EngineMoved t ∨ ResetEvent s t := by
  obtain ⟨rest, ⟨turn, engine⟩ | ⟨p, e, -, -, -, rfl⟩ | ⟨p, i, -, idle, passes, rfl⟩ | ⟨p, r, v, -, write⟩ | ⟨a, p, f, r, rfl⟩ |
    ⟨level, rfl⟩⟩ := step_cases h
  · cases status : s.busy with
    | true => exact .inr (.inr (.inl (engineMoved_of_turn turn engine status)))
    | false =>
      cases (engineStep_of_idle (s := { s with turns := rest }) status).symm.trans engine
      exact .inl ⟨rfl, rfl, rfl, rfl, rfl, rfl, rfl, rfl, rfl⟩
  · exact .inl ⟨rfl, rfl, rfl, rfl, rfl, rfl, rfl, rfl, rfl⟩
  · exact .inr (.inl ⟨idle, i, rest, p, passes, rfl⟩)
  · obtain ⟨dir, kidx, rk, nk, nr, schedValid, dout, gfres, st⟩ := writeReg_frame r v _ t write
    exact .inl ⟨dir, kidx, rk, nk, nr, schedValid, dout, gfres, st⟩
  · exact .inl ⟨rfl, rfl, rfl, rfl, rfl, rfl, rfl, rfl, rfl⟩
  · rcases driveReset_cases level { s with turns := rest } with ⟨before, after, schedValid, dir, kidx⟩ | ⟨b, same⟩
    · exact .inr (.inr (.inr ⟨before, after, schedValid, dir, kidx⟩))
    · rw [same]
      exact .inl ⟨rfl, rfl, rfl, rfl, rfl, rfl, rfl, rfl, rfl⟩

/-- A step that changes the schedule or KIDX is KEXP's accept, an engine step of KEXP, or the reset event. -/
theorem step_schedule_cases {s t : State} (h : step s = .next t)
    (changed : t.schedValid ≠ s.schedValid ∨ t.kidx ≠ s.kidx ∨ t.rk ≠ s.rk ∨ t.nk ≠ s.nk ∨ t.nr ≠ s.nr) :
    (s.busy = false ∧ ∃ rest p, keylenOk s.keylen = true ∧
      t = acceptKexp { s with turns := rest, scriptPos := p, answer := some .okayWrite }) ∨
    (s.EngineMoved t ∧ s.phase = .kexp) ∨ ResetEvent s t := by
  rcases step_keepsResults_or h with keeps | ⟨idle, i, rest, p, passes, rfl⟩ | moved | reset
  · exact absurd changed (by simp [keeps.schedValid, keeps.kidx, keeps.rk, keeps.nk, keeps.nr])
  · obtain ⟨-, -, -, -, -, -, ⟨-, kidx, rk, nk, nr, schedValid⟩ | rfl⟩ :=
      commandAccept_frame i { s with turns := rest, scriptPos := p, answer := some .okayWrite }
    · exact absurd changed (by simp [kidx, rk, nk, nr, schedValid])
    · exact .inl ⟨idle, rest, p, by simpa [commandChecks, firstError] using passes, rfl⟩
  · obtain ⟨-, -, engine⟩ := id moved
    obtain ⟨-, -, nk, nr, -, -, ⟨kidx, rk, schedValid⟩ | ⟨-, kexp⟩, -⟩ := engineStep_frame engine
    · exact absurd changed (by simp [kidx, rk, nk, nr, schedValid])
    · exact .inr (.inl ⟨moved, kexp⟩)
  · exact .inr (.inr reset)

/-- An idle block that a CMD write leaves busy has accepted the command. -/
theorem eq_commandAccept_of_exec {s t : State} {i : Instr} (idle : s.busy = false) (step : exec i s = .next t)
    (accepted : t.busy = true) : t = commandAccept i s := by
  rw [exec_eq_issueChecked] at step
  rcases issueChecked_cases step with ⟨busy, -⟩ | ⟨-, e, -, rfl⟩ | ⟨-, -, rfl⟩
  · rw [idle] at busy; contradiction
  · rw [State.cmdError_busy, idle] at accepted; contradiction
  · rfl

/-- Settles O45: the three changes of the schedule, and what each does to SCHED_VALID. -/
theorem schedValidChangesOnlyByKexp : Obligations.SchedValidChangesOnlyByKexp := by
  unfold Obligations.SchedValidChangesOnlyByKexp
  refine ⟨rfl, fun s t step changed => ?_, fun s t step idle accepted => ?_, fun s t step busy kexp completes => ?_,
    fun s good valid => ?_⟩
  · rcases step_schedule_cases step (.inl changed) with ⟨idle, rest, p, -, rfl⟩ | ⟨moved, kexp⟩ | reset
    · exact .inl ⟨idle, rfl, rfl, rfl, rfl⟩
    · obtain ⟨busy, -, engine⟩ := id moved
      obtain ⟨w, -, -, -, ⟨idle, done, valid⟩ | ⟨-, same⟩⟩ :=
        engineStep_kexp_cases (s := { s with turns := t.turns }) kexp busy engine
      · exact .inr (.inl ⟨moved, kexp, idle, done, valid⟩)
      · exact absurd same changed
    · exact .inr (.inr ⟨reset.before, reset.after, reset.schedValid⟩)
  · rw [eq_commandAccept_of_exec idle step accepted]
    rfl
  · obtain ⟨w, -, -, -, ⟨-, -, valid⟩ | ⟨busy', -⟩⟩ := engineStep_kexp_cases kexp busy step
    · exact valid
    · rw [completes] at busy'; contradiction
  · obtain ⟨-, -, complete⟩ := good.valid_schedule valid
    exact complete

/-- KEXP's accept sets KIDX to NK, and NR to six more than the key's words (41_key_schedule.md R160, R166). -/
theorem kidx_nr_acceptKexp {s : State} (legal : keylenOk s.keylen = true) :
    (acceptKexp s).kidx.toNat = (acceptKexp s).nk.toNat ∧ (acceptKexp s).nr.toNat = nkOfKeylen s.keylen + 6 := by
  have three : s.keylen = 16 ∨ s.keylen = 24 ∨ s.keylen = 32 := by simpa [keylenOk, or_assoc] using legal
  change (BitVec.ofNat 6 (nkOfKeylen s.keylen)).toNat = (BitVec.ofNat 4 (nkOfKeylen s.keylen)).toNat ∧
    (BitVec.ofNat 4 (nrOfNk (nkOfKeylen s.keylen))).toNat = nkOfKeylen s.keylen + 6
  rcases three with len | len | len <;> rw [len] <;> decide

/-- A KEXP engine step adds 1 to KIDX and writes RK[KIDX] only; NK and NR stay (41_key_schedule.md R167). -/
theorem engineMoved_kexp {s t : State} (moved : s.EngineMoved t) (kexp : s.phase = .kexp) :
    t.kidx.toNat = s.kidx.toNat + 1 ∧ t.nk = s.nk ∧ t.nr = s.nr ∧ ∀ i : Nat, i ≠ s.kidx.toNat → t.rk[i]? = s.rk[i]? := by
  obtain ⟨busy, -, step⟩ := moved
  obtain ⟨-, -, nk, nr, -⟩ := engineStep_frame step
  obtain ⟨w, inStore, rk, kidx, -⟩ := engineStep_kexp_cases (s := { s with turns := t.turns }) kexp busy step
  refine ⟨?_, nk, nr, fun i other => ?_⟩
  · rw [kidx, BitVec.toNat_ofNat, Nat.mod_eq_of_lt (Nat.succ_lt_succ (inStore.trans (by decide)))]
  · rw [rk, Vector.getElem?_set, if_neg other.symm]

/-- Settles O46: DIR is written by two acceptances only, and KIDX goes with the schedule. -/
theorem dirAndKidxChangeOnlyByTheirCommands : Obligations.DirAndKidxChangeOnlyByTheirCommands := by
  unfold Obligations.DirAndKidxChangeOnlyByTheirCommands
  refine ⟨fun s t step changed => ?_, fun s t good step changed => ?_⟩
  · rcases step_keepsResults_or step with keeps | ⟨idle, i, rest, p, -, rfl⟩ | ⟨-, -, engine⟩ | reset
    · exact absurd keeps.dir changed
    · obtain ⟨busy, -, -, -, -, same | ⟨rfl, dir⟩ | ⟨rfl, dir⟩, -⟩ :=
        commandAccept_frame i { s with turns := rest, scriptPos := p, answer := some .okayWrite }
      · exact absurd same changed
      · exact .inl ⟨idle, busy, .inl ⟨rfl, dir⟩⟩
      · exact .inl ⟨idle, busy, .inr ⟨rfl, dir⟩⟩
    · obtain ⟨same, -⟩ := engineStep_frame engine
      exact absurd same changed
    · exact .inr ⟨reset.before, reset.after, reset.dir⟩
  · rcases step_schedule_cases step (.inr (.inl changed)) with ⟨idle, rest, p, legal, rfl⟩ | ⟨moved, kexp⟩ | reset
    · exact .inl ⟨idle, rfl, rfl, (kidx_nr_acceptKexp legal).1⟩
    · exact .inr (.inl ⟨moved, kexp, (engineMoved_kexp moved kexp).1⟩)
    · exact .inr (.inr ⟨reset.before, reset.after, reset.kidx⟩)

/-- KEXP's accept leaves the words at and above the schedule's end (41_key_schedule.md R166). -/
theorem getElem?_acceptKexp_rk {s : State} (legal : keylenOk s.keylen = true) {i : Nat}
    (above : scheduleWords (acceptKexp s).nr.toNat ≤ i) : (acceptKexp s).rk[i]? = s.rk[i]? := by
  rw [(kidx_nr_acceptKexp legal).2, scheduleWords] at above
  exact getElem?_loadKeyWords_of_le s.key s.rk (by omega)

/-- Settles O47: the three changes of the schedule, and the words that each leaves. -/
theorem onlyKexpWritesTheSchedule : Obligations.OnlyKexpWritesTheSchedule := by
  unfold Obligations.OnlyKexpWritesTheSchedule
  intro s t good step changed
  rcases step_schedule_cases step (.inr (.inr changed)) with ⟨idle, rest, p, legal, rfl⟩ | ⟨moved, kexp⟩ | reset
  · exact .inl ⟨idle, rfl, rfl, fun i above => getElem?_acceptKexp_rk legal above⟩
  · obtain ⟨-, -, -, -, high, -⟩ := good.kexp_running kexp
    exact .inr (.inl ⟨moved, kexp, high, engineMoved_kexp moved kexp⟩)
  · exact .inr (.inr ⟨reset.before, reset.after⟩)

/-- In a good state phase ARK belongs to ENC or DEC (43_block_cipher.md R224). -/
theorem Inv.opc_of_phase_ark {s : State} (good : Inv s) (ark : s.phase = .ark) : s.opc = .enc ∨ s.opc = .dec := by
  obtain ⟨-, -, facts⟩ := good.cipher_running (by rw [ark]; rfl)
  rw [cipherPhaseOk, ark] at facts
  exact facts.imp And.right And.right

/-- Settles O48: an acceptance writes S for three commands and no other result, and the engine's frame gives the rest. -/
theorem resultsChangeOnlyByTheirCommands : Obligations.ResultsChangeOnlyByTheirCommands := by
  unfold Obligations.ResultsChangeOnlyByTheirCommands
  intro s t good step
  rcases step_keepsResults_or step with keeps | ⟨idle, i, rest, p, -, rfl⟩ | moved | reset
  · exact ⟨absurd keeps.dout, absurd keeps.gfres, absurd keeps.st⟩
  · obtain ⟨busy, dout, gfres, -, st, -⟩ :=
      commandAccept_frame i { s with turns := rest, scriptPos := p, answer := some .okayWrite }
    refine ⟨absurd dout, absurd gfres, fun changed => .inr (.inl ?_)⟩
    rcases st with same | rfl | rfl | rfl
    · exact absurd same changed
    · exact ⟨idle, busy, .inl rfl, rfl⟩
    · exact ⟨idle, busy, .inr (.inl rfl), rfl⟩
    · exact ⟨idle, busy, .inr (.inr rfl), rfl⟩
  · obtain ⟨-, -, engine⟩ := id moved
    obtain ⟨-, -, -, -, -, -, -, dout, gfres, st, -⟩ := engineStep_frame engine
    refine ⟨fun changed => .inl ?_, fun changed => .inl ?_, fun changed => .inl ?_⟩
    · obtain ⟨-, command, completes, done, flattened⟩ := dout.resolve_left changed
      have opc : s.opc = .enc ∨ s.opc = .dec ∨ s.opc = .store := by
        rcases command with ark | ⟨-, store⟩
        · exact (good.opc_of_phase_ark ark).imp_right .inl
        · exact .inr (.inr store)
      exact ⟨moved, completes, done, opc, flattened⟩
    · obtain ⟨-, -, completes, done, opc⟩ := gfres.resolve_left changed
      exact ⟨moved, completes, done, opc⟩
    · obtain ⟨-, transforms⟩ := st.resolve_left changed
      exact ⟨moved, transforms⟩
  · exact ⟨fun _ => .inr ⟨reset.before, reset.after⟩, fun _ => .inr ⟨reset.before, reset.after⟩,
      fun _ => .inr (.inr ⟨reset.before, reset.after⟩)⟩

end Sys2Proof.Machine
